-- ==== Sys2Proof/Word.lean ====
section
/-! DEFINITION. The word types of the chipmunk CORE (00_scope.md R6, R7): bytes, 16-bit words and addresses, the
12-bit address field, register numbers. All values are unsigned. -/

namespace Sys2Proof

/-- An unsigned 8-bit value, `u8` (R7). -/
abbrev Byte := BitVec 8

/-- An unsigned 16-bit value, `u16` (R7): instruction words, PC, I, return addresses. -/
abbrev Word := BitVec 16

/-- The 12-bit absolute address field `nnn` of an instruction (30_encoding.md R92). -/
abbrev Addr12 := BitVec 12

/-- A general register's number, 0x0 to 0xF (10_state.md R21). -/
abbrev Reg := Fin 16

/-- VF, the flag register: general register 0xF (10_state.md R22). -/
def flagReg : Reg := 15

/-- A key of the hex keypad, 0x0 to 0xF (46_keys.md R250). -/
abbrev Key := Fin 16

/-- `zext_16` of a 12-bit field (00_scope.md R8). -/
abbrev zext12 (a : Addr12) : Word := a.setWidth 16

/-- `zext_16` of a byte (00_scope.md R8). -/
abbrev zext8 (b : Byte) : Word := b.setWidth 16

end Sys2Proof
end

