-- ==== Sys2Proof/Syntax.lean ====
section
/-! DEFINITION. The 34 instructions, one constructor per row of spec/opcode_table.json (30_encoding.md R95). Register
fields are numbers 0 to 15, `nn` is a byte, `nnn` a 12-bit address; DRW's `n` is a count of rows, a Nat whose bound
(below 16, R92) is checked in WellFormed.lean. -/

namespace Sys2Proof

/-- One constructor per row of the opcode map, in the table's order. The shifts keep their `y`: it is decoded and not
read (43_alu.md R200, R202), and no bit of a legal word is lost (30_encoding.md R97). -/
inductive Instr where
  /-- 00E0 CLS (R131) -/
  | cls
  /-- 00EE RET (R151) -/
  | ret
  /-- 1nnn JP nnn (R152) -/
  | jp (nnn : Addr12)
  /-- 2nnn CALL nnn (R153) -/
  | call (nnn : Addr12)
  /-- 3xkk SE Vx, kk (R171) -/
  | seImm (x : Reg) (nn : Byte)
  /-- 4xkk SNE Vx, kk (R172) -/
  | sneImm (x : Reg) (nn : Byte)
  /-- 5xy0 SE Vx, Vy (R173) -/
  | seReg (x y : Reg)
  /-- 6xkk LD Vx, kk (R191) -/
  | ldImm (x : Reg) (nn : Byte)
  /-- 7xkk ADD Vx, kk (R192) -/
  | addImm (x : Reg) (nn : Byte)
  /-- 8xy0 LD Vx, Vy (R193) -/
  | ldReg (x y : Reg)
  /-- 8xy1 OR Vx, Vy (R194) -/
  | orReg (x y : Reg)
  /-- 8xy2 AND Vx, Vy (R195) -/
  | andReg (x y : Reg)
  /-- 8xy3 XOR Vx, Vy (R196) -/
  | xorReg (x y : Reg)
  /-- 8xy4 ADD Vx, Vy (R198) -/
  | addReg (x y : Reg)
  /-- 8xy5 SUB Vx, Vy (R199) -/
  | subReg (x y : Reg)
  /-- 8xy6 SHR Vx (R200) -/
  | shr (x y : Reg)
  /-- 8xy7 SUBN Vx, Vy (R201) -/
  | subnReg (x y : Reg)
  /-- 8xyE SHL Vx (R202) -/
  | shl (x y : Reg)
  /-- 9xy0 SNE Vx, Vy (R174) -/
  | sneReg (x y : Reg)
  /-- Annn LD I, nnn (R221) -/
  | ldI (nnn : Addr12)
  /-- Bnnn JP V0, nnn (R154) -/
  | jpV0 (nnn : Addr12)
  /-- Cxkk RND Vx, kk (R241) -/
  | rnd (x : Reg) (nn : Byte)
  /-- Dxyn DRW Vx, Vy, n (R132) -/
  | drw (x y : Reg) (n : Nat)
  /-- Ex9E SKP Vx (R251) -/
  | skp (x : Reg)
  /-- ExA1 SKNP Vx (R252) -/
  | sknp (x : Reg)
  /-- Fx07 LD Vx, DT (R271) -/
  | ldVxDt (x : Reg)
  /-- Fx0A LD Vx, K (R253) -/
  | ldVxK (x : Reg)
  /-- Fx15 LD DT, Vx (R272) -/
  | ldDtVx (x : Reg)
  /-- Fx18 LD ST, Vx (R273) -/
  | ldStVx (x : Reg)
  /-- Fx1E ADD I, Vx (R222) -/
  | addI (x : Reg)
  /-- Fx29 LD F, Vx (R223) -/
  | ldF (x : Reg)
  /-- Fx33 LD B, Vx (R292) -/
  | ldB (x : Reg)
  /-- Fx55 LD [I], Vx (R294) -/
  | storeRegs (x : Reg)
  /-- Fx65 LD Vx, [I] (R296) -/
  | loadRegs (x : Reg)
  deriving DecidableEq, Repr, Inhabited

end Sys2Proof
end

