-- ==== Sys2Proof/Decode.lean ====
section
/-! DEFINITION. The decoder of 30_encoding.md (R91 to R98), total on any word and any bytes; after it the encoder,
written from the same formats (R93), and the opcode map as a list of match and mask rows (R95). The bit patterns are the
spec's decision D1 (log entry 12). -/

namespace Sys2Proof

/-- Why a word or a byte string is no instruction. -/
inductive DecodeError where
  /-- "unrecognized instruction", carrying the raw word (R94) -/
  | unrecognized (word : Word)
  /-- fewer than two bytes: no instruction word at all (R90; log entry 22) -/
  | truncated
  deriving DecidableEq, Repr, Inhabited

/-- The leading nibble `op = w[15:12]` (R91). -/
def leadingNibble (w : Word) : BitVec 4 := w.extractLsb' 12 4

/-- The trailing nibble `w[3:0]` (R91). -/
def trailingNibble (w : Word) : BitVec 4 := w.extractLsb' 0 4

/-- The trailing byte `w[7:0]` (R91), which is also the field `nn` (R92). -/
def trailingByte (w : Word) : Byte := w.extractLsb' 0 8

/-- Field `x`, bits 11:8 (R92). -/
def fieldX (w : Word) : Reg := (w.extractLsb' 8 4).toFin

/-- Field `y`, bits 7:4 (R92). -/
def fieldY (w : Word) : Reg := (w.extractLsb' 4 4).toFin

/-- Field `n`, bits 3:0, the number of sprite rows (R92). -/
def fieldN (w : Word) : Nat := (trailingNibble w).toNat

/-- Field `nnn`, bits 11:0 (R92). -/
def fieldNnn (w : Word) : Addr12 := w.extractLsb' 0 12

/-- The 0x0 words: the two exact words of R96, every other one a decode error (D2). -/
def decodeSys (w : Word) : Except DecodeError Instr :=
  if w = 0x00E0#16 then .ok .cls
  else if w = 0x00EE#16 then .ok .ret
  else .error (.unrecognized w)

/-- The 0x8 words: the trailing nibble selects (R96, D4). -/
def decodeAlu (w : Word) : Except DecodeError Instr :=
  match (trailingNibble w).toNat with
  | 0x0 => .ok (.ldReg (fieldX w) (fieldY w))
  | 0x1 => .ok (.orReg (fieldX w) (fieldY w))
  | 0x2 => .ok (.andReg (fieldX w) (fieldY w))
  | 0x3 => .ok (.xorReg (fieldX w) (fieldY w))
  | 0x4 => .ok (.addReg (fieldX w) (fieldY w))
  | 0x5 => .ok (.subReg (fieldX w) (fieldY w))
  | 0x6 => .ok (.shr (fieldX w) (fieldY w))
  | 0x7 => .ok (.subnReg (fieldX w) (fieldY w))
  | 0xE => .ok (.shl (fieldX w) (fieldY w))
  | _ => .error (.unrecognized w)

/-- The 0xE words: the trailing byte selects (R96). -/
def decodeKey (w : Word) : Except DecodeError Instr :=
  match (trailingByte w).toNat with
  | 0x9E => .ok (.skp (fieldX w))
  | 0xA1 => .ok (.sknp (fieldX w))
  | _ => .error (.unrecognized w)

/-- The 0xF words: the trailing byte selects (R96). -/
def decodeMisc (w : Word) : Except DecodeError Instr :=
  match (trailingByte w).toNat with
  | 0x07 => .ok (.ldVxDt (fieldX w))
  | 0x0A => .ok (.ldVxK (fieldX w))
  | 0x15 => .ok (.ldDtVx (fieldX w))
  | 0x18 => .ok (.ldStVx (fieldX w))
  | 0x1E => .ok (.addI (fieldX w))
  | 0x29 => .ok (.ldF (fieldX w))
  | 0x33 => .ok (.ldB (fieldX w))
  | 0x55 => .ok (.storeRegs (fieldX w))
  | 0x65 => .ok (.loadRegs (fieldX w))
  | _ => .error (.unrecognized w)

/-- The decoder (R94): a total function of the word alone, keyed on the leading nibble (R96). The last arm is for the
leading nibble 0xF, the only value left. -/
def decode (w : Word) : Except DecodeError Instr :=
  match (leadingNibble w).toNat with
  | 0x0 => decodeSys w
  | 0x1 => .ok (.jp (fieldNnn w))
  | 0x2 => .ok (.call (fieldNnn w))
  | 0x3 => .ok (.seImm (fieldX w) (trailingByte w))
  | 0x4 => .ok (.sneImm (fieldX w) (trailingByte w))
  | 0x5 => if trailingNibble w = 0 then .ok (.seReg (fieldX w) (fieldY w)) else .error (.unrecognized w)
  | 0x6 => .ok (.ldImm (fieldX w) (trailingByte w))
  | 0x7 => .ok (.addImm (fieldX w) (trailingByte w))
  | 0x8 => decodeAlu w
  | 0x9 => if trailingNibble w = 0 then .ok (.sneReg (fieldX w) (fieldY w)) else .error (.unrecognized w)
  | 0xA => .ok (.ldI (fieldNnn w))
  | 0xB => .ok (.jpV0 (fieldNnn w))
  | 0xC => .ok (.rnd (fieldX w) (trailingByte w))
  | 0xD => .ok (.drw (fieldX w) (fieldY w) (fieldN w))
  | 0xE => decodeKey w
  | _ => decodeMisc w

/-- The instruction word of two bytes, big-endian: the byte at the lower address is bits 15:8 (20_memory.md R63, R69). -/
def wordOfBytes (hi lo : Byte) : Word := hi ++ lo

/-- The byte of a word at the lower address, bits 15:8 (R63). -/
def highByte (w : Word) : Byte := w.extractLsb' 8 8

/-- The byte of a word at the higher address, bits 7:0 (R63). -/
def lowByte (w : Word) : Byte := w.extractLsb' 0 8

/-- The instruction at the head of a byte string, with the bytes after it: every instruction is two bytes long (R90). -/
def decodeBytes : List Byte → Except DecodeError (Instr × List Byte)
  | hi :: lo :: rest =>
    match decode (wordOfBytes hi lo) with
    | .ok i => .ok (i, rest)
    | .error e => .error e
  | [_] => .error .truncated
  | [] => .error .truncated

/-- Format NNN (R93). -/
def formatNnn (op : BitVec 4) (nnn : Addr12) : Word := op ++ nnn

/-- Format XNN (R93). -/
def formatXnn (op : BitVec 4) (x : Reg) (nn : Byte) : Word := op ++ (BitVec.ofFin x : BitVec 4) ++ nn

/-- Formats XY and XYN (R93): the last nibble is the sub-selector or `n`. -/
def formatXy (op : BitVec 4) (x y : Reg) (sel : BitVec 4) : Word :=
  op ++ (BitVec.ofFin x : BitVec 4) ++ (BitVec.ofFin y : BitVec 4) ++ sel

/-- Format X (R93): the last byte is the sub-selector. -/
def formatX (op : BitVec 4) (x : Reg) (sel : Byte) : Word := op ++ (BitVec.ofFin x : BitVec 4) ++ sel

/-- The encoder: the word of each instruction, row by row of R95 in the formats of R93. -/
def encode : Instr → Word
  | .cls => 0x00E0
  | .ret => 0x00EE
  | .jp nnn => formatNnn 0x1 nnn
  | .call nnn => formatNnn 0x2 nnn
  | .seImm x nn => formatXnn 0x3 x nn
  | .sneImm x nn => formatXnn 0x4 x nn
  | .seReg x y => formatXy 0x5 x y 0x0
  | .ldImm x nn => formatXnn 0x6 x nn
  | .addImm x nn => formatXnn 0x7 x nn
  | .ldReg x y => formatXy 0x8 x y 0x0
  | .orReg x y => formatXy 0x8 x y 0x1
  | .andReg x y => formatXy 0x8 x y 0x2
  | .xorReg x y => formatXy 0x8 x y 0x3
  | .addReg x y => formatXy 0x8 x y 0x4
  | .subReg x y => formatXy 0x8 x y 0x5
  | .shr x y => formatXy 0x8 x y 0x6
  | .subnReg x y => formatXy 0x8 x y 0x7
  | .shl x y => formatXy 0x8 x y 0xE
  | .sneReg x y => formatXy 0x9 x y 0x0
  | .ldI nnn => formatNnn 0xA nnn
  | .jpV0 nnn => formatNnn 0xB nnn
  | .rnd x nn => formatXnn 0xC x nn
  | .drw x y n => formatXy 0xD x y (BitVec.ofNat 4 n)
  | .skp x => formatX 0xE x 0x9E
  | .sknp x => formatX 0xE x 0xA1
  | .ldVxDt x => formatX 0xF x 0x07
  | .ldVxK x => formatX 0xF x 0x0A
  | .ldDtVx x => formatX 0xF x 0x15
  | .ldStVx x => formatX 0xF x 0x18
  | .addI x => formatX 0xF x 0x1E
  | .ldF x => formatX 0xF x 0x29
  | .ldB x => formatX 0xF x 0x33
  | .storeRegs x => formatX 0xF x 0x55
  | .loadRegs x => formatX 0xF x 0x65

/-- A row of the opcode map as the table gives it: a word w is of the row when `w AND mask = match`. -/
structure OpcodeRow where
  mask : Word
  pattern : Word
  deriving DecidableEq, Repr, Inhabited

/-- Whether a word is of a row. -/
def OpcodeRow.matchesWord (r : OpcodeRow) (w : Word) : Bool := w &&& r.mask == r.pattern

/-- The row of an instruction (R95, spec/opcode_table.json). -/
def Instr.row : Instr → OpcodeRow
  | .cls => ⟨0xFFFF, 0x00E0⟩
  | .ret => ⟨0xFFFF, 0x00EE⟩
  | .jp _ => ⟨0xF000, 0x1000⟩
  | .call _ => ⟨0xF000, 0x2000⟩
  | .seImm _ _ => ⟨0xF000, 0x3000⟩
  | .sneImm _ _ => ⟨0xF000, 0x4000⟩
  | .seReg _ _ => ⟨0xF00F, 0x5000⟩
  | .ldImm _ _ => ⟨0xF000, 0x6000⟩
  | .addImm _ _ => ⟨0xF000, 0x7000⟩
  | .ldReg _ _ => ⟨0xF00F, 0x8000⟩
  | .orReg _ _ => ⟨0xF00F, 0x8001⟩
  | .andReg _ _ => ⟨0xF00F, 0x8002⟩
  | .xorReg _ _ => ⟨0xF00F, 0x8003⟩
  | .addReg _ _ => ⟨0xF00F, 0x8004⟩
  | .subReg _ _ => ⟨0xF00F, 0x8005⟩
  | .shr _ _ => ⟨0xF00F, 0x8006⟩
  | .subnReg _ _ => ⟨0xF00F, 0x8007⟩
  | .shl _ _ => ⟨0xF00F, 0x800E⟩
  | .sneReg _ _ => ⟨0xF00F, 0x9000⟩
  | .ldI _ => ⟨0xF000, 0xA000⟩
  | .jpV0 _ => ⟨0xF000, 0xB000⟩
  | .rnd _ _ => ⟨0xF000, 0xC000⟩
  | .drw _ _ _ => ⟨0xF000, 0xD000⟩
  | .skp _ => ⟨0xF0FF, 0xE09E⟩
  | .sknp _ => ⟨0xF0FF, 0xE0A1⟩
  | .ldVxDt _ => ⟨0xF0FF, 0xF007⟩
  | .ldVxK _ => ⟨0xF0FF, 0xF00A⟩
  | .ldDtVx _ => ⟨0xF0FF, 0xF015⟩
  | .ldStVx _ => ⟨0xF0FF, 0xF018⟩
  | .addI _ => ⟨0xF0FF, 0xF01E⟩
  | .ldF _ => ⟨0xF0FF, 0xF029⟩
  | .ldB _ => ⟨0xF0FF, 0xF033⟩
  | .storeRegs _ => ⟨0xF0FF, 0xF055⟩
  | .loadRegs _ => ⟨0xF0FF, 0xF065⟩

/-- The opcode map (R95): the 34 rows in the table's order. -/
def opcodeMap : List OpcodeRow :=
  [⟨0xFFFF, 0x00E0⟩, ⟨0xFFFF, 0x00EE⟩, ⟨0xF000, 0x1000⟩, ⟨0xF000, 0x2000⟩, ⟨0xF000, 0x3000⟩, ⟨0xF000, 0x4000⟩] ++
  [⟨0xF00F, 0x5000⟩, ⟨0xF000, 0x6000⟩, ⟨0xF000, 0x7000⟩] ++
  [⟨0xF00F, 0x8000⟩, ⟨0xF00F, 0x8001⟩, ⟨0xF00F, 0x8002⟩, ⟨0xF00F, 0x8003⟩, ⟨0xF00F, 0x8004⟩] ++
  [⟨0xF00F, 0x8005⟩, ⟨0xF00F, 0x8006⟩, ⟨0xF00F, 0x8007⟩, ⟨0xF00F, 0x800E⟩] ++
  [⟨0xF00F, 0x9000⟩, ⟨0xF000, 0xA000⟩, ⟨0xF000, 0xB000⟩, ⟨0xF000, 0xC000⟩, ⟨0xF000, 0xD000⟩] ++
  [⟨0xF0FF, 0xE09E⟩, ⟨0xF0FF, 0xE0A1⟩] ++
  [⟨0xF0FF, 0xF007⟩, ⟨0xF0FF, 0xF00A⟩, ⟨0xF0FF, 0xF015⟩, ⟨0xF0FF, 0xF018⟩, ⟨0xF0FF, 0xF01E⟩] ++
  [⟨0xF0FF, 0xF029⟩, ⟨0xF0FF, 0xF033⟩, ⟨0xF0FF, 0xF055⟩, ⟨0xF0FF, 0xF065⟩]

/-- Whether some row of the opcode map matches a word: the legal words of R98. -/
def legalWord (w : Word) : Bool := opcodeMap.any (fun r => r.matchesWord w)

/-- An instruction's bits as spec/opcode_table.json numbers them (one 16-bit word, bit 0 the least significant): the
low `nbits` bits of `w`, the bits above them 0. -/
def tableWord (nbits w : Nat) : Word := BitVec.ofNat 16 (w % 2 ^ nbits)

/-- The instruction the decoder reads from an instruction whose bits are `w`: the word laid out as the hardware stores
it (R63) and given to `decodeBytes`. -/
def decodeTableWord (nbits w : Nat) : Option Instr :=
  match decodeBytes [highByte (tableWord nbits w), lowByte (tableWord nbits w)] with
  | .ok (i, _) => some i
  | .error _ => none

end Sys2Proof
end

