-- ==== Sys2Proof/Config.lean ====
section
/-! DEFINITION. What an implementation fixes: the parameters of 00_scope.md R6, and the free values of
93_implementation_defined.md as constants without a body. -/

namespace Sys2Proof

/-- `JUMP_OFFSET_BASE` of R6: what JP V0, nnn adds V0 to (41_flow.md R154, D8). -/
inductive JumpBase where
  /-- the index register I, the spec's default -/
  | index
  /-- the immediate nnn, the classic reading -/
  | immediate
  deriving DecidableEq, Repr, Inhabited

/-- The implementation parameters of R6 that are not settled by a number. They are fixed for a run and are no state of
the core (10_state.md R20). DESIGN CHOICE (log entry 5, safe): a state carries the parameters of its run, so that a
claim about every state is a claim for every value of every parameter. -/
structure Config where
  /-- `FONT_BASE`, open (D12) -/
  fontBase : Nat
  /-- the 80 font bytes (20_memory.md R72, R73: a configuration constant, so that another font can be substituted) -/
  font : Vector Byte 80
  /-- `STACK_DEPTH`, open (D9) -/
  stackDepth : Nat
  /-- `JUMP_OFFSET_BASE` (D8) -/
  jumpBase : JumpBase
  /-- `LOADSTORE_INCREMENTS_I`, open (D24) -/
  loadStoreIncrementsI : Bool
  /-- `DEBUG_STEP`, open (D33) -/
  debugStep : Bool
  /-- `CONTINUE_KEY`, open (D33) -/
  continueKey : Key
  deriving DecidableEq, Repr, Inhabited

/-- The bounds R6 puts on the parameters: `FONT_BASE + 80 <= LOAD_ADDR` = 0x200, and `STACK_DEPTH` in 12..16. -/
def Config.wf (c : Config) : Bool :=
  decide (c.fontBase + 80 ≤ 0x200) && decide (12 ≤ c.stackDepth) && decide (c.stackDepth ≤ 16)

/-- FREE VALUE. The n-th random byte beyond a state's script of random bytes: any u8, no law (45_random.md R240, D26).
No body, so nothing can be proved of it (log entry 2, safe). -/
opaque Config.freeRand : Nat → Byte

/-- FREE VALUE. The n-th key sample beyond a state's script of samples: any 16 Booleans (60_exceptions.md R343, D37).
No body, so nothing can be proved of it (log entry 2, safe). -/
opaque Config.freeKeys : Nat → BitVec 16

end Sys2Proof
end

