-- ==== Sys2Proof/Machine/Params.lean ====
section
/-! DEFINITION. The numbers the spec or this model gives the parameters: LOAD_ADDR, the font, the parameter values of the
state after reset, and what a byte of memory that nothing has written reads as. -/

namespace Sys2Proof.Machine

/-- `LOAD_ADDR` = 0x200 (00_scope.md R6, D11; the spec takes the value from general knowledge, log entry 10). -/
def loadAddr : Nat := 0x200

/-- The highest address of Memory (20_memory.md R60). -/
def lastAddr : Nat := 0xFFF

/-- The highest address an instruction word can start at (20_memory.md R70). -/
def lastFetch : Nat := 0xFFE

/-- The size of the font in bytes: 16 glyphs of 5 (20_memory.md R72). -/
def fontSize : Nat := 80

/-- Glyphs 0 to 7 of the font of 20_memory.md R73, five bytes a glyph. -/
def fontLow : Vector Byte 40 :=
  #v[0xF0, 0x90, 0x90, 0x90, 0xF0, 0x20, 0x60, 0x20, 0x20, 0x70,
     0xF0, 0x10, 0xF0, 0x80, 0xF0, 0xF0, 0x10, 0xF0, 0x10, 0xF0,
     0x90, 0x90, 0xF0, 0x10, 0x10, 0xF0, 0x80, 0xF0, 0x10, 0xF0,
     0xF0, 0x80, 0xF0, 0x90, 0xF0, 0xF0, 0x10, 0x20, 0x40, 0x40]

/-- Glyphs 8 to F of the font of 20_memory.md R73. -/
def fontHigh : Vector Byte 40 :=
  #v[0xF0, 0x90, 0xF0, 0x90, 0xF0, 0xF0, 0x90, 0xF0, 0x10, 0xF0,
     0xF0, 0x90, 0xF0, 0x90, 0x90, 0xE0, 0x90, 0xE0, 0x90, 0xE0,
     0xF0, 0x80, 0x80, 0x80, 0xF0, 0xE0, 0x90, 0x90, 0x90, 0xE0,
     0xF0, 0x80, 0xF0, 0x80, 0xF0, 0xF0, 0x80, 0xF0, 0x80, 0x80]

/-- The font of 20_memory.md R73 (the spec takes the bytes from general knowledge, log entry 11). -/
def classicFont : Vector Byte 80 := (fontLow ++ fontHigh : Vector Byte (40 + 40))

/-- The parameters of the state after reset. JUMP_OFFSET_BASE has the spec's default (D8); the others are open in the spec
and these values are this model's DESIGN CHOICE (log entry 5, unsafe for a claim about the reset state alone). -/
def defaultConfig : Config where
  fontBase := 0x050
  font := classicFont
  stackDepth := 16
  jumpBase := .index
  loadStoreIncrementsI := false
  debugStep := false
  continueKey := 0

/-- The byte at address `a` when it lies in the font region `FONT_BASE .. FONT_BASE + 79` (R72). -/
def fontByte? (c : Config) (a : Nat) : Option Byte :=
  if c.fontBase ≤ a then c.font[a - c.fontBase]? else none

/-- What an address that the memory list does not hold reads as: the font in its region (20_memory.md R72, R73), and 0
elsewhere. The spec leaves those other bytes open (D16); 0 is the value of its premise CleanReset, DESIGN CHOICE
(log entry 8, unsafe for a claim about the reset state alone). -/
def unlisted (c : Config) (a : Nat) : Byte :=
  match fontByte? c a with
  | some b => b
  | none => 0

end Sys2Proof.Machine
end

