-- ==== Sys2Proof/Machine/Memory.lean ====
section
/-! DEFINITION. Memory as a list of (address, byte) pairs in one canonical form: addresses strictly rising and at most
0xFFF (20_memory.md R60), and no entry equal to what an unlisted address reads as. `d` is that reading, `unlisted` of
Params.lean in every use. -/

namespace Sys2Proof.Machine.Memory

/-- The byte at an address. -/
def read (d : Nat → Byte) : List Host.Cell → Nat → Byte
  | [], a => d a
  | (b, w) :: m, a => if a = b then w else read d m a

/-- The memory after writing a byte, in canonical form again: a byte equal to what an unlisted address reads as is not
listed. -/
def write (d : Nat → Byte) : List Host.Cell → Nat → Byte → List Host.Cell
  | [], a, v => if v = d a then [] else [(a, v)]
  | (b, w) :: m, a, v =>
    if a < b then (if v = d a then (b, w) :: m else (a, v) :: (b, w) :: m)
    else if a = b then (if v = d a then m else (a, v) :: m)
    else (b, w) :: write d m a v

/-- Whether every address of a list is above `a`. -/
def above (a : Nat) : List Host.Cell → Bool
  | [] => true
  | (b, _) :: _ => decide (a < b)

/-- The canonical form. -/
def wf (d : Nat → Byte) : List Host.Cell → Bool
  | [] => true
  | (a, v) :: m => decide (a ≤ lastAddr) && decide (v ≠ d a) && above a m && wf d m

/-- The canonical memory that reads as `f` at each of the addresses listed (in rising order). -/
def listed (d f : Nat → Byte) : List Nat → List Host.Cell
  | [] => []
  | a :: as => if f a = d a then listed d f as else (a, f a) :: listed d f as

/-- The addresses of Memory in rising order (R60). (Irreducible: the elaborator must not spell out 4096 of them.) -/
@[irreducible] def addresses : List Nat := List.range (lastAddr + 1)

/-- The canonical memory that reads as `f` at every address of the address space. -/
def ofBytes (d f : Nat → Byte) : List Host.Cell := listed d f addresses

end Sys2Proof.Machine.Memory
end

