-- ==== Sys2Proof/Machine/State.lean ====
section
/-! DEFINITION. The state of the chipmunk CORE (10_state.md R20), its faults (60_exceptions.md R311), the transactions
of the Capability Port (60_exceptions.md R348), and the state after reset (10_state.md R42, 70_reset_and_hazards.md R371).
Plain data throughout. -/

namespace Sys2Proof.Machine

/-- The faults of 60_exceptions.md R311, codes 1 to 8, each with the info recorded; `at` is A, the address the faulting
instruction was fetched from. A fault is raised by `raise` of Ops.lean, which gives the halted state R312 describes; the
step of a run that a fault has ended answers `Outcome.fault` with it (log entry 4). Both are safe: after a fault the
machine goes nowhere (R312, R313). -/
inductive Fault where
  /-- code 1, raised by the cycle when the word decodes to nothing (R98, R110). Safe. -/
  | decodeError (word : Word) (at_ : Word)
  /-- code 2, raised by RET on an empty stack (R35, R151). Safe. -/
  | stackUnderflow (at_ : Word)
  /-- code 3, raised by CALL on a full stack (R34, R153, D10). Safe. -/
  | stackOverflow (at_ : Word)
  /-- code 4, raised by DRW, LD B, LD [I], Vx and LD Vx, [I] on an address above 0xFFF (R66, R67, D17). Safe. -/
  | memoryOutOfBounds (addr : Nat) (at_ : Word)
  /-- code 5, raised by the fetch when PC is above 0xFFE (R70, D18). Safe. -/
  | fetchOutOfBounds (pc : Word)
  /-- code 6, raised by LD B and LD [I], Vx on a store into the font region (R68, D23). Safe. -/
  | fontWrite (addr : Nat) (at_ : Word)
  /-- code 7, raised by LD F on a value above 0xF (R223, D21). Safe. -/
  | fontDigitOutOfRange (value : Byte) (at_ : Word)
  /-- code 8, raised by SKP and SKNP on a value above 0xF (R251, R252, D22). Safe. -/
  | keyIndexOutOfRange (value : Byte) (at_ : Word)
  deriving DecidableEq, Repr, Inhabited

/-- Why the model answers nothing. -/
inductive Refusal where
  /-- An instruction whose arm of `exec` has no meaning yet; no arm is left so. Safe. -/
  | notModelled (mnemonic : String)
  /-- code 32 of R311, raised by `construct` of Launch.lean (R319, R372): the image is too large and no run starts.
  No step raises it. Safe. -/
  | loadError (length : Nat)
  deriving DecidableEq, Repr, Inhabited

/-- The normal terminations of R311, codes 16 and 17. -/
inductive NormalEnd where
  /-- code 16: the host answered Quit to a wait (R253, R318, R338) -/
  | capabilityExit
  /-- code 17: the quit poll answered true (R332) -/
  | quitRequested
  deriving DecidableEq, Repr, Inhabited

/-- STATUS (10_state.md R39). -/
inductive Status where
  | running
  /-- suspended inside LD Vx, K (46_keys.md R253) -/
  | waitingKey (x : Reg)
  /-- Halted(Normal, reason) -/
  | haltedNormal (reason : NormalEnd)
  /-- Halted(Fault, fault, info) -/
  | haltedFault (f : Fault)
  deriving DecidableEq, Repr, Inhabited

/-- The frame buffer `FB[x][y]`, column x in 0..63 and row y in 0..31, true being lit (10_state.md R36). -/
abbrev FrameBuffer := Vector (Vector Bool 32) 64

/-- An answer of the host to `wait_for_key` (60_exceptions.md R345). -/
inductive KeyAnswer where
  | key (k : Key)
  | quit
  deriving DecidableEq, Repr, Inhabited

/-- A call the core makes on the Capability Port: the out events of 60_exceptions.md R348 (the `halt` port is STATUS). -/
inductive Event where
  /-- `key_wait_req`: the core entered WaitingKey(x) (R253) -/
  | keyWaitReq (x : Reg)
  /-- `render_req`, with the frame buffer (R333, R341) -/
  | render (fb : FrameBuffer)
  /-- `tone_start` (R336) -/
  | startTone
  /-- `tone_stop` (R312) -/
  | stopTone
  /-- `debug_regs` (R338) -/
  | printRegisters (v : Vector Byte 16) (i pc : Word) (dt st : Byte)
  deriving DecidableEq, Repr, Inhabited

/-- What the host will answer, the in ports of 60_exceptions.md R348. An input of the run and no state of the core
(R38, R240): the model's own field (log entry 1). Every finite run of every host is the run of some script. -/
structure HostScript where
  /-- the key samples `scan_inputs` will take, the next one first (R343); beyond them, free values -/
  samples : List (BitVec 16)
  /-- what the host has given, look by look of the core, in answer to a `wait_for_key` (R345), the next look first: `none`
  is no answer yet, so an answer comes after any delay; beyond the list the host never answers (R349; log entry 24) -/
  answers : List (Option KeyAnswer)
  /-- how many polls of `should_quit` will still answer false; `none`: all of them. Once true it stays true (R346). -/
  quitIn : Option Nat
  /-- the bytes `Rand()` will give, the next one first (R347); beyond them, free values -/
  rands : List Byte
  deriving DecidableEq, Repr, Inhabited

/-- The state. The first ten fields are the tuple of 10_state.md R20; the others are the model's own and are named in
INVENTORY.md. -/
structure State where
  /-- V0..VF (R21) -/
  v : Vector Byte 16
  /-- I (R28, R29) -/
  i : Word
  /-- PC (R24 to R27) -/
  pc : Word
  /-- DT (R30) -/
  dt : Byte
  /-- ST (R31) -/
  st : Byte
  /-- STACK, the last entry being the top (R32 to R35) -/
  stack : List Word
  /-- MEM in the canonical form of Memory.lean (20_memory.md R60) -/
  mem : List Host.Cell
  /-- FB (R36) -/
  fb : FrameBuffer
  /-- REDRAW (R37) -/
  redraw : Bool
  /-- STATUS (R39) -/
  status : Status
  /-- the key sample of the current iteration, bit k for key k (60_exceptions.md R343; log entry 16) -/
  keys : BitVec 16
  /-- the iteration stands in the debug hold (60_exceptions.md R338; log entry 16) -/
  hold : Bool
  /-- what the host will answer (log entry 1) -/
  host : HostScript
  /-- the calls made on the Capability Port so far, oldest first (log entry 15) -/
  out : List Event
  /-- the index of the next free value (log entry 2) -/
  draws : Nat
  /-- the parameters of the run, fixed (00_scope.md R6; log entry 5) -/
  cfg : Config
  deriving DecidableEq, Repr, Inhabited

/-- The blank frame buffer: every pixel unlit. -/
def blankScreen : FrameBuffer := Vector.replicate 64 (Vector.replicate 32 false)

/-- The state after construction without a program image: PC, STACK, STATUS and the font as 10_state.md R42 states;
the items it leaves unspecified as its premise CleanReset has them (log entries 6, 7 and 8, DESIGN CHOICE, unsafe for a
claim about this state alone); a host that takes no part (log entry 9). A program is loaded from outside
(70_reset_and_hazards.md R371; log entry 18). -/
def State.reset : State where
  v := Vector.replicate 16 0
  i := 0
  pc := BitVec.ofNat 16 loadAddr
  dt := 0
  st := 0
  stack := []
  mem := []
  fb := blankScreen
  redraw := false
  status := .running
  keys := 0
  hold := false
  host := { samples := [], answers := [], quitIn := none, rands := [] }
  out := []
  draws := 0
  cfg := defaultConfig

end Sys2Proof.Machine

namespace Sys2Proof

/-- FREE VALUE. What the core's state holds after fault `f` has ended the run in state `s`, apart from STATUS and the
fault record: unspecified (60_exceptions.md R312, D30). No body, so no claim can read it (log entry 3, safe). -/
opaque Config.afterFault (f : Machine.Fault) (s : Machine.State) : Machine.State

end Sys2Proof
end

