-- ==== Sys2Proof/Machine/Ops.lean ====
section
/-! DEFINITION. The named operations on the state (00_scope.md R8): one setter a field, the register file, the memory
interface, the return-address stack, the Capability Port's calls, and raising a fault, once for every instruction. -/

namespace Sys2Proof.Machine

/-- What a step or a meaning answers. -/
abbrev Outcome := Host.Outcome State Fault Refusal

/-! ## One setter a field -/

def State.setV (s : State) (v : Vector Byte 16) : State := { s with v := v }
def State.setI (s : State) (i : Word) : State := { s with i := i }
def State.setPc (s : State) (pc : Word) : State := { s with pc := pc }
def State.setDt (s : State) (dt : Byte) : State := { s with dt := dt }
def State.setSt (s : State) (st : Byte) : State := { s with st := st }
def State.setStack (s : State) (stack : List Word) : State := { s with stack := stack }
def State.setMem (s : State) (mem : List Host.Cell) : State := { s with mem := mem }
def State.setFb (s : State) (fb : FrameBuffer) : State := { s with fb := fb }
def State.setRedraw (s : State) (redraw : Bool) : State := { s with redraw := redraw }
def State.setStatus (s : State) (status : Status) : State := { s with status := status }
def State.setKeys (s : State) (keys : BitVec 16) : State := { s with keys := keys }
def State.setHold (s : State) (hold : Bool) : State := { s with hold := hold }
def State.setHost (s : State) (host : HostScript) : State := { s with host := host }
def State.setDraws (s : State) (draws : Nat) : State := { s with draws := draws }

/-- More calls on the Capability Port, in order (60_exceptions.md R348; log entry 15). -/
def State.emit (s : State) (es : List Event) : State := { s with out := s.out ++ es }

/-! ## The register file (10_state.md R21) -/

/-- `V[x]`. -/
def State.reg (s : State) (x : Reg) : Byte := s.v[x.val]

/-- `V[x] <- b`. Every register is writable; none is hard-wired (R21, R40). -/
def State.setReg (s : State) (x : Reg) (b : Byte) : State := s.setV (s.v.set x.val b)

/-! ## Memory (20_memory.md) -/

/-- `MEM[a]`, the byte at an address of Memory. -/
def State.byteAt (s : State) (a : Nat) : Byte := Memory.read (unlisted s.cfg) s.mem a

/-- `MEM[a] <- b`, with no check: what `memWrite` and the loader do. -/
def State.setByte (s : State) (a : Nat) (b : Byte) : State := s.setMem (Memory.write (unlisted s.cfg) s.mem a b)

/-- A, the address the executing instruction was fetched from: PC holds A + 2 while it executes (10_state.md R24). -/
def State.insnAddr (s : State) : Word := s.pc - 2

/-- Whether an address lies in the font region `FONT_BASE .. FONT_BASE + 79` (R61, R72). -/
def inFont (c : Config) (a : Nat) : Bool := decide (c.fontBase ≤ a) && decide (a < c.fontBase + fontSize)

/-- `MemRead(a, 1)` (R66); the address is an unbounded integer (48_memory_ops.md R290). -/
def memRead (s : State) (a : Nat) : Except Fault Byte :=
  if a > lastAddr then .error (.memoryOutOfBounds a s.insnAddr) else .ok (s.byteAt a)

/-- `MemWrite(a, 1, b)` (R67): the bounds check before the font check (R68, 60_exceptions.md R315). -/
def memWrite (s : State) (a : Nat) (b : Byte) : Except Fault State :=
  if a > lastAddr then .error (.memoryOutOfBounds a s.insnAddr)
  else if inFont s.cfg a then .error (.fontWrite a s.insnAddr)
  else .ok (s.setByte a b)

/-- The memory writes of one instruction in order, each a byte at an address: the first that faults ends them
(60_exceptions.md R315). -/
def memWriteAll (s : State) : List (Nat × Byte) → Except Fault State
  | [] => .ok s
  | (a, b) :: rest =>
    match memWrite s a b with
    | .ok t => memWriteAll t rest
    | .error f => .error f

/-- The instruction fetch (R69, R70): two bytes at PC and PC + 1, big-endian, at any parity (R65). -/
def fetch (s : State) : Except Fault (Byte × Byte) :=
  if s.pc.toNat > lastFetch then .error (.fetchOutOfBounds s.pc)
  else .ok (s.byteAt s.pc.toNat, s.byteAt (s.pc.toNat + 1))

/-! ## The return-address stack (10_state.md R32 to R35) -/

/-- `Push(w)` (R34). The info recorded is A (60_exceptions.md R311; log entry 14). -/
def push (s : State) (w : Word) : Except Fault State :=
  if s.stack.length = s.cfg.stackDepth then .error (.stackOverflow s.insnAddr)
  else .ok (s.setStack (s.stack ++ [w]))

/-- `Pop()` (R35): the last entry, and the state without it. The info recorded is A (R311; log entry 14). -/
def pop (s : State) : Except Fault (Word × State) :=
  match s.stack.getLast? with
  | none => .error (.stackUnderflow s.insnAddr)
  | some w => .ok (w, s.setStack s.stack.dropLast)

/-! ## The in ports of the Capability Port (60_exceptions.md R343 to R348) -/

/-- `scan_inputs()` (R343): the sample of this iteration. Beyond the host's script it is a free value (log entry 2). -/
def scanInputs (s : State) : State :=
  match s.host.samples with
  | k :: rest => (s.setKeys k).setHost { s.host with samples := rest }
  | [] => (s.setKeys (Config.freeKeys s.draws)).setDraws (s.draws + 1)

/-- `is_key_down(k)` (R344): answered from the sample of this iteration. -/
def isKeyDown (s : State) (k : Nat) : Bool := s.keys.getLsbD k

/-- The byte `Rand()` gives (R347). Beyond the host's script it is a free value (log entry 2). -/
def randByte (s : State) : Byte :=
  match s.host.rands with
  | r :: _ => r
  | [] => Config.freeRand s.draws

/-- The state after a draw of `Rand()`: one draw per RND (45_random.md R240). -/
def afterRand (s : State) : State :=
  match s.host.rands with
  | _ :: rest => s.setHost { s.host with rands := rest }
  | [] => s.setDraws (s.draws + 1)

/-- What `should_quit()` answers (R346). -/
def quitAnswer (s : State) : Bool := s.host.quitIn == some 0

/-- The state after a poll of `should_quit()`: once true, it stays true (R346). -/
def afterQuitPoll (s : State) : State := s.setHost { s.host with quitIn := s.host.quitIn.map (· - 1) }

/-- What one look for the host's answer to `wait_for_key()` finds (R345): `none` is no answer yet, and beyond the script
there is never one (R349; log entry 24). -/
def hostAnswer (s : State) : Option KeyAnswer :=
  match s.host.answers with
  | a :: _ => a
  | [] => none

/-- The state after one look for the host's answer to `wait_for_key()` (R345): the script is one look shorter. -/
def dropAnswer (s : State) : State := s.setHost { s.host with answers := s.host.answers.tail }

/-- The `halt` port (R348): the STATUS, when the run is over. -/
def State.haltPort (s : State) : Option Status :=
  match s.status with
  | .running => none
  | .waitingKey _ => none
  | .haltedNormal r => some (.haltedNormal r)
  | .haltedFault f => some (.haltedFault f)

/-! ## Faults (60_exceptions.md R310 to R315) -/

/-- The code R311 assigns to a fault (D46). -/
def Fault.code : Fault → Nat
  | .decodeError _ _ => 1
  | .stackUnderflow _ => 2
  | .stackOverflow _ => 3
  | .memoryOutOfBounds _ _ => 4
  | .fetchOutOfBounds _ => 5
  | .fontWrite _ _ => 6
  | .fontDigitOutOfRange _ _ => 7
  | .keyIndexOutOfRange _ _ => 8

/-- The code R311 assigns to a normal termination (D46). -/
def NormalEnd.code : NormalEnd → Nat
  | .capabilityExit => 16
  | .quitRequested => 17

/-- The code R311 assigns to a load error (D46). -/
def loadErrorCode : Nat := 32

/-- The state a fault leaves (R312): STATUS is Halted(Fault, f), and `stop_tone()` has been called. Everything else of
the core's state is unspecified, so it is the free value `Config.afterFault f s` (log entry 3), brought into the form every
state has: a stack within its capacity (R32) and a memory in canonical form. The host's script, the calls already made and
the parameters are no state of the core, and stay. -/
def faulted (f : Fault) (s : State) : State where
  v := (Config.afterFault f s).v
  i := (Config.afterFault f s).i
  pc := (Config.afterFault f s).pc
  dt := (Config.afterFault f s).dt
  st := (Config.afterFault f s).st
  stack := (Config.afterFault f s).stack.take s.cfg.stackDepth
  mem := Memory.ofBytes (unlisted s.cfg) (Config.afterFault f s).byteAt
  fb := (Config.afterFault f s).fb
  redraw := (Config.afterFault f s).redraw
  status := .haltedFault f
  keys := s.keys
  hold := false
  host := s.host
  out := s.out ++ [.stopTone]
  draws := s.draws
  cfg := s.cfg

/-- `raise F(info)` (R312), the one way a fault is taken: no vector, no handler, nothing saved, and no return from it
(R310, R313, R314). Nothing after it in the instruction, the cycle or the iteration executes. -/
def raise (f : Fault) (s : State) : Outcome := .next (faulted f s)

/-- The outcome of an instruction whose effect on `s` is `r`: the state it computed, or the fault it raised. -/
def conclude (s : State) (r : Except Fault State) : Outcome :=
  match r with
  | .ok t => .next t
  | .error f => raise f s

end Sys2Proof.Machine
end

