-- ==== Sys2Proof/Machine/Flags.lean ====
section
/-! DEFINITION. The values VF takes (10_state.md R22), and the two write orders of 43_alu.md R197. -/

namespace Sys2Proof.Machine

/-- A flag as the byte VF holds: 1 or 0. -/
def flagByte (b : Bool) : Byte := if b then 1 else 0

/-- The carry out of bit 7 of a + b (43_alu.md R198). -/
def carryOut (a b : Byte) : Bool := decide (a.toNat + b.toNat > 255)

/-- No borrow in a - b: true when a >= b (R199, R201). -/
def noBorrow (a b : Byte) : Bool := decide (b.toNat ≤ a.toNat)

/-- The bit a right shift by one shifts out (R200). -/
def shiftedOutRight (a : Byte) : Bool := a.getLsbD 0

/-- The bit a left shift by one shifts out (R202). -/
def shiftedOutLeft (a : Byte) : Bool := a.getLsbD 7

/-- ADD, SUB and SUBN: the result to Vx first, the flag to VF second, so that VF ends as the flag (R197). -/
def setResultThenFlag (s : State) (x : Reg) (r : Byte) (flag : Bool) : State :=
  (s.setReg x r).setReg flagReg (flagByte flag)

/-- SHR and SHL: the flag to VF first, the result to Vx second, so that VF ends as the result when x = 0xF (R197). -/
def setFlagThenResult (s : State) (x : Reg) (r : Byte) (flag : Bool) : State :=
  (s.setReg flagReg (flagByte flag)).setReg x r

end Sys2Proof.Machine
end

