-- ==== Sys2Proof/Machine/Operands.lean ====
section
/-! DEFINITION. The operand forms of the instruction set: a register, an immediate byte, an absolute address, a byte of
memory at I + k, a run of registers V0..Vx, the base of the indexed jump, the address of a glyph, decimal digits. -/

namespace Sys2Proof.Machine

/-- The effective address `I + k` of the k-th byte of an instruction, an unbounded integer (48_memory_ops.md R290). -/
def effAddr (s : State) (k : Nat) : Nat := s.i.toNat + k

/-- The sixteen registers in rising order. -/
def allRegs : List Reg := [0, 1, 2, 3, 4, 5, 6, 7, 8, 9, 10, 11, 12, 13, 14, 15]

/-- V0..Vx, inclusive, in rising order (R294, R296). -/
def regsUpTo (x : Reg) : List Reg := allRegs.take (x.val + 1)

/-- I after a block store or load (R294, R296): moved past the registers when the parameter LOADSTORE_INCREMENTS_I is
true, else as it was (D24). -/
def afterBlock (x : Reg) (s : State) : State :=
  match s.cfg.loadStoreIncrementsI with
  | true => s.setI (s.i + BitVec.ofNat 16 (x.val + 1))
  | false => s

/-- The base of JP V0, nnn (41_flow.md R154). -/
def jumpOffsetBase (s : State) (nnn : Addr12) : Word :=
  match s.cfg.jumpBase with
  | .index => s.i
  | .immediate => zext12 nnn

/-- The address of the glyph of digit `d` (20_memory.md R72, 44_index.md R223). -/
def glyphAddr (c : Config) (d : Byte) : Word := BitVec.ofNat 16 (c.fontBase + 5 * d.toNat)

/-- The hundreds digit of a byte (48_memory_ops.md R292). -/
def hundreds (b : Byte) : Byte := b / 100

/-- The tens digit of a byte (R292). -/
def tens (b : Byte) : Byte := b / 10 % 10

/-- The units digit of a byte (R292). -/
def units (b : Byte) : Byte := b % 10

/-- Whether a register's value names one of 16 things, a key or a digit (46_keys.md R250, 44_index.md R223). -/
def isHexDigit (b : Byte) : Bool := decide (b.toNat ≤ 0xF)

/-- The skip law (42_skip.md R170): one more instruction width when the condition holds. -/
def skipIf (c : Bool) (s : State) : State := s.setPc (if c then s.pc + 2 else s.pc)

end Sys2Proof.Machine
end

