-- ==== Sys2Proof/Machine/Alu.lean ====
section
/-! DEFINITION. Register arithmetic and logic (43_alu.md R190 to R202). Every operand is read from the state before the
instruction (R190). -/

namespace Sys2Proof.Machine

/-- LD Vx, kk (R191). -/
def execLdImm (x : Reg) (nn : Byte) (s : State) : Outcome := .next (s.setReg x nn)

/-- ADD Vx, kk (R192): no flag. -/
def execAddImm (x : Reg) (nn : Byte) (s : State) : Outcome := .next (s.setReg x (s.reg x + nn))

/-- LD Vx, Vy (R193). -/
def execLdReg (x y : Reg) (s : State) : Outcome := .next (s.setReg x (s.reg y))

/-- OR Vx, Vy (R194): VF is not reset (D27). -/
def execOrReg (x y : Reg) (s : State) : Outcome := .next (s.setReg x (s.reg x ||| s.reg y))

/-- AND Vx, Vy (R195): VF is not reset (D27). -/
def execAndReg (x y : Reg) (s : State) : Outcome := .next (s.setReg x (s.reg x &&& s.reg y))

/-- XOR Vx, Vy (R196): VF is not reset (D27). -/
def execXorReg (x y : Reg) (s : State) : Outcome := .next (s.setReg x (s.reg x ^^^ s.reg y))

/-- ADD Vx, Vy (R198). -/
def execAddReg (x y : Reg) (s : State) : Outcome :=
  .next (setResultThenFlag s x (s.reg x + s.reg y) (carryOut (s.reg x) (s.reg y)))

/-- SUB Vx, Vy (R199). -/
def execSubReg (x y : Reg) (s : State) : Outcome :=
  .next (setResultThenFlag s x (s.reg x - s.reg y) (noBorrow (s.reg x) (s.reg y)))

/-- SHR Vx (R200): the field y is not read (D7). -/
def execShr (x _y : Reg) (s : State) : Outcome :=
  .next (setFlagThenResult s x (s.reg x >>> 1) (shiftedOutRight (s.reg x)))

/-- SUBN Vx, Vy (R201). -/
def execSubnReg (x y : Reg) (s : State) : Outcome :=
  .next (setResultThenFlag s x (s.reg y - s.reg x) (noBorrow (s.reg y) (s.reg x)))

/-- SHL Vx (R202): the field y is not read (D7). -/
def execShl (x _y : Reg) (s : State) : Outcome :=
  .next (setFlagThenResult s x (s.reg x <<< 1) (shiftedOutLeft (s.reg x)))

end Sys2Proof.Machine
end

