-- ==== Sys2Proof/Machine/Flow.lean ====
section
/-! DEFINITION. Control transfer (41_flow.md R150 to R154). A target is an absolute byte address, checked at the next
fetch and not before (R150). -/

namespace Sys2Proof.Machine

/-- RET (R151). -/
def execRet (s : State) : Outcome :=
  match pop s with
  | .ok (target, t) => .next (t.setPc target)
  | .error f => raise f s

/-- JP nnn (R152). -/
def execJp (nnn : Addr12) (s : State) : Outcome := .next (s.setPc (zext12 nnn))

/-- CALL nnn (R153): PC, already the address of the instruction after the call, is pushed. -/
def execCall (nnn : Addr12) (s : State) : Outcome :=
  match push s s.pc with
  | .ok t => .next (t.setPc (zext12 nnn))
  | .error f => raise f s

/-- JP V0, nnn (R154): base plus V0, modulo 2^16. -/
def execJpV0 (nnn : Addr12) (s : State) : Outcome := .next (s.setPc (jumpOffsetBase s nnn + zext8 (s.reg 0)))

end Sys2Proof.Machine
end

