-- ==== Sys2Proof/Machine/Index.lean ====
section
/-! DEFINITION. The index-register instructions (44_index.md R220 to R223). None reads memory and none writes VF. -/

namespace Sys2Proof.Machine

/-- LD I, nnn (R221). -/
def execLdI (nnn : Addr12) (s : State) : Outcome := .next (s.setI (zext12 nnn))

/-- ADD I, Vx (R222): modulo 2^16, not masked to 12 bits (D20). -/
def execAddI (x : Reg) (s : State) : Outcome := .next (s.setI (s.i + zext8 (s.reg x)))

/-- LD F, Vx (R223). -/
def execLdF (x : Reg) (s : State) : Outcome :=
  match isHexDigit (s.reg x) with
  | true => .next (s.setI (glyphAddr s.cfg (s.reg x)))
  | false => raise (.fontDigitOutOfRange (s.reg x) s.insnAddr) s

end Sys2Proof.Machine
end

