-- ==== Sys2Proof/Machine/Keys.lean ====
section
/-! DEFINITION. The key instructions (46_keys.md R250 to R253). -/

namespace Sys2Proof.Machine

/-- SKP Vx (R251). -/
def execSkp (x : Reg) (s : State) : Outcome :=
  match isHexDigit (s.reg x) with
  | true => .next (skipIf (isKeyDown s (s.reg x).toNat) s)
  | false => raise (.keyIndexOutOfRange (s.reg x) s.insnAddr) s

/-- SKNP Vx (R252). -/
def execSknp (x : Reg) (s : State) : Outcome :=
  match isHexDigit (s.reg x) with
  | true => .next (skipIf (!isKeyDown s (s.reg x).toNat) s)
  | false => raise (.keyIndexOutOfRange (s.reg x) s.insnAddr) s

/-- The key wait of LD Vx, K (R253), in a state with STATUS = WaitingKey(x): one look for the host's answer. With none
yet the core stays suspended, for as many looks as the host takes (R349);
Quit ends the run and Vx is not written (R318, D36); a key is written to Vx and the core runs on. -/
def awaitKey (x : Reg) (s : State) : State :=
  match hostAnswer s with
  | none => dropAnswer s
  | some .quit => (dropAnswer s).setStatus (.haltedNormal .capabilityExit)
  | some (.key k) => ((dropAnswer s).setReg x (BitVec.ofNat 8 k.val)).setStatus .running

/-- LD Vx, K (R253): the core enters the wait and looks for the host's answer
once; with none yet the core is left in WaitingKey(x), and later steps look again (R349; log entry 17). -/
def execLdVxK (x : Reg) (s : State) : Outcome := .next (awaitKey x ((s.setStatus (.waitingKey x)).emit [.keyWaitReq x]))

end Sys2Proof.Machine
end

