-- ==== Sys2Proof/Machine/MemoryOps.lean ====
section
/-! DEFINITION. The BCD store and the block register store and load (48_memory_ops.md R290 to R296). -/

namespace Sys2Proof.Machine

/-- The bytes LD B, Vx stores, with their addresses, most significant digit first (R292). -/
def bcdStores (x : Reg) (s : State) : List (Nat × Byte) :=
  [(effAddr s 0, hundreds (s.reg x)), (effAddr s 1, tens (s.reg x)), (effAddr s 2, units (s.reg x))]

/-- LD B, Vx (R292): I is not changed (D24). -/
def execLdB (x : Reg) (s : State) : Outcome := conclude s (memWriteAll s (bcdStores x s))

/-- The bytes LD [I], Vx stores, with their addresses (R294). -/
def blockStores (x : Reg) (s : State) : List (Nat × Byte) := (regsUpTo x).map (fun r => (effAddr s r.val, s.reg r))

/-- LD [I], Vx (R294). -/
def execStoreRegs (x : Reg) (s : State) : Outcome :=
  match memWriteAll s (blockStores x s) with
  | .ok t => .next (afterBlock x t)
  | .error f => raise f s

/-- The loads of LD Vx, [I] in rising order (R296). -/
def loadEach (s : State) : List Reg → Except Fault State
  | [] => .ok s
  | r :: rs =>
    match memRead s (effAddr s r.val) with
    | .ok b => loadEach (s.setReg r b) rs
    | .error f => .error f

/-- LD Vx, [I] (R296). -/
def execLoadRegs (x : Reg) (s : State) : Outcome :=
  match loadEach s (regsUpTo x) with
  | .ok t => .next (afterBlock x t)
  | .error f => raise f s

end Sys2Proof.Machine
end

