-- ==== Sys2Proof/Machine/Random.lean ====
section
/-! DEFINITION. The random byte (45_random.md R240, R241). -/

namespace Sys2Proof.Machine

/-- RND Vx, kk (R241): one draw of `Rand()`, masked. -/
def execRnd (x : Reg) (nn : Byte) (s : State) : Outcome := .next ((afterRand s).setReg x (randByte s &&& nn))

end Sys2Proof.Machine
end

