-- ==== Sys2Proof/Machine/Screen.lean ====
section
/-! DEFINITION. The screen instructions, the only writers of FB and REDRAW (40_screen.md R130 to R136). -/

namespace Sys2Proof.Machine

/-- `FB[x][y]` (10_state.md R36). -/
def pixel (fb : FrameBuffer) (x : Fin 64) (y : Fin 32) : Bool := (fb[x.val])[y.val]

/-- `FB[x][y] <- b` (10_state.md R36). -/
def setPixel (fb : FrameBuffer) (x : Fin 64) (y : Fin 32) (b : Bool) : FrameBuffer :=
  fb.set x.val ((fb[x.val]).set y.val b)

/-- The column of sprite column `c` drawn from `xs`: wrap-around is per pixel (R132, R133). -/
def spriteColumn (xs : Byte) (c : Nat) : Fin 64 := Fin.ofNat 64 (xs.toNat + c)

/-- The row of sprite row `r` drawn from `ys` (R132, R133). -/
def spriteRow (ys : Byte) (r : Nat) : Fin 32 := Fin.ofNat 32 (ys.toNat + r)

/-- One bit of a sprite (R132): a 1 bit toggles its pixel, and collides when the pixel was lit. Bit 7 is the leftmost
column (D25). -/
def drawBit (xs ys : Byte) (r : Nat) (row : Byte) (p : FrameBuffer × Bool) (c : Nat) : FrameBuffer × Bool :=
  if row.getLsbD (7 - c) then
    (setPixel p.1 (spriteColumn xs c) (spriteRow ys r) (!pixel p.1 (spriteColumn xs c) (spriteRow ys r)),
      p.2 || pixel p.1 (spriteColumn xs c) (spriteRow ys r))
  else p

/-- One row of a sprite, columns left to right (R132). -/
def drawRow (xs ys : Byte) (r : Nat) (row : Byte) (p : FrameBuffer × Bool) : FrameBuffer × Bool :=
  (List.range 8).foldl (drawBit xs ys r row) p

/-- The rows of a sprite, each read from memory at I + r (R132): the frame buffer after, and whether a lit pixel was
unlit. -/
def drawRows (s : State) (xs ys : Byte) : List Nat → FrameBuffer × Bool → Except Fault (FrameBuffer × Bool)
  | [], p => .ok p
  | r :: rs, p =>
    match memRead s (effAddr s r) with
    | .ok row => drawRows s xs ys rs (drawRow xs ys r row p)
    | .error f => .error f

/-- CLS (R131): every pixel unlit, REDRAW set. -/
def execCls (s : State) : Outcome := .next ((s.setFb blankScreen).setRedraw true)

/-- DRW Vx, Vy, n (R132): both coordinates are read before VF is cleared, and VF ends as the collision (R135). -/
def execDrw (x y : Reg) (n : Nat) (s : State) : Outcome :=
  match drawRows (s.setReg flagReg 0) (s.reg x) (s.reg y) (List.range n) (s.fb, false) with
  | .ok (fb, collided) =>
    .next ((((s.setReg flagReg 0).setFb fb).setReg flagReg (flagByte collided)).setRedraw true)
  | .error f => raise f s

end Sys2Proof.Machine
end

