-- ==== Sys2Proof/Machine/Skip.lean ====
section
/-! DEFINITION. The skip-next-instruction conditionals (42_skip.md R170 to R174). -/

namespace Sys2Proof.Machine

/-- SE Vx, kk (R171). -/
def execSeImm (x : Reg) (nn : Byte) (s : State) : Outcome := .next (skipIf (s.reg x == nn) s)

/-- SNE Vx, kk (R172). -/
def execSneImm (x : Reg) (nn : Byte) (s : State) : Outcome := .next (skipIf (s.reg x != nn) s)

/-- SE Vx, Vy (R173). -/
def execSeReg (x y : Reg) (s : State) : Outcome := .next (skipIf (s.reg x == s.reg y) s)

/-- SNE Vx, Vy (R174). -/
def execSneReg (x y : Reg) (s : State) : Outcome := .next (skipIf (s.reg x != s.reg y) s)

end Sys2Proof.Machine
end

