-- ==== Sys2Proof/Machine/Timers.lean ====
section
/-! DEFINITION. The timer instructions (47_timers.md R270 to R273) and the countdown (60_exceptions.md R335, R336). -/

namespace Sys2Proof.Machine

/-- LD Vx, DT (R271). -/
def execLdVxDt (x : Reg) (s : State) : Outcome := .next (s.setReg x s.dt)

/-- LD DT, Vx (R272). -/
def execLdDtVx (x : Reg) (s : State) : Outcome := .next (s.setDt (s.reg x))

/-- LD ST, Vx (R273). -/
def execLdStVx (x : Reg) (s : State) : Outcome := .next (s.setSt (s.reg x))

/-- A timer one lower, and at 0 still 0 (R335). -/
def countOne (b : Byte) : Byte := if b = 0 then 0 else b - 1

/-- The calls of a countdown: `start_tone()` exactly when ST goes from 1 to 0 (R336). -/
def toneCalls (s : State) : List Event := if s.st = 1 then [.startTone] else []

/-- The countdown, once per completed iteration: sound first, then delay (R335). -/
def countdown (s : State) : State := ((s.emit (toneCalls s)).setSt (countOne s.st)).setDt (countOne s.dt)

end Sys2Proof.Machine
end

