-- ==== Sys2Proof/Machine/RunLoop.lean ====
section
/-! DEFINITION. The cycle (30_encoding.md R110) and one iteration of the run loop (60_exceptions.md R330 to R339), with the
two places where an iteration is suspended until the host answers: the key wait and the debug hold. -/

namespace Sys2Proof.Machine

/-- The state in which an instruction executes: PC has been advanced by the instruction width (R110). -/
def advancePc (s : State) : State := s.setPc (s.pc + 2)

/-- One cycle (R110): fetch, advance PC, decode, execute. -/
def cycle (s : State) : Outcome :=
  match fetch s with
  | .error f => raise f s
  | .ok (hi, lo) =>
    match decodeBytes [hi, lo] with
    | .error _ => raise (.decodeError (wordOfBytes hi lo) s.pc) (advancePc s)
    | .ok (i, _) => exec i (advancePc s)

/-- The render call of an iteration: one, with the frame buffer as it stands, exactly when REDRAW is set (R333). -/
def renderCalls (s : State) : List Event := if s.redraw then [.render s.fb] else []

/-- Render, and REDRAW cleared (R333). -/
def renderPending (s : State) : State := (s.emit (renderCalls s)).setRedraw false

/-- The end of an iteration after its cycle and hold (R330): the quit poll, which ends the run at once (R332), then the
render, then the countdown. The pacing delay changes nothing (R339; log entry 21). -/
def finishIteration (s : State) : State :=
  match quitAnswer s with
  | true => (afterQuitPoll s).setStatus (.haltedNormal .quitRequested)
  | false => countdown (renderPending (afterQuitPoll s))

/-- What follows a cycle or a key wait. An iteration that still runs enters the debug hold when DEBUG_STEP is set (R330,
R338), else it is finished; one that is suspended or over stays as it is. -/
def afterCycle (s : State) : State :=
  match s.status, s.cfg.debugStep with
  | .running, true => s.setHold true
  | .running, false => finishIteration s
  | .waitingKey _, _ => s
  | .haltedNormal _, _ => s
  | .haltedFault _, _ => s

/-- The debug hold (R338), one look for the host's answer a step (log entry 17): Quit ends the run; CONTINUE_KEY prints the
registers and lets the iteration go on; any other key is waited past; with no answer the hold goes on. -/
def debugHold (s : State) : State :=
  match hostAnswer s with
  | none => dropAnswer s
  | some .quit => ((dropAnswer s).setHold false).setStatus (.haltedNormal .capabilityExit)
  | some (.key k) =>
    if k = s.cfg.continueKey then
      finishIteration (((dropAnswer s).setHold false).emit [.printRegisters s.v s.i s.pc s.dt s.st])
    else dropAnswer s

/-- An outcome with its next state changed by `g`. -/
def thenDo (o : Outcome) (g : State → State) : Outcome :=
  match o with
  | .next t => .next (g t)
  | .fault f => .fault f
  | .refused r => .refused r

/-- One iteration of the run loop from its start (R330): input scan, cycle, and what follows it. -/
def iteration (s : State) : Outcome := thenDo (cycle (scanInputs s)) afterCycle

/-- One step. A running core does one iteration; a core that the key wait or the debug hold has suspended looks for the
host's answer (R253, R338); a run that has ended stays as it is, and one that a fault ended answers that fault (R312,
R331; log entry 4). -/
def runStep (s : State) : Outcome :=
  match s.status, s.hold with
  | .running, true => .next (debugHold s)
  | .running, false => iteration s
  | .waitingKey x, _ => .next (afterCycle (awaitKey x s))
  | .haltedNormal _, _ => .next s
  | .haltedFault f, _ => .fault f

/-- Where the next instruction is fetched: PC, or LOAD_ADDR when PC is past the last instruction word. -/
def nextFetch (s : State) : Nat := if s.pc.toNat > lastFetch then loadAddr else s.pc.toNat

/-- `s` with an instruction word stored where the next step fetches, and running, so that the next step runs it. It is the
loader's write (70_reset_and_hazards.md R371; log entry 18), not an instruction's, so the font check does not apply. -/
def placeWord (s : State) (w : Word) : State :=
  (((((s.setPc (BitVec.ofNat 16 (nextFetch s))).setStatus .running).setHold false).setByte (nextFetch s)
    (highByte w)).setByte (nextFetch s + 1) (lowByte w))

end Sys2Proof.Machine
end

