-- ==== Sys2Proof/Machine/Launch.lean ====
section
/-! DEFINITION. Construction from a program image (70_reset_and_hazards.md R370 to R372), with the launch values of
10_state.md R42. -/

namespace Sys2Proof.Machine

/-- The launch values R42 leaves unspecified (D14, D15, D16): arguments of the construction, any values. -/
structure Launch where
  v : Vector Byte 16
  i : Word
  dt : Byte
  st : Byte
  fb : FrameBuffer
  redraw : Bool
  /-- `MEM_init`: the bytes outside the font and the image -/
  memInit : Nat → Byte

/-- The premise `CleanReset` of R42. -/
def Launch.clean : Launch where
  v := Vector.replicate 16 0
  i := 0
  dt := 0
  st := 0
  fb := blankScreen
  redraw := false
  memInit := fun _ => 0

/-- The longest image, 4096 - LOAD_ADDR = 3584 bytes (R372). -/
def maxImage : Nat := lastAddr + 1 - loadAddr

/-- The byte R371 puts at an address: first the font, then the image, else the launch value. The parameters keep the font
below LOAD_ADDR (00_scope.md R6), so the two never overlap. -/
def launchByte (c : Config) (p : Launch) (img : List Byte) (a : Nat) : Byte :=
  match fontByte? c a with
  | some b => b
  | none => if loadAddr ≤ a then img[a - loadAddr]?.getD (p.memInit a) else p.memInit a

/-- The reset sequence (R371) for parameters `c`, launch values `p`, a host and a program image: LoadError when the image
is too long (R319, R372), else the state at the start of the run. An image of odd or zero length is accepted (D35). -/
def construct (c : Config) (p : Launch) (host : HostScript) (img : List Byte) : Outcome :=
  if img.length > maxImage then .refused (.loadError img.length)
  else .next
    { v := p.v, i := p.i, pc := BitVec.ofNat 16 loadAddr, dt := p.dt, st := p.st, stack := [],
      mem := Memory.ofBytes (unlisted c) (launchByte c p img), fb := p.fb, redraw := p.redraw, status := .running,
      keys := 0, hold := false, host := host, out := [], draws := 0, cfg := c }

end Sys2Proof.Machine
end

