-- ==== Sys2Proof/Machine/Step.lean ====
section
/-! DEFINITION. The step function: one iteration of the run loop, or one look at a suspended one (RunLoop.lean). -/

namespace Sys2Proof.Machine

/-- One step of the machine (60_exceptions.md R330). -/
def step (s : State) : Host.Outcome State Fault Refusal := runStep s

/-- `s` with the instruction whose bits are `w` (as spec/opcode_table.json numbers them) where the next step fetches. -/
def State.withFetchWord (s : State) (nbits w : Nat) : State := placeWord s (tableWord nbits w)

end Sys2Proof.Machine
end

