-- ==== Sys2Proof/Safety.lean ====
section
/-! DEFINITION. What claims are stated in: runs and how they end (60_exceptions.md R331), the invariant of the machine,
what an instruction may change (frames), and the spec's tables of which instruction writes what. -/

namespace Sys2Proof.Machine

/-! ## Runs -/

/-- A fault has ended the run: never a successful end (R39, R331). -/
def State.isFaulted (s : State) : Bool :=
  match s.status with
  | .haltedFault _ => true
  | .haltedNormal _ => false
  | .waitingKey _ => false
  | .running => false

/-- The run is over, by a fault or by a quit (R331). -/
def State.isOver (s : State) : Bool := s.haltPort.isSome

/-- The state at which an iteration of the run loop begins (R330): running, and not inside the debug hold. -/
def State.atIteration (s : State) : Prop := s.status = .running ∧ s.hold = false

/-- `t` is reached from `s` by steps. -/
inductive Reaches (s : State) : State → Prop where
  | refl : Reaches s s
  | tail {t u : State} : Reaches s t → step t = .next u → Reaches s u

/-- The outcome is the halted state of fault `f` (R312): STATUS names the fault and its info, and `stop_tone()` was called.
Nothing else of the core's state is said: it is unspecified. -/
def FaultsWith (o : Outcome) (s : State) (f : Fault) : Prop :=
  ∃ t, o = .next t ∧ t.status = .haltedFault f ∧ t.out = s.out ++ [.stopTone]

/-- The encoding an instruction's rule gives it (30_encoding.md R95): the word of value `w` is read as the instruction by
the decoder, and is the word the encoder gives it. -/
def EncodedAs (i : Instr) (w : Nat) : Prop := ∀ v : Word, v.toNat = w → decode v = .ok i ∧ encode i = v

/-- The word at PC, the two bytes the fetch reads (20_memory.md R69). -/
def wordAtPc (s : State) : Word := wordOfBytes (s.byteAt s.pc.toNat) (s.byteAt (s.pc.toNat + 1))

/-! ## The invariant -/

/-- The font region holds the font (20_memory.md R73, 10_state.md R41). -/
def FontIntact (s : State) : Prop := ∀ k : Fin 80, s.byteAt (s.cfg.fontBase + k.val) = s.cfg.font[k.val]

/-- What holds in every state of a run: the parameters are within their bounds (R6), Memory is in canonical form, the
stack is within its capacity (R32), a run that no fault has ended has its font intact (R41), and only a running core
stands in the debug hold (R338). -/
structure Inv (s : State) : Prop where
  params : s.cfg.wf = true
  memory : Memory.wf (unlisted s.cfg) s.mem = true
  stack : s.stack.length ≤ s.cfg.stackDepth
  font : s.isFaulted = false → FontIntact s
  hold : s.hold = true → s.status = .running

/-! ## Frames -/

/-- The parts of the state other than registers and memory. -/
inductive Part where
  | pc | i | dt | st | stack | fb | redraw | status | host | out
  deriving DecidableEq, Repr, Inhabited

/-- `t` differs from `s` at most in the parts, the registers and the bytes of memory named. `host` is the model's record of
the host's answers (host, draws); the key sample, the hold and the parameters are never among them. -/
structure FrameExcept (parts : List Part) (regs : List Reg) (bytes : List Nat) (s t : State) : Prop where
  regs : ∀ r, r ∉ regs → t.reg r = s.reg r
  bytes : ∀ a, a ∉ bytes → t.byteAt a = s.byteAt a
  pc : .pc ∉ parts → t.pc = s.pc
  i : .i ∉ parts → t.i = s.i
  dt : .dt ∉ parts → t.dt = s.dt
  st : .st ∉ parts → t.st = s.st
  stack : .stack ∉ parts → t.stack = s.stack
  fb : .fb ∉ parts → ∀ x y, pixel t.fb x y = pixel s.fb x y
  redraw : .redraw ∉ parts → t.redraw = s.redraw
  status : .status ∉ parts → t.status = s.status
  host : .host ∉ parts → t.host = s.host ∧ t.draws = s.draws
  out : .out ∉ parts → t.out = s.out
  fixed : t.keys = s.keys ∧ t.hold = s.hold ∧ t.cfg = s.cfg

/-! ## The spec's tables -/

/-- The registers an instruction names as its destination (40_screen.md to 48_memory_ops.md). -/
def namedDest : Instr → List Reg
  | .ldImm x _ | .addImm x _ | .ldReg x _ | .orReg x _ | .andReg x _ | .xorReg x _ | .addReg x _ | .subReg x _
  | .shr x _ | .subnReg x _ | .shl x _ | .rnd x _ | .ldVxDt x | .ldVxK x => [x]
  | .loadRegs x => regsUpTo x
  | .cls | .ret | .jp _ | .call _ | .seImm _ _ | .sneImm _ _ | .seReg _ _ | .sneReg _ _ | .ldI _ | .jpV0 _ | .drw _ _ _
  | .skp _ | .sknp _ | .ldDtVx _ | .ldStVx _ | .addI _ | .ldF _ | .ldB _ | .storeRegs _ => []

/-- The instructions that write VF as a side effect (10_state.md R22). -/
def writesFlag : Instr → Bool
  | .addReg _ _ | .subReg _ _ | .shr _ _ | .subnReg _ _ | .shl _ _ | .drw _ _ _ => true
  | .cls | .ret | .jp _ | .call _ | .seImm _ _ | .sneImm _ _ | .seReg _ _ | .ldImm _ _ | .addImm _ _ | .ldReg _ _
  | .orReg _ _ | .andReg _ _ | .xorReg _ _ | .sneReg _ _ | .ldI _ | .jpV0 _ | .rnd _ _ | .skp _ | .sknp _ | .ldVxDt _
  | .ldVxK _ | .ldDtVx _ | .ldStVx _ | .addI _ | .ldF _ | .ldB _ | .storeRegs _ | .loadRegs _ => false

/-- The instructions that can raise a fault once fetched and decoded, the "raised by" column of 60_exceptions.md R311. -/
def mayFault : Instr → Bool
  | .ret | .call _ | .drw _ _ _ | .ldB _ | .storeRegs _ | .loadRegs _ | .ldF _ | .skp _ | .sknp _ => true
  | .cls | .jp _ | .seImm _ _ | .sneImm _ _ | .seReg _ _ | .ldImm _ _ | .addImm _ _ | .ldReg _ _ | .orReg _ _
  | .andReg _ _ | .xorReg _ _ | .addReg _ _ | .subReg _ _ | .shr _ _ | .subnReg _ _ | .shl _ _ | .sneReg _ _ | .ldI _
  | .jpV0 _ | .rnd _ _ | .ldVxDt _ | .ldVxK _ | .ldDtVx _ | .ldStVx _ | .addI _ => false

/-- The addresses an instruction stores to, in the state it executes in (20_memory.md R62). -/
def storedAddrs (s : State) : Instr → List Nat
  | .ldB x => (bcdStores x s).map Prod.fst
  | .storeRegs x => (blockStores x s).map Prod.fst
  | .cls | .ret | .jp _ | .call _ | .seImm _ _ | .sneImm _ _ | .seReg _ _ | .ldImm _ _ | .addImm _ _ | .ldReg _ _
  | .orReg _ _ | .andReg _ _ | .xorReg _ _ | .addReg _ _ | .subReg _ _ | .shr _ _ | .subnReg _ _ | .shl _ _ | .sneReg _ _
  | .ldI _ | .jpV0 _ | .rnd _ _ | .drw _ _ _ | .skp _ | .sknp _ | .ldVxDt _ | .ldVxK _ | .ldDtVx _ | .ldStVx _ | .addI _
  | .ldF _ | .loadRegs _ => []

/-- PC after an instruction, the table of 10_state.md R25; `s` is the state it executes in, where PC is A + 2. -/
def pcAfter (s : State) : Instr → Word
  | .jp nnn => zext12 nnn
  | .call nnn => zext12 nnn
  | .ret => s.stack.getLastD 0
  | .jpV0 nnn => (if s.cfg.jumpBase = .index then s.i else zext12 nnn) + zext8 (s.reg 0)
  | .seImm x nn => if s.reg x = nn then s.pc + 2 else s.pc
  | .sneImm x nn => if s.reg x ≠ nn then s.pc + 2 else s.pc
  | .seReg x y => if s.reg x = s.reg y then s.pc + 2 else s.pc
  | .sneReg x y => if s.reg x ≠ s.reg y then s.pc + 2 else s.pc
  | .skp x => if s.keys.getLsbD (s.reg x).toNat = true then s.pc + 2 else s.pc
  | .sknp x => if s.keys.getLsbD (s.reg x).toNat = false then s.pc + 2 else s.pc
  | .cls | .ldImm _ _ | .addImm _ _ | .ldReg _ _ | .orReg _ _ | .andReg _ _ | .xorReg _ _ | .addReg _ _ | .subReg _ _
  | .shr _ _ | .subnReg _ _ | .shl _ _ | .ldI _ | .rnd _ _ | .drw _ _ _ | .ldVxDt _ | .ldVxK _ | .ldDtVx _ | .ldStVx _
  | .addI _ | .ldF _ | .ldB _ | .storeRegs _ | .loadRegs _ => s.pc

/-- Whether a store to an address completes (20_memory.md R67, R68). -/
def Storable (c : Config) (a : Nat) : Prop := a ≤ 0xFFF ∧ ¬ (c.fontBase ≤ a ∧ a ≤ c.fontBase + 79)

/-- The fault of a store that does not complete: the bounds check comes before the font check (R67, 60_exceptions.md R315). -/
def storeFault (a : Nat) (insn : Word) : Fault :=
  if a > 0xFFF then .memoryOutOfBounds a insn else .fontWrite a insn

/-- Whether the sprite of DRW Vx, Vy, n has a 1 bit on the pixel (p, q): row r of the sprite is the byte at I + r, its bit
7 - c is column c, and the pixel of (r, c) is (Vx + c mod 64, Vy + r mod 32) (40_screen.md R132). -/
def spriteCovers (s : State) (x y : Reg) (n : Nat) (p : Fin 64) (q : Fin 32) : Prop :=
  ∃ r c : Nat, r < n ∧ c < 8 ∧ (s.byteAt (s.i.toNat + r)).getLsbD (7 - c) = true ∧
    p.val = ((s.reg x).toNat + c) % 64 ∧ q.val = ((s.reg y).toNat + r) % 32

end Sys2Proof.Machine
end

