-- ==== Sys2Proof/Certificates/Slice0/Obligations.lean ====
section
/-! DEFINITION. The statements for the provers. `exec i s` runs in the state after the fetch, so `s.pc` is A + 2 there and
`s.pc - 2` is A, the instruction's own address (00_scope.md R9, 10_state.md R24). -/

open Sys2Proof Sys2Proof.Machine

/-! ## Encoding (30_encoding.md) -/

/-- R97, R90: the decoder reads back every well-formed instruction from its word, and from its two bytes in memory order. -/
def Obligations.DecodeOfEncode : Prop :=
  ∀ i : Instr, i.wellFormed = true →
    decode (encode i) = .ok i ∧
    ∀ rest, decodeBytes (highByte (encode i) :: lowByte (encode i) :: rest) = .ok (i, rest)

/-- R97: the rows of the opcode map are pairwise disjoint; re-encoding a decoded word gives the word; two different legal
words decode to different instructions. -/
def Obligations.EncodeOfDecode : Prop :=
  opcodeMap.Pairwise (fun a b => ∀ w, ¬ (a.matchesWord w = true ∧ b.matchesWord w = true)) ∧
  (∀ w i, decode w = .ok i → encode i = w ∧ i.wellFormed = true) ∧
  (∀ w w' i, decode w = .ok i → decode w' = .ok i → w = w')

/-- R98, R94: exactly the words of the table of R98 are no instruction, and the error carries the raw word. -/
def Obligations.IllegalWordsAreRejected : Prop :=
  ∀ w : Word,
    (decode w = .error (.unrecognized w) ↔
      (w.toNat < 0x1000 ∧ w ≠ 0x00E0#16 ∧ w ≠ 0x00EE#16) ∨
      (w.toNat / 0x1000 = 0x5 ∧ w.toNat % 16 ≠ 0) ∨
      (w.toNat / 0x1000 = 0x8 ∧ w.toNat % 16 ∈ [0x8, 0x9, 0xA, 0xB, 0xC, 0xD, 0xF]) ∨
      (w.toNat / 0x1000 = 0x9 ∧ w.toNat % 16 ≠ 0) ∨
      (w.toNat / 0x1000 = 0xE ∧ w.toNat % 256 ∉ [0x9E, 0xA1]) ∨
      (w.toNat / 0x1000 = 0xF ∧ w.toNat % 256 ∉ [0x07, 0x0A, 0x15, 0x18, 0x1E, 0x29, 0x33, 0x55, 0x65])) ∧
    (∀ e, decode w = .error e → e = .unrecognized w)

/-- R95: a word is an instruction exactly when a row of the opcode map matches it, and then the row is the instruction's. -/
def Obligations.LegalWordsAreTheOpcodeMap : Prop :=
  ∀ w : Word, (legalWord w = true ↔ ∃ i, decode w = .ok i) ∧ ∀ i, decode w = .ok i → i.row.matchesWord w = true

/-- The words of 95_test_vectors.md L1-1 and L1-2 and one more of each format, written out from R93 and R95. -/
def Obligations.SampleWordsDecode : Prop :=
  decode 0xDAB5#16 = .ok (.drw 0xA 0xB 5) ∧ decode 0x23E8#16 = .ok (.call 0x3E8#12) ∧
  decode 0x6742#16 = .ok (.ldImm 7 0x42#8) ∧ decode 0xECA1#16 = .ok (.sknp 0xC) ∧
  decode 0x8374#16 = .ok (.addReg 3 7) ∧ decode 0x00E0#16 = .ok .cls ∧ decode 0xF533#16 = .ok (.ldB 5) ∧
  decode 0x0000#16 = .error (.unrecognized 0x0000#16)

/-! ## Screen (40_screen.md) -/

/-- R131: CLS completes in every state; every pixel is unlit and REDRAW is set; nothing else changes, VF among it. -/
def Obligations.ClsClearsTheScreen : Prop :=
  EncodedAs .cls 0x00E0 ∧
  ∀ s : State, ∃ t, exec .cls s = .next t ∧ (∀ x y, pixel t.fb x y = false) ∧ t.redraw = true ∧
    FrameExcept [.fb, .redraw] [] [] s t

/-- R132 to R135: DRW with its rows inside Memory completes. A pixel is toggled exactly when the sprite has a 1 bit on it;
VF is 1 exactly when such a pixel was lit; REDRAW is set; nothing else changes. The coordinates are those before VF is
cleared, also when x or y is VF. With a row outside Memory it faults at the first such row. -/
def Obligations.DrwTogglesTheSprite : Prop :=
  ∀ (x y : Reg) (n : Nat) (s : State), n < 16 →
    EncodedAs (.drw x y n) (0xD000 + 256 * x.val + 16 * y.val + n) ∧
    ((∀ r < n, s.i.toNat + r ≤ 0xFFF) →
      ∃ t, exec (.drw x y n) s = .next t ∧
        (∀ p q, pixel t.fb p q = true ↔ (¬ (pixel s.fb p q = true ↔ spriteCovers s x y n p q))) ∧
        (t.reg 0xF = 1 ↔ ∃ p q, spriteCovers s x y n p q ∧ pixel s.fb p q = true) ∧
        (t.reg 0xF = 0 ∨ t.reg 0xF = 1) ∧ t.redraw = true ∧
        FrameExcept [.fb, .redraw] [0xF] [] s t) ∧
    (∀ r < n, 0xFFF < s.i.toNat + r → (∀ k < r, s.i.toNat + k ≤ 0xFFF) →
      FaultsWith (exec (.drw x y n) s) s (.memoryOutOfBounds (s.i.toNat + r) (s.pc - 2)))

/-- R136: drawing the same sprite twice at the same coordinates restores the frame buffer; on a blank frame buffer the first
draw sets VF to 0 and the second to 1 when the sprite has a 1 bit. -/
def Obligations.DrawingTwiceErases : Prop :=
  ∀ (x y : Reg) (n : Nat) (s : State), n < 16 → x ≠ 0xF → y ≠ 0xF → (∀ r < n, s.i.toNat + r ≤ 0xFFF) →
    ∃ t u, exec (.drw x y n) s = .next t ∧ exec (.drw x y n) t = .next u ∧
      (∀ p q, pixel u.fb p q = pixel s.fb p q) ∧
      ((∀ p q, pixel s.fb p q = false) → t.reg 0xF = 0 ∧
        (u.reg 0xF = 1 ↔ ∃ r < n, s.byteAt (s.i.toNat + r) ≠ 0))

/-! ## Control transfer (41_flow.md) -/

/-- R151, R35: RET takes PC from the top of the stack; on an empty stack it faults with A. -/
def Obligations.RetPops : Prop :=
  EncodedAs .ret 0x00EE ∧
  ∀ s : State,
    (∀ (rest : List Word) (w : Word), s.stack = rest ++ [w] →
      ∃ t, exec .ret s = .next t ∧ t.pc = w ∧ t.stack = rest ∧ FrameExcept [.pc, .stack] [] [] s t) ∧
    (s.stack = [] → FaultsWith (exec .ret s) s (.stackUnderflow (s.pc - 2)))

/-- R152: JP nnn. -/
def Obligations.JpJumps : Prop :=
  ∀ (nnn : Addr12) (s : State), EncodedAs (.jp nnn) (0x1000 + nnn.toNat) ∧
    ∃ t, exec (.jp nnn) s = .next t ∧ t.pc.toNat = nnn.toNat ∧ FrameExcept [.pc] [] [] s t

/-- R153, R34: CALL pushes the address of the instruction after it; on a full stack it faults with A. -/
def Obligations.CallPushes : Prop :=
  ∀ (nnn : Addr12) (s : State), EncodedAs (.call nnn) (0x2000 + nnn.toNat) ∧
    (s.stack.length ≠ s.cfg.stackDepth →
      ∃ t, exec (.call nnn) s = .next t ∧ t.pc.toNat = nnn.toNat ∧ t.stack = s.stack ++ [s.pc] ∧
        FrameExcept [.pc, .stack] [] [] s t) ∧
    (s.stack.length = s.cfg.stackDepth → FaultsWith (exec (.call nnn) s) s (.stackOverflow (s.pc - 2)))

/-- R154: JP V0, nnn adds V0 to I or to nnn, as JUMP_OFFSET_BASE says, modulo 2^16. -/
def Obligations.JpV0AddsTheOffset : Prop :=
  ∀ (nnn : Addr12) (s : State), EncodedAs (.jpV0 nnn) (0xB000 + nnn.toNat) ∧
    ∃ t, exec (.jpV0 nnn) s = .next t ∧ FrameExcept [.pc] [] [] s t ∧
    (s.cfg.jumpBase = .index → t.pc.toNat = (s.i.toNat + (s.reg 0).toNat) % 65536) ∧
    (s.cfg.jumpBase = .immediate → t.pc.toNat = (nnn.toNat + (s.reg 0).toNat) % 65536)

/-- R153 with C9: a CALL that completes, then a RET at its target, is back at A + 2 with the stack as before. -/
def Obligations.CallThenRetBalances : Prop :=
  ∀ (nnn : Addr12) (s : State), s.stack.length ≠ s.cfg.stackDepth →
    ∃ t u, exec (.call nnn) s = .next t ∧ exec .ret (advancePc t) = .next u ∧ u.pc = s.pc ∧ u.stack = s.stack

/-! ## Skips (42_skip.md) and keys (46_keys.md) -/

/-- R170 to R174: each compare-and-skip completes in every state; PC is A + 4 when its condition holds and A + 2 when not. -/
def Obligations.SkipsCompare : Prop :=
  ∀ (x y : Reg) (nn : Byte) (s : State),
    EncodedAs (.seImm x nn) (0x3000 + 256 * x.val + nn.toNat) ∧ EncodedAs (.sneImm x nn) (0x4000 + 256 * x.val + nn.toNat) ∧
    EncodedAs (.seReg x y) (0x5000 + 256 * x.val + 16 * y.val) ∧ EncodedAs (.sneReg x y) (0x9000 + 256 * x.val + 16 * y.val) ∧
    (∃ t, exec (.seImm x nn) s = .next t ∧ FrameExcept [.pc] [] [] s t ∧
      t.pc.toNat = (if (s.reg x).toNat = nn.toNat then (s.pc.toNat + 2) % 65536 else s.pc.toNat)) ∧
    (∃ t, exec (.sneImm x nn) s = .next t ∧ FrameExcept [.pc] [] [] s t ∧
      t.pc.toNat = (if (s.reg x).toNat ≠ nn.toNat then (s.pc.toNat + 2) % 65536 else s.pc.toNat)) ∧
    (∃ t, exec (.seReg x y) s = .next t ∧ FrameExcept [.pc] [] [] s t ∧
      t.pc.toNat = (if (s.reg x).toNat = (s.reg y).toNat then (s.pc.toNat + 2) % 65536 else s.pc.toNat)) ∧
    (∃ t, exec (.sneReg x y) s = .next t ∧ FrameExcept [.pc] [] [] s t ∧
      t.pc.toNat = (if (s.reg x).toNat ≠ (s.reg y).toNat then (s.pc.toNat + 2) % 65536 else s.pc.toNat))

/-- R251, R252: SKP and SKNP skip on the sampled state of the key in Vx, and fault on a value above 0xF. -/
def Obligations.KeySkips : Prop :=
  ∀ (x : Reg) (s : State),
    EncodedAs (.skp x) (0xE09E + 256 * x.val) ∧ EncodedAs (.sknp x) (0xE0A1 + 256 * x.val) ∧
    ((s.reg x).toNat ≤ 0xF →
      (∃ t, exec (.skp x) s = .next t ∧ FrameExcept [.pc] [] [] s t ∧
        t.pc = (if s.keys.getLsbD (s.reg x).toNat = true then s.pc + 2 else s.pc)) ∧
      (∃ t, exec (.sknp x) s = .next t ∧ FrameExcept [.pc] [] [] s t ∧
        t.pc = (if s.keys.getLsbD (s.reg x).toNat = false then s.pc + 2 else s.pc))) ∧
    (0xF < (s.reg x).toNat →
      FaultsWith (exec (.skp x) s) s (.keyIndexOutOfRange (s.reg x) (s.pc - 2)) ∧
      FaultsWith (exec (.sknp x) s) s (.keyIndexOutOfRange (s.reg x) (s.pc - 2)))

/-- R253, R345, R349: LD Vx, K looks for the host's answer. With a key, Vx is the key and the core runs on; with Quit the run
ends normally, Vx not written and no `stop_tone`; with none yet, or none ever, the core is left waiting. How the host's looks and
the calls are recorded is the model's choice (log entries 15, 17 and 24). -/
def Obligations.KeyWait : Prop :=
  ∀ (x : Reg) (s : State), EncodedAs (.ldVxK x) (0xF00A + 256 * x.val) ∧
    (∀ k rest, s.host.answers = some (.key k) :: rest →
      ∃ t, exec (.ldVxK x) s = .next t ∧ (t.reg x).toNat = k.val ∧ t.status = .running ∧
        t.host = { s.host with answers := rest } ∧ t.draws = s.draws ∧ t.out = s.out ++ [.keyWaitReq x] ∧
        FrameExcept [.status, .host, .out] [x] [] s t) ∧
    (∀ rest, s.host.answers = some .quit :: rest →
      ∃ t, exec (.ldVxK x) s = .next t ∧ t.status = .haltedNormal .capabilityExit ∧
        t.host = { s.host with answers := rest } ∧ t.draws = s.draws ∧ t.out = s.out ++ [.keyWaitReq x] ∧
        FrameExcept [.status, .host, .out] [] [] s t) ∧
    (∀ rest, s.host.answers = none :: rest →
      ∃ t, exec (.ldVxK x) s = .next t ∧ t.status = .waitingKey x ∧
        t.host = { s.host with answers := rest } ∧ t.draws = s.draws ∧ t.out = s.out ++ [.keyWaitReq x] ∧
        FrameExcept [.status, .host, .out] [] [] s t) ∧
    (s.host.answers = [] →
      ∃ t, exec (.ldVxK x) s = .next t ∧ t.status = .waitingKey x ∧ t.out = s.out ++ [.keyWaitReq x] ∧
        FrameExcept [.status, .out] [] [] s t)

/-- R337, R253, R318, R354: a step of a core that waits for a key. While the host has not answered, nothing of the core's state
changes. Quit ends the run normally, with Vx, the timers and the calls as they stand. A key writes Vx and the iteration goes on:
under DEBUG_STEP into the hold, else to its end, which a requested quit cuts off before the countdown (R332), and which otherwise
renders and counts down once, however long the wait was. That a step looks for the answer once is the model's choice (log
entries 17 and 24), and the hold's flag too (log entry 16). -/
def Obligations.KeyWaitPausesTheTimers : Prop :=
  ∀ (x : Reg) (s : State), s.status = .waitingKey x →
    (s.host.answers = [] → step s = .next s) ∧
    (∀ rest, s.host.answers = none :: rest → step s = .next (s.setHost { s.host with answers := rest })) ∧
    (∀ rest, s.host.answers = some .quit :: rest →
      ∃ t, step s = .next t ∧ t.status = .haltedNormal .capabilityExit ∧
        t.host = { s.host with answers := rest } ∧ t.draws = s.draws ∧ FrameExcept [.status, .host] [] [] s t) ∧
    (∀ k rest, s.host.answers = some (.key k) :: rest → s.cfg.debugStep = true →
      ∃ t, step s = .next t ∧ (t.reg x).toNat = k.val ∧ t.status = .running ∧ t.hold = true ∧
        t.host = { s.host with answers := rest } ∧ t.draws = s.draws ∧
        FrameExcept [.status, .host] [x] [] (s.setHold true) t) ∧
    (∀ k rest, s.host.answers = some (.key k) :: rest → s.cfg.debugStep = false → s.host.quitIn = some 0 →
      ∃ t, step s = .next t ∧ (t.reg x).toNat = k.val ∧ t.status = .haltedNormal .quitRequested ∧
        t.host = { s.host with answers := rest } ∧ t.draws = s.draws ∧ FrameExcept [.status, .host] [x] [] s t) ∧
    (∀ k rest, s.host.answers = some (.key k) :: rest → s.cfg.debugStep = false → s.host.quitIn ≠ some 0 →
      ∃ t, step s = .next t ∧ (t.reg x).toNat = k.val ∧ t.status = .running ∧ t.redraw = false ∧
        t.dt.toNat = s.dt.toNat - 1 ∧ t.st.toNat = s.st.toNat - 1 ∧
        t.out = s.out ++ (if s.redraw = true then [.render s.fb] else []) ++ (if s.st = 1 then [.startTone] else []) ∧
        t.host = { s.host with answers := rest, quitIn := s.host.quitIn.map (· - 1) } ∧ t.draws = s.draws ∧
        FrameExcept [.dt, .st, .redraw, .status, .host, .out] [x] [] s t)

/-! ## Arithmetic and logic (43_alu.md) -/

/-- R191, R192: LD Vx, kk and ADD Vx, kk, which writes no flag. -/
def Obligations.ImmediateLoadAndAdd : Prop :=
  ∀ (x : Reg) (nn : Byte) (s : State),
    EncodedAs (.ldImm x nn) (0x6000 + 256 * x.val + nn.toNat) ∧ EncodedAs (.addImm x nn) (0x7000 + 256 * x.val + nn.toNat) ∧
    (∃ t, exec (.ldImm x nn) s = .next t ∧ t.reg x = nn ∧ FrameExcept [] [x] [] s t) ∧
    (∃ t, exec (.addImm x nn) s = .next t ∧ (t.reg x).toNat = ((s.reg x).toNat + nn.toNat) % 256 ∧
      FrameExcept [] [x] [] s t)

/-- R193 to R196: LD, OR, AND and XOR Vx, Vy; only Vx changes, so VF is not reset. -/
def Obligations.CopyAndLogic : Prop :=
  ∀ (x y : Reg) (s : State),
    EncodedAs (.ldReg x y) (0x8000 + 256 * x.val + 16 * y.val) ∧ EncodedAs (.orReg x y) (0x8001 + 256 * x.val + 16 * y.val) ∧
    EncodedAs (.andReg x y) (0x8002 + 256 * x.val + 16 * y.val) ∧ EncodedAs (.xorReg x y) (0x8003 + 256 * x.val + 16 * y.val) ∧
    (∃ t, exec (.ldReg x y) s = .next t ∧ t.reg x = s.reg y ∧ FrameExcept [] [x] [] s t) ∧
    (∃ t, exec (.orReg x y) s = .next t ∧ FrameExcept [] [x] [] s t ∧
      ∀ b < 8, (t.reg x).getLsbD b = ((s.reg x).getLsbD b || (s.reg y).getLsbD b)) ∧
    (∃ t, exec (.andReg x y) s = .next t ∧ FrameExcept [] [x] [] s t ∧
      ∀ b < 8, (t.reg x).getLsbD b = ((s.reg x).getLsbD b && (s.reg y).getLsbD b)) ∧
    (∃ t, exec (.xorReg x y) s = .next t ∧ FrameExcept [] [x] [] s t ∧
      ∀ b < 8, (t.reg x).getLsbD b = ((s.reg x).getLsbD b != (s.reg y).getLsbD b))

/-- R198, R199, R201: ADD, SUB and SUBN wrap modulo 256 and set VF to the carry or to NOT borrow; VF ends as the flag also
when x is VF. Operands are read before any write. -/
def Obligations.AddSubtractWithFlag : Prop :=
  ∀ (x y : Reg) (s : State),
    EncodedAs (.addReg x y) (0x8004 + 256 * x.val + 16 * y.val) ∧ EncodedAs (.subReg x y) (0x8005 + 256 * x.val + 16 * y.val) ∧
    EncodedAs (.subnReg x y) (0x8007 + 256 * x.val + 16 * y.val) ∧
    (∃ t, exec (.addReg x y) s = .next t ∧ FrameExcept [] [x, 0xF] [] s t ∧
      (x ≠ 0xF → (t.reg x).toNat = ((s.reg x).toNat + (s.reg y).toNat) % 256) ∧
      (t.reg 0xF).toNat = (if (s.reg x).toNat + (s.reg y).toNat > 255 then 1 else 0)) ∧
    (∃ t, exec (.subReg x y) s = .next t ∧ FrameExcept [] [x, 0xF] [] s t ∧
      (x ≠ 0xF → ((t.reg x).toNat : Int) = ((s.reg x).toNat - (s.reg y).toNat : Int) % 256) ∧
      (t.reg 0xF).toNat = (if (s.reg x).toNat ≥ (s.reg y).toNat then 1 else 0)) ∧
    (∃ t, exec (.subnReg x y) s = .next t ∧ FrameExcept [] [x, 0xF] [] s t ∧
      (x ≠ 0xF → ((t.reg x).toNat : Int) = ((s.reg y).toNat - (s.reg x).toNat : Int) % 256) ∧
      (t.reg 0xF).toNat = (if (s.reg y).toNat ≥ (s.reg x).toNat then 1 else 0))

/-- R200, R202: SHR and SHL shift Vx by one, Vy not read, and set VF to the bit shifted out; Vx ends as the result also when
x is VF. -/
def Obligations.ShiftsByOne : Prop :=
  ∀ (x y : Reg) (s : State),
    EncodedAs (.shr x y) (0x8006 + 256 * x.val + 16 * y.val) ∧ EncodedAs (.shl x y) (0x800E + 256 * x.val + 16 * y.val) ∧
    (∃ t, exec (.shr x y) s = .next t ∧ FrameExcept [] [x, 0xF] [] s t ∧
      (t.reg x).toNat = (s.reg x).toNat / 2 ∧ (x ≠ 0xF → (t.reg 0xF).toNat = (s.reg x).toNat % 2)) ∧
    (∃ t, exec (.shl x y) s = .next t ∧ FrameExcept [] [x, 0xF] [] s t ∧
      (t.reg x).toNat = ((s.reg x).toNat * 2) % 256 ∧ (x ≠ 0xF → (t.reg 0xF).toNat = (s.reg x).toNat / 128))

/-- R197: with x = 0xF, ADD, SUB and SUBN leave VF as the flag, and SHR and SHL leave it as the shifted result. -/
def Obligations.FlagWriteOrder : Prop :=
  ∀ (y : Reg) (s : State),
    (∃ t, exec (.addReg 0xF y) s = .next t ∧
      (t.reg 0xF).toNat = (if (s.reg 0xF).toNat + (s.reg y).toNat > 255 then 1 else 0)) ∧
    (∃ t, exec (.subReg 0xF y) s = .next t ∧
      (t.reg 0xF).toNat = (if (s.reg 0xF).toNat ≥ (s.reg y).toNat then 1 else 0)) ∧
    (∃ t, exec (.subnReg 0xF y) s = .next t ∧
      (t.reg 0xF).toNat = (if (s.reg y).toNat ≥ (s.reg 0xF).toNat then 1 else 0)) ∧
    (∃ t, exec (.shr 0xF y) s = .next t ∧ (t.reg 0xF).toNat = (s.reg 0xF).toNat / 2) ∧
    (∃ t, exec (.shl 0xF y) s = .next t ∧ (t.reg 0xF).toNat = ((s.reg 0xF).toNat * 2) % 256)

/-! ## Index register, random byte, timers (44_index.md, 45_random.md, 47_timers.md) -/

/-- R221, R222: LD I, nnn and ADD I, Vx, modulo 2^16; no flag, no memory. -/
def Obligations.IndexLoadAndAdd : Prop :=
  ∀ (nnn : Addr12) (x : Reg) (s : State),
    EncodedAs (.ldI nnn) (0xA000 + nnn.toNat) ∧ EncodedAs (.addI x) (0xF01E + 256 * x.val) ∧
    (∃ t, exec (.ldI nnn) s = .next t ∧ t.i.toNat = nnn.toNat ∧ FrameExcept [.i] [] [] s t) ∧
    (∃ t, exec (.addI x) s = .next t ∧ t.i.toNat = (s.i.toNat + (s.reg x).toNat) % 65536 ∧ FrameExcept [.i] [] [] s t)

/-- R223: LD F, Vx gives the address of the glyph, and faults on a value above 0xF. -/
def Obligations.FontLookup : Prop :=
  ∀ (x : Reg) (s : State), s.cfg.wf = true →
    EncodedAs (.ldF x) (0xF029 + 256 * x.val) ∧
    ((s.reg x).toNat ≤ 0xF →
      ∃ t, exec (.ldF x) s = .next t ∧ t.i.toNat = s.cfg.fontBase + 5 * (s.reg x).toNat ∧ FrameExcept [.i] [] [] s t) ∧
    (0xF < (s.reg x).toNat → FaultsWith (exec (.ldF x) s) s (.fontDigitOutOfRange (s.reg x) (s.pc - 2)))

/-- R240, R241, R347: RND draws one byte, any byte, and writes it masked; a byte the host has ready is the one drawn. That the
host's bytes stand in a script, from which the draw takes the first and which otherwise stays, and that no free value is used
while the script holds one, is the model's choice (log entries 1 and 2). -/
def Obligations.RandomByteMasked : Prop :=
  ∀ (x : Reg) (nn : Byte) (s : State), EncodedAs (.rnd x nn) (0xC000 + 256 * x.val + nn.toNat) ∧
    ∃ t r, exec (.rnd x nn) s = .next t ∧ t.reg x = r &&& nn ∧ FrameExcept [.host] [x] [] s t ∧
      (∀ q rest, s.host.rands = q :: rest → r = q ∧ t.host = { s.host with rands := rest } ∧ t.draws = s.draws)

/-- R271 to R273: the timer instructions. -/
def Obligations.TimerTransfers : Prop :=
  ∀ (x : Reg) (s : State),
    EncodedAs (.ldVxDt x) (0xF007 + 256 * x.val) ∧ EncodedAs (.ldDtVx x) (0xF015 + 256 * x.val) ∧
    EncodedAs (.ldStVx x) (0xF018 + 256 * x.val) ∧
    (∃ t, exec (.ldVxDt x) s = .next t ∧ t.reg x = s.dt ∧ FrameExcept [] [x] [] s t) ∧
    (∃ t, exec (.ldDtVx x) s = .next t ∧ t.dt = s.reg x ∧ FrameExcept [.dt] [] [] s t) ∧
    (∃ t, exec (.ldStVx x) s = .next t ∧ t.st = s.reg x ∧ FrameExcept [.st] [] [] s t)

/-! ## Memory operations (48_memory_ops.md) -/

/-- R292: LD B stores the three digits at I, I+1 and I+2 when all three can be stored to; I is not changed. Otherwise it
faults at the first that cannot. -/
def Obligations.BcdStore : Prop :=
  ∀ (x : Reg) (s : State), Memory.wf (unlisted s.cfg) s.mem = true →
    EncodedAs (.ldB x) (0xF033 + 256 * x.val) ∧
    ((∀ k < 3, Storable s.cfg (s.i.toNat + k)) →
      ∃ t, exec (.ldB x) s = .next t ∧
        (t.byteAt s.i.toNat).toNat = (s.reg x).toNat / 100 ∧
        (t.byteAt (s.i.toNat + 1)).toNat = (s.reg x).toNat / 10 % 10 ∧
        (t.byteAt (s.i.toNat + 2)).toNat = (s.reg x).toNat % 10 ∧
        FrameExcept [] [] [s.i.toNat, s.i.toNat + 1, s.i.toNat + 2] s t) ∧
    (∀ k < 3, ¬ Storable s.cfg (s.i.toNat + k) → (∀ j < k, Storable s.cfg (s.i.toNat + j)) →
      FaultsWith (exec (.ldB x) s) s (storeFault (s.i.toNat + k) (s.pc - 2)))

/-- R294: LD [I], Vx stores V0..Vx at I..I+x when all can be stored to, and moves I by x + 1 exactly when
LOADSTORE_INCREMENTS_I is true. Otherwise it faults at the first address that cannot be stored to. -/
def Obligations.BlockStore : Prop :=
  ∀ (x : Reg) (s : State), Memory.wf (unlisted s.cfg) s.mem = true →
    EncodedAs (.storeRegs x) (0xF055 + 256 * x.val) ∧
    ((∀ r : Reg, r ≤ x → Storable s.cfg (s.i.toNat + r.val)) →
      ∃ t, exec (.storeRegs x) s = .next t ∧
        (∀ r : Reg, r ≤ x → t.byteAt (s.i.toNat + r.val) = s.reg r) ∧
        t.i.toNat = (if s.cfg.loadStoreIncrementsI = true then (s.i.toNat + x.val + 1) % 65536 else s.i.toNat) ∧
        FrameExcept [.i] [] ((List.range (x.val + 1)).map (s.i.toNat + ·)) s t) ∧
    (∀ r : Reg, r ≤ x → ¬ Storable s.cfg (s.i.toNat + r.val) → (∀ q : Reg, q < r → Storable s.cfg (s.i.toNat + q.val)) →
      FaultsWith (exec (.storeRegs x) s) s (storeFault (s.i.toNat + r.val) (s.pc - 2)))

/-- R296: LD Vx, [I] loads V0..Vx from I..I+x when all lie in Memory, the font among it, and moves I by x + 1 exactly when
LOADSTORE_INCREMENTS_I is true. Otherwise it faults at the first address outside Memory. -/
def Obligations.BlockLoad : Prop :=
  ∀ (x : Reg) (s : State), EncodedAs (.loadRegs x) (0xF065 + 256 * x.val) ∧
    (s.i.toNat + x.val ≤ 0xFFF →
      ∃ t, exec (.loadRegs x) s = .next t ∧
        (∀ r : Reg, r ≤ x → t.reg r = s.byteAt (s.i.toNat + r.val)) ∧
        (∀ r : Reg, x < r → t.reg r = s.reg r) ∧
        t.i.toNat = (if s.cfg.loadStoreIncrementsI = true then (s.i.toNat + x.val + 1) % 65536 else s.i.toNat) ∧
        FrameExcept [.i] (regsUpTo x) [] s t) ∧
    (∀ r : Reg, r ≤ x → 0xFFF < s.i.toNat + r.val → (∀ q : Reg, q < r → s.i.toNat + q.val ≤ 0xFFF) →
      FaultsWith (exec (.loadRegs x) s) s (.memoryOutOfBounds (s.i.toNat + r.val) (s.pc - 2)))

/-- R71, R76: a byte written is read back, and no other byte changes. -/
def Obligations.MemoryReadsTheLatestWrite : Prop :=
  ∀ (s : State) (a c : Nat) (b : Byte), Memory.wf (unlisted s.cfg) s.mem = true →
    (s.setByte a b).byteAt c = (if c = a then b else s.byteAt c)

/-- The model's memory is plain data with one form (Memory.lean): two canonical memories that read alike are equal. -/
def Obligations.CanonicalMemoryIsUnique : Prop :=
  ∀ (d : Nat → Byte) (m m' : List Host.Cell), Memory.wf d m = true → Memory.wf d m' = true →
    (∀ a, Memory.read d m a = Memory.read d m' a) → m = m'

/-- R79, R375: a store that completes is seen by the next fetch of the byte, with no intervening operation. -/
def Obligations.StoresAreSeenByFetch : Prop :=
  ∀ (s t : State) (a : Nat) (b : Byte), Memory.wf (unlisted s.cfg) s.mem = true → memWrite s a b = .ok t →
    (a = t.pc.toNat → t.pc.toNat ≤ 0xFFE → fetch t = .ok (b, s.byteAt (t.pc.toNat + 1))) ∧
    (a = t.pc.toNat + 1 → fetch t = .ok (s.byteAt t.pc.toNat, b))

/-! ## Whole-machine rules over all instructions -/

/-- R111, R320: the three ways a cycle's execution ends. Every instruction in every state answers a next state that is the halted
state of a fault, and only for an instruction that R311 names as a raiser of faults; or one with STATUS as it was; or, for
LD Vx, K, one that runs on, waits for its key, or has ended by a quit. (That a fault is a next state: log entry 3.) -/
def Obligations.EveryInstructionExecutes : Prop :=
  ∀ (i : Instr) (s : State), ∃ t, exec i s = .next t ∧
    ((mayFault i = true ∧ ∃ f, t.status = .haltedFault f ∧ t.out = s.out ++ [.stopTone]) ∨
      (t.status = s.status ∧ t.out = s.out ∧ ∀ x, i ≠ .ldVxK x) ∨
      (∃ x, i = .ldVxK x ∧ t.out = s.out ++ [.keyWaitReq x] ∧
        (t.status = .running ∨ t.status = .waitingKey x ∨ t.status = .haltedNormal .capabilityExit)))

/-- R22: an instruction that no fault ends changes a register only if it names it as its destination, or it is VF and the
instruction is one of ADD, SUB, SHR, SUBN, SHL (two-register forms) and DRW. -/
def Obligations.OnlyFlagWritersWriteVF : Prop :=
  ∀ (i : Instr) (s t : State) (r : Reg), exec i s = .next t → s.isFaulted = false → t.isFaulted = false →
    r ∉ namedDest i → ¬ (r = 0xF ∧ writesFlag i = true) → t.reg r = s.reg r

/-- R25: how each instruction that no fault ends leaves PC. -/
def Obligations.PcAfterEachInstruction : Prop :=
  ∀ (i : Instr) (s t : State), exec i s = .next t → s.isFaulted = false → t.isFaulted = false → t.pc = pcAfter s i

/-- R33: only CALL pushes, the address of the instruction after it, and only RET pops. -/
def Obligations.OnlyCallAndRetTouchTheStack : Prop :=
  ∀ (i : Instr) (s t : State), exec i s = .next t → s.isFaulted = false → t.isFaulted = false →
    (∀ nnn, i = .call nnn → t.stack = s.stack ++ [s.pc]) ∧
    (i = .ret → ∃ w, s.stack = t.stack ++ [w]) ∧
    ((∀ nnn, i ≠ .call nnn) → i ≠ .ret → t.stack = s.stack)

/-- R130: CLS and DRW are the only instructions that write the frame buffer or REDRAW. -/
def Obligations.OnlyClsAndDrwTouchTheScreen : Prop :=
  ∀ (i : Instr) (s t : State), exec i s = .next t → s.isFaulted = false → t.isFaulted = false →
    i ≠ .cls → (∀ x y n, i ≠ .drw x y n) → t.fb = s.fb ∧ t.redraw = s.redraw

/-- R62, R68: only LD B and LD [I], Vx write memory, only the bytes at their addresses, and never a byte of the font. -/
def Obligations.OnlyBcdAndBlockStoreWriteMemory : Prop :=
  ∀ (i : Instr) (s t : State), exec i s = .next t → s.isFaulted = false → t.isFaulted = false →
    (∀ a, a ∉ storedAddrs s i → t.byteAt a = s.byteAt a) ∧
    (∀ a, s.cfg.fontBase ≤ a → a ≤ s.cfg.fontBase + 79 → t.byteAt a = s.byteAt a)

/-- R28, R270: I is written only by LD I, ADD I, LD F and, with LOADSTORE_INCREMENTS_I, by the block store and load; DT and
ST only by LD DT, Vx and LD ST, Vx. -/
def Obligations.IndexAndTimerWriters : Prop :=
  ∀ (i : Instr) (s t : State), exec i s = .next t → s.isFaulted = false → t.isFaulted = false →
    (t.i ≠ s.i → (∃ nnn, i = .ldI nnn) ∨ (∃ x, i = .addI x) ∨ (∃ x, i = .ldF x) ∨
      (s.cfg.loadStoreIncrementsI = true ∧ ((∃ x, i = .storeRegs x) ∨ (∃ x, i = .loadRegs x)))) ∧
    (t.dt ≠ s.dt → ∃ x, i = .ldDtVx x) ∧ (t.st ≠ s.st → ∃ x, i = .ldStVx x)

/-- R311, R190, R220: which instructions raise which fault, and that the fault records A. No other instruction faults. -/
def Obligations.FaultsComeFromTheirInstructions : Prop :=
  ∀ (i : Instr) (s t : State) (f : Fault), exec i s = .next t → s.isFaulted = false → t.status = .haltedFault f →
    (f = .stackUnderflow (s.pc - 2) ∧ i = .ret) ∨
    (f = .stackOverflow (s.pc - 2) ∧ ∃ nnn, i = .call nnn) ∨
    (∃ a, f = .memoryOutOfBounds a (s.pc - 2) ∧ 0xFFF < a ∧
      ((∃ x y n, i = .drw x y n) ∨ (∃ x, i = .ldB x) ∨ (∃ x, i = .storeRegs x) ∨ (∃ x, i = .loadRegs x))) ∨
    (∃ a, f = .fontWrite a (s.pc - 2) ∧ s.cfg.fontBase ≤ a ∧ a ≤ s.cfg.fontBase + 79 ∧
      ((∃ x, i = .ldB x) ∨ (∃ x, i = .storeRegs x))) ∨
    (∃ x, f = .fontDigitOutOfRange (s.reg x) (s.pc - 2) ∧ i = .ldF x) ∨
    (∃ x, f = .keyIndexOutOfRange (s.reg x) (s.pc - 2) ∧ (i = .skp x ∨ i = .sknp x))

/-! ## Cycle, run loop and faults (30_encoding.md, 60_exceptions.md) -/

/-- R110, R330: at the start of an iteration, with PC at most 0xFFE and the word there an instruction i, a step takes the key
sample, advances PC by 2, executes i, and does what follows a cycle. The word's low byte is the one at the higher address. -/
def Obligations.StepRunsTheDecodedInstruction : Prop :=
  ∀ (s : State) (i : Instr), s.atIteration → s.pc.toNat ≤ 0xFFE → decode (wordAtPc s) = .ok i →
    step s = thenDo (exec i (advancePc (scanInputs s))) afterCycle ∧
    (wordAtPc s).toNat = (s.byteAt s.pc.toNat).toNat * 256 + (s.byteAt (s.pc.toNat + 1)).toNat

/-- R70, R98, R110: a fetch above 0xFFE faults with PC; a word that is no instruction faults with the word and its address. -/
def Obligations.FetchAndDecodeFaults : Prop :=
  ∀ s : State, s.atIteration →
    (0xFFE < s.pc.toNat → FaultsWith (step s) s (.fetchOutOfBounds s.pc)) ∧
    (s.pc.toNat ≤ 0xFFE → (∀ i, decode (wordAtPc s) ≠ .ok i) → FaultsWith (step s) s (.decodeError (wordAtPc s) s.pc))

/-- R335, R333, R336: the end of an iteration that no quit ends: one render when REDRAW was set, then the countdown of both
timers, floor 0, with `start_tone` exactly on ST's 1-to-0 edge; the poll is counted (log entry 23) and nothing else changes. It follows the cycle at once when DEBUG_STEP is false. -/
def Obligations.IterationRendersAndCountsDown : Prop :=
  (∀ s : State, s.status = .running → s.cfg.debugStep = false → afterCycle s = finishIteration s) ∧
  ∀ s : State, s.host.quitIn ≠ some 0 →
    (finishIteration s).st.toNat = s.st.toNat - 1 ∧ (finishIteration s).dt.toNat = s.dt.toNat - 1 ∧
    (finishIteration s).redraw = false ∧
    (finishIteration s).host = { s.host with quitIn := s.host.quitIn.map (· - 1) } ∧
    (finishIteration s).draws = s.draws ∧
    (finishIteration s).out = s.out ++ (if s.redraw = true then [.render s.fb] else []) ++
      (if s.st = 1 then [.startTone] else []) ∧
    FrameExcept [.st, .dt, .redraw, .out, .host] [] [] s (finishIteration s)

/-- R332, R317: a quit seen by the poll at the end of an iteration, after its cycle and hold, ends the run at once, before that
iteration's render and countdown, with the cycle's effects as they stand; with no quit the poll ends nothing. -/
def Obligations.QuitPollEndsTheRun : Prop :=
  ∀ s : State,
    (s.host.quitIn = some 0 →
      (finishIteration s).status = .haltedNormal .quitRequested ∧ FrameExcept [.status] [] [] s (finishIteration s)) ∧
    (s.host.quitIn ≠ some 0 → (finishIteration s).status = s.status) ∧
    (s.status = .running → s.cfg.debugStep = false → afterCycle s = finishIteration s)

/-- R338, R337, R330: with DEBUG_STEP an iteration whose cycle leaves the core running enters the hold, and neither polls nor
counts; in the hold nothing of the core's state changes until the host answers; a key other than CONTINUE_KEY is only consumed;
Quit ends the run normally; CONTINUE_KEY prints the registers and the iteration goes on to its end, which a requested quit cuts
off before the render and the countdown. The hold's flag, one look for an answer a step, and that the hold makes no
`key_wait_req` are the model's choices (log entries 15, 16 and 17). -/
def Obligations.DebugHoldWaitsForItsKey : Prop :=
  (∀ s : State, s.status = .running → s.cfg.debugStep = true → afterCycle s = s.setHold true) ∧
  (∀ s : State, s.status = .running → s.hold = true →
    (s.host.answers = [] → step s = .next s) ∧
    (∀ rest, s.host.answers = none :: rest → step s = .next (s.setHost { s.host with answers := rest })) ∧
    (∀ k rest, s.host.answers = some (.key k) :: rest → k ≠ s.cfg.continueKey →
      step s = .next (s.setHost { s.host with answers := rest })) ∧
    (∀ rest, s.host.answers = some .quit :: rest →
      ∃ t, step s = .next t ∧ t.status = .haltedNormal .capabilityExit ∧ t.hold = false ∧
        t.host = { s.host with answers := rest } ∧ t.draws = s.draws ∧
        FrameExcept [.status, .host] [] [] (s.setHold false) t) ∧
    (∀ rest, s.host.answers = some (.key s.cfg.continueKey) :: rest → s.host.quitIn = some 0 →
      ∃ t, step s = .next t ∧ t.status = .haltedNormal .quitRequested ∧ t.hold = false ∧
        t.out = s.out ++ [.printRegisters s.v s.i s.pc s.dt s.st] ∧
        t.host = { s.host with answers := rest } ∧ t.draws = s.draws ∧
        FrameExcept [.status, .host, .out] [] [] (s.setHold false) t) ∧
    (∀ rest, s.host.answers = some (.key s.cfg.continueKey) :: rest → s.host.quitIn ≠ some 0 →
      ∃ t, step s = .next t ∧ t.status = .running ∧ t.hold = false ∧ t.redraw = false ∧
        t.dt.toNat = s.dt.toNat - 1 ∧ t.st.toNat = s.st.toNat - 1 ∧
        t.out = s.out ++ [.printRegisters s.v s.i s.pc s.dt s.st] ++ (if s.redraw = true then [.render s.fb] else []) ++
          (if s.st = 1 then [.startTone] else []) ∧
        t.host = { s.host with answers := rest, quitIn := s.host.quitIn.map (· - 1) } ∧ t.draws = s.draws ∧
        FrameExcept [.dt, .st, .redraw, .host, .out] [] [] (s.setHold false) t))

/-- R312, R310: a step that a fault ends has silenced the audio after every earlier call, and the run is over: the next step
answers the fault. No step of a run that no fault ends calls `stop_tone` (R336). -/
def Obligations.FaultsSilenceTheToneAndEndTheRun : Prop :=
  ∀ s t : State, step s = .next t →
    (∀ f, t.status = .haltedFault f → t.out = s.out ++ [.stopTone] ∧ step t = .fault f) ∧
    (t.isFaulted = false → t.out.count .stopTone = s.out.count .stopTone)

/-- R39, R331: a halted state is never left. What the step of a halted state answers (itself after a quit, the fault after a
fault) is the model's choice, log entry 4. -/
def Obligations.HaltedStatesAreNeverLeft : Prop :=
  (∀ (s : State) (r : NormalEnd), s.status = .haltedNormal r → step s = .next s) ∧
  (∀ (s : State) (f : Fault), s.status = .haltedFault f → ∀ t, step s ≠ .next t) ∧
  (∀ s t : State, Reaches s t → s.isOver = true → t = s)

/-- R343, R376: the key a skip tests is the one sampled at the start of the iteration it executes in, and each iteration takes one
sample of the host's. (No debug step, no quit seen by this iteration's poll, the host's next sample being `k`; the host's
record is the model's, log entries 1, 16 and 23.) -/
def Obligations.SkipsUseTheIterationsSample : Prop :=
  ∀ (s : State) (x : Reg) (k : BitVec 16) (rest : List (BitVec 16)), s.atIteration → s.pc.toNat ≤ 0xFFE →
    s.cfg.debugStep = false → s.host.quitIn ≠ some 0 → s.host.samples = k :: rest → (s.reg x).toNat ≤ 0xF →
    (decode (wordAtPc s) = .ok (.skp x) →
      ∃ t, step s = .next t ∧ t.status = .running ∧ t.keys = k ∧
        t.host = { s.host with samples := rest, quitIn := s.host.quitIn.map (· - 1) } ∧ t.draws = s.draws ∧
        t.pc = (if k.getLsbD (s.reg x).toNat = true then s.pc + 4 else s.pc + 2)) ∧
    (decode (wordAtPc s) = .ok (.sknp x) →
      ∃ t, step s = .next t ∧ t.status = .running ∧ t.keys = k ∧
        t.host = { s.host with samples := rest, quitIn := s.host.quitIn.map (· - 1) } ∧ t.draws = s.draws ∧
        t.pc = (if k.getLsbD (s.reg x).toNat = true then s.pc + 2 else s.pc + 4))

/-- R377, R270, R335: over a whole iteration that leaves the core running, each timer counts down by one from the value an
LD DT, Vx or LD ST, Vx of the iteration wrote, or else from its old value, with floor 0. (No debug step.) -/
def Obligations.TimersCountIterations : Prop :=
  ∀ (s t : State) (i : Instr), s.atIteration → s.pc.toNat ≤ 0xFFE → decode (wordAtPc s) = .ok i →
    s.cfg.debugStep = false → step s = .next t → t.status = .running →
    (∀ x, i = .ldDtVx x → t.dt.toNat = (s.reg x).toNat - 1) ∧
    ((∀ x, i ≠ .ldDtVx x) → t.dt.toNat = s.dt.toNat - 1) ∧
    (∀ x, i = .ldStVx x → t.st.toNat = (s.reg x).toNat - 1) ∧
    ((∀ x, i ≠ .ldStVx x) → t.st.toNat = s.st.toNat - 1)

/-! ## Invariants, reset and construction (10_state.md, 70_reset_and_hazards.md) -/

/-- Every step from a state of the invariant leads to one: parameters in bounds, Memory canonical, the stack within its
capacity (R32), the font intact (R41), the hold only while running. -/
def Obligations.StepKeepsTheInvariant : Prop := ∀ s t : State, Inv s → step s = .next t → Inv t

/-- The state after reset meets the invariant. -/
def Obligations.ResetMeetsTheInvariant : Prop := Inv State.reset

/-- R41, R68, R6: along every run the font region reads as at its start, until a fault ends the run, and the parameters never
change. -/
def Obligations.FontAndParametersNeverChange : Prop :=
  ∀ s t : State, Reaches s t → t.cfg = s.cfg ∧
    (t.isFaulted = false → ∀ a, s.cfg.fontBase ≤ a → a ≤ s.cfg.fontBase + 79 → t.byteAt a = s.byteAt a)

/-- R371, R372, R42, with the model's own invariant as its last clause (log entries 8 and 16): construction from an image of at most 3584 bytes, for parameters within their bounds and any launch
values: the font, the image and the launch bytes in Memory, PC at 0x200, an empty stack, Running, the launch values in the
rest. -/
def Obligations.ConstructionLoadsTheImage : Prop :=
  ∀ (c : Config) (p : Launch) (h : HostScript) (img : List Byte), c.wf = true → img.length ≤ 3584 →
    ∃ s, construct c p h img = .next s ∧ s.pc = 0x200 ∧ s.stack = [] ∧ s.status = .running ∧ s.cfg = c ∧ s.host = h ∧
      s.v = p.v ∧ s.i = p.i ∧ s.dt = p.dt ∧ s.st = p.st ∧ s.fb = p.fb ∧ s.redraw = p.redraw ∧
      (∀ k : Fin 80, s.byteAt (c.fontBase + k.val) = c.font[k.val]) ∧
      (∀ (k : Nat) (hk : k < img.length), s.byteAt (0x200 + k) = img[k]) ∧
      (∀ a ≤ 0xFFF, ¬ (c.fontBase ≤ a ∧ a ≤ c.fontBase + 79) → ¬ (0x200 ≤ a ∧ a < 0x200 + img.length) →
        s.byteAt a = p.memInit a) ∧
      Inv s

/-- R372, R319: an image of more than 3584 bytes is refused with LoadError; one of any other length, odd or 0 among them, is
loaded verbatim. -/
def Obligations.OversizedImagesAreRefused : Prop :=
  ∀ (c : Config) (p : Launch) (h : HostScript) (img : List Byte),
    (3584 < img.length → construct c p h img = .refused (.loadError img.length)) ∧
    (img.length ≤ 3584 → c.wf = true → ∃ s, construct c p h img = .next s ∧
      ∀ (k : Nat) (hk : k < img.length), s.byteAt (0x200 + k) = img[k])

/-- The state after reset is the one construction gives from no image, under CleanReset (R42) with the model's own parameter
values and a host that takes no part (log entries 5 to 9). -/
def Obligations.ResetIsCleanConstruction : Prop :=
  construct defaultConfig Launch.clean { samples := [], answers := [], quitIn := none, rands := [] } [] = .next State.reset

/-- R42, R73, R74: what the spec gives the state after reset: PC at 0x200, an empty stack, Running, and the font's bytes, here
those of the digits 0, 7 and F. -/
def Obligations.ResetValues : Prop :=
  State.reset.pc = 0x200 ∧ State.reset.stack = [] ∧ State.reset.status = .running ∧ FontIntact State.reset ∧
  (List.range 5).map (fun k => State.reset.byteAt (State.reset.cfg.fontBase + k)) = [0xF0, 0x90, 0x90, 0x90, 0xF0] ∧
  (List.range 5).map (fun k => State.reset.byteAt (State.reset.cfg.fontBase + 35 + k)) = [0xF0, 0x10, 0x20, 0x40, 0x40] ∧
  (List.range 5).map (fun k => State.reset.byteAt (State.reset.cfg.fontBase + 75 + k)) = [0xF0, 0x80, 0xF0, 0x80, 0x80]

/-- R345, R349, R337: the host's answer to a waiting core comes after any number `n` of looks that find none. The wait then ends as
if the key had been there at once: Vx is the key and the iteration completes, with one render at most and one countdown. (No
debug step, no quit seen by this iteration's poll.) The looks are the model's (log entries 17 and 24). -/
def Obligations.KeyAnswersComeAfterAnyDelay : Prop :=
  ∀ (x : Reg) (n : Nat) (k : Key) (rest : List (Option KeyAnswer)) (s : State), s.status = .waitingKey x →
    s.cfg.debugStep = false → s.host.quitIn ≠ some 0 →
    s.host.answers = List.replicate n none ++ some (.key k) :: rest →
    ∃ t, Reaches s t ∧ (t.reg x).toNat = k.val ∧ t.status = .running ∧ t.host.answers = rest ∧ t.redraw = false ∧
      t.dt.toNat = s.dt.toNat - 1 ∧ t.st.toNat = s.st.toNat - 1 ∧
      t.out = s.out ++ (if s.redraw = true then [.render s.fb] else []) ++ (if s.st = 1 then [.startTone] else []) ∧
      FrameExcept [.dt, .st, .redraw, .status, .host, .out] [x] [] s t
end

