-- ==== Sys2Proof/Laws/Encoding.lean ====
section
/-! SUPPORT. The formats of 30_encoding.md R93 and the fields of R92 as numbers: each field of a formatted word reads back,
and a word is put together again from its fields. -/

namespace Sys2Proof

theorem toNat_wordOfBytes (hi lo : Byte) : (wordOfBytes hi lo).toNat = hi.toNat * 256 + lo.toNat := by
  have h : (wordOfBytes hi lo).toNat = hi.toNat <<< 8 ||| lo.toNat := BitVec.toNat_append hi lo
  rw [h, ← Nat.shiftLeft_add_eq_or_of_lt lo.isLt, Nat.shiftLeft_eq]

theorem toNat_formatNnn (op : BitVec 4) (nnn : Addr12) : (formatNnn op nnn).toNat = op.toNat * 4096 + nnn.toNat := by
  have h : (formatNnn op nnn).toNat = op.toNat <<< 12 ||| nnn.toNat := BitVec.toNat_append op nnn
  rw [h, ← Nat.shiftLeft_add_eq_or_of_lt nnn.isLt, Nat.shiftLeft_eq]

theorem toNat_opReg (op : BitVec 4) (x : Reg) : (op ++ (BitVec.ofFin x : BitVec 4)).toNat = op.toNat * 16 + x.val := by
  rw [BitVec.toNat_append, ← Nat.shiftLeft_add_eq_or_of_lt (BitVec.ofFin x : BitVec 4).isLt, Nat.shiftLeft_eq]; rfl

theorem toNat_formatXnn (op : BitVec 4) (x : Reg) (nn : Byte) :
    (formatXnn op x nn).toNat = op.toNat * 4096 + x.val * 256 + nn.toNat := by
  have h : (formatXnn op x nn).toNat = (op ++ (BitVec.ofFin x : BitVec 4)).toNat <<< 8 ||| nn.toNat :=
    BitVec.toNat_append (op ++ (BitVec.ofFin x : BitVec 4)) nn
  rw [h, ← Nat.shiftLeft_add_eq_or_of_lt nn.isLt, Nat.shiftLeft_eq, toNat_opReg]; omega

theorem toNat_formatX (op : BitVec 4) (x : Reg) (sel : Byte) :
    (formatX op x sel).toNat = op.toNat * 4096 + x.val * 256 + sel.toNat :=
  toNat_formatXnn op x sel

theorem toNat_formatXy (op : BitVec 4) (x y : Reg) (sel : BitVec 4) :
    (formatXy op x y sel).toNat = op.toNat * 4096 + x.val * 256 + y.val * 16 + sel.toNat := by
  have h : (formatXy op x y sel).toNat =
      ((op ++ (BitVec.ofFin x : BitVec 4)) ++ (BitVec.ofFin y : BitVec 4)).toNat <<< 4 ||| sel.toNat :=
    BitVec.toNat_append ((op ++ (BitVec.ofFin x : BitVec 4)) ++ (BitVec.ofFin y : BitVec 4)) sel
  rw [h, ← Nat.shiftLeft_add_eq_or_of_lt sel.isLt, Nat.shiftLeft_eq, BitVec.toNat_append,
    ← Nat.shiftLeft_add_eq_or_of_lt (BitVec.ofFin y : BitVec 4).isLt, Nat.shiftLeft_eq, toNat_opReg]
  simp only [BitVec.toNat_ofFin]; omega

/-! The fields of a word as numbers. -/

theorem toNat_leadingNibble (w : Word) : (leadingNibble w).toNat = w.toNat / 4096 := by
  have := w.isLt
  simp only [leadingNibble, BitVec.extractLsb'_toNat, Nat.shiftRight_eq_div_pow]; omega

theorem toNat_trailingNibble (w : Word) : (trailingNibble w).toNat = w.toNat % 16 := by
  simp only [trailingNibble, BitVec.extractLsb'_toNat, Nat.shiftRight_eq_div_pow]; omega

theorem toNat_trailingByte (w : Word) : (trailingByte w).toNat = w.toNat % 256 := by
  simp only [trailingByte, BitVec.extractLsb'_toNat, Nat.shiftRight_eq_div_pow]; omega

theorem val_fieldX (w : Word) : (fieldX w).val = w.toNat / 256 % 16 := by
  show (w.extractLsb' 8 4).toNat = _
  simp only [BitVec.extractLsb'_toNat, Nat.shiftRight_eq_div_pow]

theorem val_fieldY (w : Word) : (fieldY w).val = w.toNat / 16 % 16 := by
  show (w.extractLsb' 4 4).toNat = _
  simp only [BitVec.extractLsb'_toNat, Nat.shiftRight_eq_div_pow]

theorem fieldN_eq (w : Word) : fieldN w = w.toNat % 16 := toNat_trailingNibble w

theorem toNat_fieldNnn (w : Word) : (fieldNnn w).toNat = w.toNat % 4096 := by
  simp only [fieldNnn, BitVec.extractLsb'_toNat, Nat.shiftRight_eq_div_pow]; omega

theorem toNat_highByte (w : Word) : (highByte w).toNat = w.toNat / 256 := by
  have := w.isLt
  simp only [highByte, BitVec.extractLsb'_toNat, Nat.shiftRight_eq_div_pow]; omega

theorem toNat_lowByte (w : Word) : (lowByte w).toNat = w.toNat % 256 := by
  simp only [lowByte, BitVec.extractLsb'_toNat, Nat.shiftRight_eq_div_pow]; omega

/-! The decoder by the value of the leading nibble (R96), one lemma a family, so that no proof unfolds its match. -/

theorem decode_of_sys {w : Word} (h : w.toNat / 4096 = 0) : decode w = decodeSys w := by
  simp only [decode, toNat_leadingNibble, h]

theorem decode_of_jp {w : Word} (h : w.toNat / 4096 = 1) : decode w = .ok (.jp (fieldNnn w)) := by
  simp only [decode, toNat_leadingNibble, h]

theorem decode_of_call {w : Word} (h : w.toNat / 4096 = 2) : decode w = .ok (.call (fieldNnn w)) := by
  simp only [decode, toNat_leadingNibble, h]

theorem decode_of_seImm {w : Word} (h : w.toNat / 4096 = 3) : decode w = .ok (.seImm (fieldX w) (trailingByte w)) := by
  simp only [decode, toNat_leadingNibble, h]

theorem decode_of_sneImm {w : Word} (h : w.toNat / 4096 = 4) :
    decode w =
      .ok (.sneImm (fieldX w) (trailingByte w)) := by
  simp only [decode, toNat_leadingNibble, h]

theorem decode_of_seReg {w : Word} (h : w.toNat / 4096 = 5) :
    decode w =
      if trailingNibble w = 0 then .ok (.seReg (fieldX w) (fieldY w)) else .error (.unrecognized w) := by
  simp only [decode, toNat_leadingNibble, h]

theorem decode_of_ldImm {w : Word} (h : w.toNat / 4096 = 6) : decode w = .ok (.ldImm (fieldX w) (trailingByte w)) := by
  simp only [decode, toNat_leadingNibble, h]

theorem decode_of_addImm {w : Word} (h : w.toNat / 4096 = 7) :
    decode w =
      .ok (.addImm (fieldX w) (trailingByte w)) := by
  simp only [decode, toNat_leadingNibble, h]

theorem decode_of_alu {w : Word} (h : w.toNat / 4096 = 8) : decode w = decodeAlu w := by
  simp only [decode, toNat_leadingNibble, h]

theorem decode_of_sneReg {w : Word} (h : w.toNat / 4096 = 9) :
    decode w =
      if trailingNibble w = 0 then .ok (.sneReg (fieldX w) (fieldY w)) else .error (.unrecognized w) := by
  simp only [decode, toNat_leadingNibble, h]

theorem decode_of_ldI {w : Word} (h : w.toNat / 4096 = 10) : decode w = .ok (.ldI (fieldNnn w)) := by
  simp only [decode, toNat_leadingNibble, h]

theorem decode_of_jpV0 {w : Word} (h : w.toNat / 4096 = 11) : decode w = .ok (.jpV0 (fieldNnn w)) := by
  simp only [decode, toNat_leadingNibble, h]

theorem decode_of_rnd {w : Word} (h : w.toNat / 4096 = 12) : decode w = .ok (.rnd (fieldX w) (trailingByte w)) := by
  simp only [decode, toNat_leadingNibble, h]

theorem decode_of_drw {w : Word} (h : w.toNat / 4096 = 13) :
    decode w =
      .ok (.drw (fieldX w) (fieldY w) (fieldN w)) := by
  simp only [decode, toNat_leadingNibble, h]

theorem decode_of_key {w : Word} (h : w.toNat / 4096 = 14) : decode w = decodeKey w := by
  simp only [decode, toNat_leadingNibble, h]

theorem decode_of_misc {w : Word} (h : w.toNat / 4096 = 15) : decode w = decodeMisc w := by
  simp only [decode, toNat_leadingNibble, h]

/-! The formatted words by their leading nibble and their selectors. -/

theorem leading_formatNnn (op : BitVec 4) (nnn : Addr12) : (formatNnn op nnn).toNat / 4096 = op.toNat := by
  rw [toNat_formatNnn]; omega

theorem leading_formatXnn (op : BitVec 4) (x : Reg) (nn : Byte) : (formatXnn op x nn).toNat / 4096 = op.toNat := by
  rw [toNat_formatXnn]; omega

theorem leading_formatXy (op : BitVec 4) (x y : Reg) (sel : BitVec 4) : (formatXy op x y sel).toNat / 4096 = op.toNat := by
  rw [toNat_formatXy]; omega

theorem leading_formatX (op : BitVec 4) (x : Reg) (sel : Byte) : (formatX op x sel).toNat / 4096 = op.toNat := by
  rw [toNat_formatX]; omega

@[simp] theorem fieldNnn_formatNnn (op : BitVec 4) (nnn : Addr12) : fieldNnn (formatNnn op nnn) = nnn := by
  rw [← BitVec.toNat_inj, toNat_fieldNnn, toNat_formatNnn]; omega

@[simp] theorem fieldX_formatXnn (op : BitVec 4) (x : Reg) (nn : Byte) : fieldX (formatXnn op x nn) = x := by
  rw [Fin.ext_iff, val_fieldX, toNat_formatXnn]; omega

@[simp] theorem trailingByte_formatXnn (op : BitVec 4) (x : Reg) (nn : Byte) : trailingByte (formatXnn op x nn) = nn := by
  rw [← BitVec.toNat_inj, toNat_trailingByte, toNat_formatXnn]; omega

@[simp] theorem fieldX_formatXy (op : BitVec 4) (x y : Reg) (sel : BitVec 4) : fieldX (formatXy op x y sel) = x := by
  rw [Fin.ext_iff, val_fieldX, toNat_formatXy]; omega

@[simp] theorem fieldY_formatXy (op : BitVec 4) (x y : Reg) (sel : BitVec 4) : fieldY (formatXy op x y sel) = y := by
  rw [Fin.ext_iff, val_fieldY, toNat_formatXy]; omega

@[simp] theorem trailingNibble_formatXy (op : BitVec 4) (x y : Reg) (sel : BitVec 4) : trailingNibble (formatXy op x y sel) = sel := by
  rw [← BitVec.toNat_inj, toNat_trailingNibble, toNat_formatXy]; omega

@[simp] theorem fieldX_formatX (op : BitVec 4) (x : Reg) (sel : Byte) : fieldX (formatX op x sel) = x := by
  rw [Fin.ext_iff, val_fieldX, toNat_formatX]; omega

@[simp] theorem trailingByte_formatX (op : BitVec 4) (x : Reg) (sel : Byte) : trailingByte (formatX op x sel) = sel := by
  rw [← BitVec.toNat_inj, toNat_trailingByte, toNat_formatX]; omega

/-- The two bytes of a word, in memory order, make the word (R63). -/
theorem wordOfBytes_highByte_lowByte (w : Word) : wordOfBytes (highByte w) (lowByte w) = w := by
  rw [← BitVec.toNat_inj, toNat_wordOfBytes, toNat_highByte, toNat_lowByte]; omega

/-- A row of the opcode map, by the field values its mask fixes. -/
theorem matchesWord_iff (r : OpcodeRow) (w : Word) : r.matchesWord w = true ↔ w &&& r.mask = r.pattern := by
  simp [OpcodeRow.matchesWord]

/-- Two words are equal when their nibbles are. -/
theorem word_eq_of_nibbles {w p : Word} (h : ∀ k < 4, w.extractLsb' (4 * k) 4 = p.extractLsb' (4 * k) 4) : w = p := by
  ext i hi
  have hb := congrArg (fun v : BitVec 4 => v.getLsbD (i % 4)) (h (i / 4) (by omega))
  have hm : 4 * (i / 4) + i % 4 = i := by omega
  simpa [BitVec.getLsbD_extractLsb', Nat.mod_lt, hm, hi] using hb

/-- A row matches a word when it does nibble by nibble. A mask's nibbles are 0xF or 0x0, so this says which nibbles of the
word are fixed. -/
theorem matchesWord_nibbles (r : OpcodeRow) (w : Word) : r.matchesWord w = true ↔
    ∀ k < 4, w.extractLsb' (4 * k) 4 &&& r.mask.extractLsb' (4 * k) 4 = r.pattern.extractLsb' (4 * k) 4 := by
  rw [matchesWord_iff]
  constructor
  · intro h k _; rw [← h, BitVec.extractLsb'_and]
  · intro h; exact word_eq_of_nibbles (fun k hk => by rw [BitVec.extractLsb'_and]; exact h k hk)

end Sys2Proof
end

