-- ==== Sys2Proof/Laws/State.lean ====
section
/-! SUPPORT. One lemma per field per setter, true by rfl: no later proof unfolds a record update. Then the register file. -/

namespace Sys2Proof.Machine

@[simp] theorem State.setV_v (s : State) (v : Vector Byte 16) : (s.setV v).v = v := rfl
@[simp] theorem State.setV_i (s : State) (v : Vector Byte 16) : (s.setV v).i = s.i := rfl
@[simp] theorem State.setV_pc (s : State) (v : Vector Byte 16) : (s.setV v).pc = s.pc := rfl
@[simp] theorem State.setV_dt (s : State) (v : Vector Byte 16) : (s.setV v).dt = s.dt := rfl
@[simp] theorem State.setV_st (s : State) (v : Vector Byte 16) : (s.setV v).st = s.st := rfl
@[simp] theorem State.setV_stack (s : State) (v : Vector Byte 16) : (s.setV v).stack = s.stack := rfl
@[simp] theorem State.setV_mem (s : State) (v : Vector Byte 16) : (s.setV v).mem = s.mem := rfl
@[simp] theorem State.setV_fb (s : State) (v : Vector Byte 16) : (s.setV v).fb = s.fb := rfl
@[simp] theorem State.setV_redraw (s : State) (v : Vector Byte 16) : (s.setV v).redraw = s.redraw := rfl
@[simp] theorem State.setV_status (s : State) (v : Vector Byte 16) : (s.setV v).status = s.status := rfl
@[simp] theorem State.setV_keys (s : State) (v : Vector Byte 16) : (s.setV v).keys = s.keys := rfl
@[simp] theorem State.setV_hold (s : State) (v : Vector Byte 16) : (s.setV v).hold = s.hold := rfl
@[simp] theorem State.setV_host (s : State) (v : Vector Byte 16) : (s.setV v).host = s.host := rfl
@[simp] theorem State.setV_out (s : State) (v : Vector Byte 16) : (s.setV v).out = s.out := rfl
@[simp] theorem State.setV_draws (s : State) (v : Vector Byte 16) : (s.setV v).draws = s.draws := rfl
@[simp] theorem State.setV_cfg (s : State) (v : Vector Byte 16) : (s.setV v).cfg = s.cfg := rfl

@[simp] theorem State.setI_v (s : State) (i : Word) : (s.setI i).v = s.v := rfl
@[simp] theorem State.setI_i (s : State) (i : Word) : (s.setI i).i = i := rfl
@[simp] theorem State.setI_pc (s : State) (i : Word) : (s.setI i).pc = s.pc := rfl
@[simp] theorem State.setI_dt (s : State) (i : Word) : (s.setI i).dt = s.dt := rfl
@[simp] theorem State.setI_st (s : State) (i : Word) : (s.setI i).st = s.st := rfl
@[simp] theorem State.setI_stack (s : State) (i : Word) : (s.setI i).stack = s.stack := rfl
@[simp] theorem State.setI_mem (s : State) (i : Word) : (s.setI i).mem = s.mem := rfl
@[simp] theorem State.setI_fb (s : State) (i : Word) : (s.setI i).fb = s.fb := rfl
@[simp] theorem State.setI_redraw (s : State) (i : Word) : (s.setI i).redraw = s.redraw := rfl
@[simp] theorem State.setI_status (s : State) (i : Word) : (s.setI i).status = s.status := rfl
@[simp] theorem State.setI_keys (s : State) (i : Word) : (s.setI i).keys = s.keys := rfl
@[simp] theorem State.setI_hold (s : State) (i : Word) : (s.setI i).hold = s.hold := rfl
@[simp] theorem State.setI_host (s : State) (i : Word) : (s.setI i).host = s.host := rfl
@[simp] theorem State.setI_out (s : State) (i : Word) : (s.setI i).out = s.out := rfl
@[simp] theorem State.setI_draws (s : State) (i : Word) : (s.setI i).draws = s.draws := rfl
@[simp] theorem State.setI_cfg (s : State) (i : Word) : (s.setI i).cfg = s.cfg := rfl

@[simp] theorem State.setPc_v (s : State) (pc : Word) : (s.setPc pc).v = s.v := rfl
@[simp] theorem State.setPc_i (s : State) (pc : Word) : (s.setPc pc).i = s.i := rfl
@[simp] theorem State.setPc_pc (s : State) (pc : Word) : (s.setPc pc).pc = pc := rfl
@[simp] theorem State.setPc_dt (s : State) (pc : Word) : (s.setPc pc).dt = s.dt := rfl
@[simp] theorem State.setPc_st (s : State) (pc : Word) : (s.setPc pc).st = s.st := rfl
@[simp] theorem State.setPc_stack (s : State) (pc : Word) : (s.setPc pc).stack = s.stack := rfl
@[simp] theorem State.setPc_mem (s : State) (pc : Word) : (s.setPc pc).mem = s.mem := rfl
@[simp] theorem State.setPc_fb (s : State) (pc : Word) : (s.setPc pc).fb = s.fb := rfl
@[simp] theorem State.setPc_redraw (s : State) (pc : Word) : (s.setPc pc).redraw = s.redraw := rfl
@[simp] theorem State.setPc_status (s : State) (pc : Word) : (s.setPc pc).status = s.status := rfl
@[simp] theorem State.setPc_keys (s : State) (pc : Word) : (s.setPc pc).keys = s.keys := rfl
@[simp] theorem State.setPc_hold (s : State) (pc : Word) : (s.setPc pc).hold = s.hold := rfl
@[simp] theorem State.setPc_host (s : State) (pc : Word) : (s.setPc pc).host = s.host := rfl
@[simp] theorem State.setPc_out (s : State) (pc : Word) : (s.setPc pc).out = s.out := rfl
@[simp] theorem State.setPc_draws (s : State) (pc : Word) : (s.setPc pc).draws = s.draws := rfl
@[simp] theorem State.setPc_cfg (s : State) (pc : Word) : (s.setPc pc).cfg = s.cfg := rfl

@[simp] theorem State.setDt_v (s : State) (d : Byte) : (s.setDt d).v = s.v := rfl
@[simp] theorem State.setDt_i (s : State) (d : Byte) : (s.setDt d).i = s.i := rfl
@[simp] theorem State.setDt_pc (s : State) (d : Byte) : (s.setDt d).pc = s.pc := rfl
@[simp] theorem State.setDt_dt (s : State) (d : Byte) : (s.setDt d).dt = d := rfl
@[simp] theorem State.setDt_st (s : State) (d : Byte) : (s.setDt d).st = s.st := rfl
@[simp] theorem State.setDt_stack (s : State) (d : Byte) : (s.setDt d).stack = s.stack := rfl
@[simp] theorem State.setDt_mem (s : State) (d : Byte) : (s.setDt d).mem = s.mem := rfl
@[simp] theorem State.setDt_fb (s : State) (d : Byte) : (s.setDt d).fb = s.fb := rfl
@[simp] theorem State.setDt_redraw (s : State) (d : Byte) : (s.setDt d).redraw = s.redraw := rfl
@[simp] theorem State.setDt_status (s : State) (d : Byte) : (s.setDt d).status = s.status := rfl
@[simp] theorem State.setDt_keys (s : State) (d : Byte) : (s.setDt d).keys = s.keys := rfl
@[simp] theorem State.setDt_hold (s : State) (d : Byte) : (s.setDt d).hold = s.hold := rfl
@[simp] theorem State.setDt_host (s : State) (d : Byte) : (s.setDt d).host = s.host := rfl
@[simp] theorem State.setDt_out (s : State) (d : Byte) : (s.setDt d).out = s.out := rfl
@[simp] theorem State.setDt_draws (s : State) (d : Byte) : (s.setDt d).draws = s.draws := rfl
@[simp] theorem State.setDt_cfg (s : State) (d : Byte) : (s.setDt d).cfg = s.cfg := rfl

@[simp] theorem State.setSt_v (s : State) (d : Byte) : (s.setSt d).v = s.v := rfl
@[simp] theorem State.setSt_i (s : State) (d : Byte) : (s.setSt d).i = s.i := rfl
@[simp] theorem State.setSt_pc (s : State) (d : Byte) : (s.setSt d).pc = s.pc := rfl
@[simp] theorem State.setSt_dt (s : State) (d : Byte) : (s.setSt d).dt = s.dt := rfl
@[simp] theorem State.setSt_st (s : State) (d : Byte) : (s.setSt d).st = d := rfl
@[simp] theorem State.setSt_stack (s : State) (d : Byte) : (s.setSt d).stack = s.stack := rfl
@[simp] theorem State.setSt_mem (s : State) (d : Byte) : (s.setSt d).mem = s.mem := rfl
@[simp] theorem State.setSt_fb (s : State) (d : Byte) : (s.setSt d).fb = s.fb := rfl
@[simp] theorem State.setSt_redraw (s : State) (d : Byte) : (s.setSt d).redraw = s.redraw := rfl
@[simp] theorem State.setSt_status (s : State) (d : Byte) : (s.setSt d).status = s.status := rfl
@[simp] theorem State.setSt_keys (s : State) (d : Byte) : (s.setSt d).keys = s.keys := rfl
@[simp] theorem State.setSt_hold (s : State) (d : Byte) : (s.setSt d).hold = s.hold := rfl
@[simp] theorem State.setSt_host (s : State) (d : Byte) : (s.setSt d).host = s.host := rfl
@[simp] theorem State.setSt_out (s : State) (d : Byte) : (s.setSt d).out = s.out := rfl
@[simp] theorem State.setSt_draws (s : State) (d : Byte) : (s.setSt d).draws = s.draws := rfl
@[simp] theorem State.setSt_cfg (s : State) (d : Byte) : (s.setSt d).cfg = s.cfg := rfl

@[simp] theorem State.setStack_v (s : State) (l : List Word) : (s.setStack l).v = s.v := rfl
@[simp] theorem State.setStack_i (s : State) (l : List Word) : (s.setStack l).i = s.i := rfl
@[simp] theorem State.setStack_pc (s : State) (l : List Word) : (s.setStack l).pc = s.pc := rfl
@[simp] theorem State.setStack_dt (s : State) (l : List Word) : (s.setStack l).dt = s.dt := rfl
@[simp] theorem State.setStack_st (s : State) (l : List Word) : (s.setStack l).st = s.st := rfl
@[simp] theorem State.setStack_stack (s : State) (l : List Word) : (s.setStack l).stack = l := rfl
@[simp] theorem State.setStack_mem (s : State) (l : List Word) : (s.setStack l).mem = s.mem := rfl
@[simp] theorem State.setStack_fb (s : State) (l : List Word) : (s.setStack l).fb = s.fb := rfl
@[simp] theorem State.setStack_redraw (s : State) (l : List Word) : (s.setStack l).redraw = s.redraw := rfl
@[simp] theorem State.setStack_status (s : State) (l : List Word) : (s.setStack l).status = s.status := rfl
@[simp] theorem State.setStack_keys (s : State) (l : List Word) : (s.setStack l).keys = s.keys := rfl
@[simp] theorem State.setStack_hold (s : State) (l : List Word) : (s.setStack l).hold = s.hold := rfl
@[simp] theorem State.setStack_host (s : State) (l : List Word) : (s.setStack l).host = s.host := rfl
@[simp] theorem State.setStack_out (s : State) (l : List Word) : (s.setStack l).out = s.out := rfl
@[simp] theorem State.setStack_draws (s : State) (l : List Word) : (s.setStack l).draws = s.draws := rfl
@[simp] theorem State.setStack_cfg (s : State) (l : List Word) : (s.setStack l).cfg = s.cfg := rfl

@[simp] theorem State.setMem_v (s : State) (m : List Host.Cell) : (s.setMem m).v = s.v := rfl
@[simp] theorem State.setMem_i (s : State) (m : List Host.Cell) : (s.setMem m).i = s.i := rfl
@[simp] theorem State.setMem_pc (s : State) (m : List Host.Cell) : (s.setMem m).pc = s.pc := rfl
@[simp] theorem State.setMem_dt (s : State) (m : List Host.Cell) : (s.setMem m).dt = s.dt := rfl
@[simp] theorem State.setMem_st (s : State) (m : List Host.Cell) : (s.setMem m).st = s.st := rfl
@[simp] theorem State.setMem_stack (s : State) (m : List Host.Cell) : (s.setMem m).stack = s.stack := rfl
@[simp] theorem State.setMem_mem (s : State) (m : List Host.Cell) : (s.setMem m).mem = m := rfl
@[simp] theorem State.setMem_fb (s : State) (m : List Host.Cell) : (s.setMem m).fb = s.fb := rfl
@[simp] theorem State.setMem_redraw (s : State) (m : List Host.Cell) : (s.setMem m).redraw = s.redraw := rfl
@[simp] theorem State.setMem_status (s : State) (m : List Host.Cell) : (s.setMem m).status = s.status := rfl
@[simp] theorem State.setMem_keys (s : State) (m : List Host.Cell) : (s.setMem m).keys = s.keys := rfl
@[simp] theorem State.setMem_hold (s : State) (m : List Host.Cell) : (s.setMem m).hold = s.hold := rfl
@[simp] theorem State.setMem_host (s : State) (m : List Host.Cell) : (s.setMem m).host = s.host := rfl
@[simp] theorem State.setMem_out (s : State) (m : List Host.Cell) : (s.setMem m).out = s.out := rfl
@[simp] theorem State.setMem_draws (s : State) (m : List Host.Cell) : (s.setMem m).draws = s.draws := rfl
@[simp] theorem State.setMem_cfg (s : State) (m : List Host.Cell) : (s.setMem m).cfg = s.cfg := rfl

@[simp] theorem State.setFb_v (s : State) (f : FrameBuffer) : (s.setFb f).v = s.v := rfl
@[simp] theorem State.setFb_i (s : State) (f : FrameBuffer) : (s.setFb f).i = s.i := rfl
@[simp] theorem State.setFb_pc (s : State) (f : FrameBuffer) : (s.setFb f).pc = s.pc := rfl
@[simp] theorem State.setFb_dt (s : State) (f : FrameBuffer) : (s.setFb f).dt = s.dt := rfl
@[simp] theorem State.setFb_st (s : State) (f : FrameBuffer) : (s.setFb f).st = s.st := rfl
@[simp] theorem State.setFb_stack (s : State) (f : FrameBuffer) : (s.setFb f).stack = s.stack := rfl
@[simp] theorem State.setFb_mem (s : State) (f : FrameBuffer) : (s.setFb f).mem = s.mem := rfl
@[simp] theorem State.setFb_fb (s : State) (f : FrameBuffer) : (s.setFb f).fb = f := rfl
@[simp] theorem State.setFb_redraw (s : State) (f : FrameBuffer) : (s.setFb f).redraw = s.redraw := rfl
@[simp] theorem State.setFb_status (s : State) (f : FrameBuffer) : (s.setFb f).status = s.status := rfl
@[simp] theorem State.setFb_keys (s : State) (f : FrameBuffer) : (s.setFb f).keys = s.keys := rfl
@[simp] theorem State.setFb_hold (s : State) (f : FrameBuffer) : (s.setFb f).hold = s.hold := rfl
@[simp] theorem State.setFb_host (s : State) (f : FrameBuffer) : (s.setFb f).host = s.host := rfl
@[simp] theorem State.setFb_out (s : State) (f : FrameBuffer) : (s.setFb f).out = s.out := rfl
@[simp] theorem State.setFb_draws (s : State) (f : FrameBuffer) : (s.setFb f).draws = s.draws := rfl
@[simp] theorem State.setFb_cfg (s : State) (f : FrameBuffer) : (s.setFb f).cfg = s.cfg := rfl

@[simp] theorem State.setRedraw_v (s : State) (b : Bool) : (s.setRedraw b).v = s.v := rfl
@[simp] theorem State.setRedraw_i (s : State) (b : Bool) : (s.setRedraw b).i = s.i := rfl
@[simp] theorem State.setRedraw_pc (s : State) (b : Bool) : (s.setRedraw b).pc = s.pc := rfl
@[simp] theorem State.setRedraw_dt (s : State) (b : Bool) : (s.setRedraw b).dt = s.dt := rfl
@[simp] theorem State.setRedraw_st (s : State) (b : Bool) : (s.setRedraw b).st = s.st := rfl
@[simp] theorem State.setRedraw_stack (s : State) (b : Bool) : (s.setRedraw b).stack = s.stack := rfl
@[simp] theorem State.setRedraw_mem (s : State) (b : Bool) : (s.setRedraw b).mem = s.mem := rfl
@[simp] theorem State.setRedraw_fb (s : State) (b : Bool) : (s.setRedraw b).fb = s.fb := rfl
@[simp] theorem State.setRedraw_redraw (s : State) (b : Bool) : (s.setRedraw b).redraw = b := rfl
@[simp] theorem State.setRedraw_status (s : State) (b : Bool) : (s.setRedraw b).status = s.status := rfl
@[simp] theorem State.setRedraw_keys (s : State) (b : Bool) : (s.setRedraw b).keys = s.keys := rfl
@[simp] theorem State.setRedraw_hold (s : State) (b : Bool) : (s.setRedraw b).hold = s.hold := rfl
@[simp] theorem State.setRedraw_host (s : State) (b : Bool) : (s.setRedraw b).host = s.host := rfl
@[simp] theorem State.setRedraw_out (s : State) (b : Bool) : (s.setRedraw b).out = s.out := rfl
@[simp] theorem State.setRedraw_draws (s : State) (b : Bool) : (s.setRedraw b).draws = s.draws := rfl
@[simp] theorem State.setRedraw_cfg (s : State) (b : Bool) : (s.setRedraw b).cfg = s.cfg := rfl

@[simp] theorem State.setStatus_v (s : State) (c : Status) : (s.setStatus c).v = s.v := rfl
@[simp] theorem State.setStatus_i (s : State) (c : Status) : (s.setStatus c).i = s.i := rfl
@[simp] theorem State.setStatus_pc (s : State) (c : Status) : (s.setStatus c).pc = s.pc := rfl
@[simp] theorem State.setStatus_dt (s : State) (c : Status) : (s.setStatus c).dt = s.dt := rfl
@[simp] theorem State.setStatus_st (s : State) (c : Status) : (s.setStatus c).st = s.st := rfl
@[simp] theorem State.setStatus_stack (s : State) (c : Status) : (s.setStatus c).stack = s.stack := rfl
@[simp] theorem State.setStatus_mem (s : State) (c : Status) : (s.setStatus c).mem = s.mem := rfl
@[simp] theorem State.setStatus_fb (s : State) (c : Status) : (s.setStatus c).fb = s.fb := rfl
@[simp] theorem State.setStatus_redraw (s : State) (c : Status) : (s.setStatus c).redraw = s.redraw := rfl
@[simp] theorem State.setStatus_status (s : State) (c : Status) : (s.setStatus c).status = c := rfl
@[simp] theorem State.setStatus_keys (s : State) (c : Status) : (s.setStatus c).keys = s.keys := rfl
@[simp] theorem State.setStatus_hold (s : State) (c : Status) : (s.setStatus c).hold = s.hold := rfl
@[simp] theorem State.setStatus_host (s : State) (c : Status) : (s.setStatus c).host = s.host := rfl
@[simp] theorem State.setStatus_out (s : State) (c : Status) : (s.setStatus c).out = s.out := rfl
@[simp] theorem State.setStatus_draws (s : State) (c : Status) : (s.setStatus c).draws = s.draws := rfl
@[simp] theorem State.setStatus_cfg (s : State) (c : Status) : (s.setStatus c).cfg = s.cfg := rfl

@[simp] theorem State.setKeys_v (s : State) (k : BitVec 16) : (s.setKeys k).v = s.v := rfl
@[simp] theorem State.setKeys_i (s : State) (k : BitVec 16) : (s.setKeys k).i = s.i := rfl
@[simp] theorem State.setKeys_pc (s : State) (k : BitVec 16) : (s.setKeys k).pc = s.pc := rfl
@[simp] theorem State.setKeys_dt (s : State) (k : BitVec 16) : (s.setKeys k).dt = s.dt := rfl
@[simp] theorem State.setKeys_st (s : State) (k : BitVec 16) : (s.setKeys k).st = s.st := rfl
@[simp] theorem State.setKeys_stack (s : State) (k : BitVec 16) : (s.setKeys k).stack = s.stack := rfl
@[simp] theorem State.setKeys_mem (s : State) (k : BitVec 16) : (s.setKeys k).mem = s.mem := rfl
@[simp] theorem State.setKeys_fb (s : State) (k : BitVec 16) : (s.setKeys k).fb = s.fb := rfl
@[simp] theorem State.setKeys_redraw (s : State) (k : BitVec 16) : (s.setKeys k).redraw = s.redraw := rfl
@[simp] theorem State.setKeys_status (s : State) (k : BitVec 16) : (s.setKeys k).status = s.status := rfl
@[simp] theorem State.setKeys_keys (s : State) (k : BitVec 16) : (s.setKeys k).keys = k := rfl
@[simp] theorem State.setKeys_hold (s : State) (k : BitVec 16) : (s.setKeys k).hold = s.hold := rfl
@[simp] theorem State.setKeys_host (s : State) (k : BitVec 16) : (s.setKeys k).host = s.host := rfl
@[simp] theorem State.setKeys_out (s : State) (k : BitVec 16) : (s.setKeys k).out = s.out := rfl
@[simp] theorem State.setKeys_draws (s : State) (k : BitVec 16) : (s.setKeys k).draws = s.draws := rfl
@[simp] theorem State.setKeys_cfg (s : State) (k : BitVec 16) : (s.setKeys k).cfg = s.cfg := rfl

@[simp] theorem State.setHold_v (s : State) (b : Bool) : (s.setHold b).v = s.v := rfl
@[simp] theorem State.setHold_i (s : State) (b : Bool) : (s.setHold b).i = s.i := rfl
@[simp] theorem State.setHold_pc (s : State) (b : Bool) : (s.setHold b).pc = s.pc := rfl
@[simp] theorem State.setHold_dt (s : State) (b : Bool) : (s.setHold b).dt = s.dt := rfl
@[simp] theorem State.setHold_st (s : State) (b : Bool) : (s.setHold b).st = s.st := rfl
@[simp] theorem State.setHold_stack (s : State) (b : Bool) : (s.setHold b).stack = s.stack := rfl
@[simp] theorem State.setHold_mem (s : State) (b : Bool) : (s.setHold b).mem = s.mem := rfl
@[simp] theorem State.setHold_fb (s : State) (b : Bool) : (s.setHold b).fb = s.fb := rfl
@[simp] theorem State.setHold_redraw (s : State) (b : Bool) : (s.setHold b).redraw = s.redraw := rfl
@[simp] theorem State.setHold_status (s : State) (b : Bool) : (s.setHold b).status = s.status := rfl
@[simp] theorem State.setHold_keys (s : State) (b : Bool) : (s.setHold b).keys = s.keys := rfl
@[simp] theorem State.setHold_hold (s : State) (b : Bool) : (s.setHold b).hold = b := rfl
@[simp] theorem State.setHold_host (s : State) (b : Bool) : (s.setHold b).host = s.host := rfl
@[simp] theorem State.setHold_out (s : State) (b : Bool) : (s.setHold b).out = s.out := rfl
@[simp] theorem State.setHold_draws (s : State) (b : Bool) : (s.setHold b).draws = s.draws := rfl
@[simp] theorem State.setHold_cfg (s : State) (b : Bool) : (s.setHold b).cfg = s.cfg := rfl

@[simp] theorem State.setHost_v (s : State) (h : HostScript) : (s.setHost h).v = s.v := rfl
@[simp] theorem State.setHost_i (s : State) (h : HostScript) : (s.setHost h).i = s.i := rfl
@[simp] theorem State.setHost_pc (s : State) (h : HostScript) : (s.setHost h).pc = s.pc := rfl
@[simp] theorem State.setHost_dt (s : State) (h : HostScript) : (s.setHost h).dt = s.dt := rfl
@[simp] theorem State.setHost_st (s : State) (h : HostScript) : (s.setHost h).st = s.st := rfl
@[simp] theorem State.setHost_stack (s : State) (h : HostScript) : (s.setHost h).stack = s.stack := rfl
@[simp] theorem State.setHost_mem (s : State) (h : HostScript) : (s.setHost h).mem = s.mem := rfl
@[simp] theorem State.setHost_fb (s : State) (h : HostScript) : (s.setHost h).fb = s.fb := rfl
@[simp] theorem State.setHost_redraw (s : State) (h : HostScript) : (s.setHost h).redraw = s.redraw := rfl
@[simp] theorem State.setHost_status (s : State) (h : HostScript) : (s.setHost h).status = s.status := rfl
@[simp] theorem State.setHost_keys (s : State) (h : HostScript) : (s.setHost h).keys = s.keys := rfl
@[simp] theorem State.setHost_hold (s : State) (h : HostScript) : (s.setHost h).hold = s.hold := rfl
@[simp] theorem State.setHost_host (s : State) (h : HostScript) : (s.setHost h).host = h := rfl
@[simp] theorem State.setHost_out (s : State) (h : HostScript) : (s.setHost h).out = s.out := rfl
@[simp] theorem State.setHost_draws (s : State) (h : HostScript) : (s.setHost h).draws = s.draws := rfl
@[simp] theorem State.setHost_cfg (s : State) (h : HostScript) : (s.setHost h).cfg = s.cfg := rfl

@[simp] theorem State.setDraws_v (s : State) (n : Nat) : (s.setDraws n).v = s.v := rfl
@[simp] theorem State.setDraws_i (s : State) (n : Nat) : (s.setDraws n).i = s.i := rfl
@[simp] theorem State.setDraws_pc (s : State) (n : Nat) : (s.setDraws n).pc = s.pc := rfl
@[simp] theorem State.setDraws_dt (s : State) (n : Nat) : (s.setDraws n).dt = s.dt := rfl
@[simp] theorem State.setDraws_st (s : State) (n : Nat) : (s.setDraws n).st = s.st := rfl
@[simp] theorem State.setDraws_stack (s : State) (n : Nat) : (s.setDraws n).stack = s.stack := rfl
@[simp] theorem State.setDraws_mem (s : State) (n : Nat) : (s.setDraws n).mem = s.mem := rfl
@[simp] theorem State.setDraws_fb (s : State) (n : Nat) : (s.setDraws n).fb = s.fb := rfl
@[simp] theorem State.setDraws_redraw (s : State) (n : Nat) : (s.setDraws n).redraw = s.redraw := rfl
@[simp] theorem State.setDraws_status (s : State) (n : Nat) : (s.setDraws n).status = s.status := rfl
@[simp] theorem State.setDraws_keys (s : State) (n : Nat) : (s.setDraws n).keys = s.keys := rfl
@[simp] theorem State.setDraws_hold (s : State) (n : Nat) : (s.setDraws n).hold = s.hold := rfl
@[simp] theorem State.setDraws_host (s : State) (n : Nat) : (s.setDraws n).host = s.host := rfl
@[simp] theorem State.setDraws_out (s : State) (n : Nat) : (s.setDraws n).out = s.out := rfl
@[simp] theorem State.setDraws_draws (s : State) (n : Nat) : (s.setDraws n).draws = n := rfl
@[simp] theorem State.setDraws_cfg (s : State) (n : Nat) : (s.setDraws n).cfg = s.cfg := rfl

@[simp] theorem State.emit_v (s : State) (es : List Event) : (s.emit es).v = s.v := rfl
@[simp] theorem State.emit_i (s : State) (es : List Event) : (s.emit es).i = s.i := rfl
@[simp] theorem State.emit_pc (s : State) (es : List Event) : (s.emit es).pc = s.pc := rfl
@[simp] theorem State.emit_dt (s : State) (es : List Event) : (s.emit es).dt = s.dt := rfl
@[simp] theorem State.emit_st (s : State) (es : List Event) : (s.emit es).st = s.st := rfl
@[simp] theorem State.emit_stack (s : State) (es : List Event) : (s.emit es).stack = s.stack := rfl
@[simp] theorem State.emit_mem (s : State) (es : List Event) : (s.emit es).mem = s.mem := rfl
@[simp] theorem State.emit_fb (s : State) (es : List Event) : (s.emit es).fb = s.fb := rfl
@[simp] theorem State.emit_redraw (s : State) (es : List Event) : (s.emit es).redraw = s.redraw := rfl
@[simp] theorem State.emit_status (s : State) (es : List Event) : (s.emit es).status = s.status := rfl
@[simp] theorem State.emit_keys (s : State) (es : List Event) : (s.emit es).keys = s.keys := rfl
@[simp] theorem State.emit_hold (s : State) (es : List Event) : (s.emit es).hold = s.hold := rfl
@[simp] theorem State.emit_host (s : State) (es : List Event) : (s.emit es).host = s.host := rfl
@[simp] theorem State.emit_out (s : State) (es : List Event) : (s.emit es).out = s.out ++ es := rfl
@[simp] theorem State.emit_draws (s : State) (es : List Event) : (s.emit es).draws = s.draws := rfl
@[simp] theorem State.emit_cfg (s : State) (es : List Event) : (s.emit es).cfg = s.cfg := rfl

@[simp] theorem State.setReg_i (s : State) (x : Reg) (b : Byte) : (s.setReg x b).i = s.i := rfl
@[simp] theorem State.setReg_pc (s : State) (x : Reg) (b : Byte) : (s.setReg x b).pc = s.pc := rfl
@[simp] theorem State.setReg_dt (s : State) (x : Reg) (b : Byte) : (s.setReg x b).dt = s.dt := rfl
@[simp] theorem State.setReg_st (s : State) (x : Reg) (b : Byte) : (s.setReg x b).st = s.st := rfl
@[simp] theorem State.setReg_stack (s : State) (x : Reg) (b : Byte) : (s.setReg x b).stack = s.stack := rfl
@[simp] theorem State.setReg_mem (s : State) (x : Reg) (b : Byte) : (s.setReg x b).mem = s.mem := rfl
@[simp] theorem State.setReg_fb (s : State) (x : Reg) (b : Byte) : (s.setReg x b).fb = s.fb := rfl
@[simp] theorem State.setReg_redraw (s : State) (x : Reg) (b : Byte) : (s.setReg x b).redraw = s.redraw := rfl
@[simp] theorem State.setReg_status (s : State) (x : Reg) (b : Byte) : (s.setReg x b).status = s.status := rfl
@[simp] theorem State.setReg_keys (s : State) (x : Reg) (b : Byte) : (s.setReg x b).keys = s.keys := rfl
@[simp] theorem State.setReg_hold (s : State) (x : Reg) (b : Byte) : (s.setReg x b).hold = s.hold := rfl
@[simp] theorem State.setReg_host (s : State) (x : Reg) (b : Byte) : (s.setReg x b).host = s.host := rfl
@[simp] theorem State.setReg_out (s : State) (x : Reg) (b : Byte) : (s.setReg x b).out = s.out := rfl
@[simp] theorem State.setReg_draws (s : State) (x : Reg) (b : Byte) : (s.setReg x b).draws = s.draws := rfl
@[simp] theorem State.setReg_cfg (s : State) (x : Reg) (b : Byte) : (s.setReg x b).cfg = s.cfg := rfl

@[simp] theorem State.setByte_v (s : State) (a : Nat) (b : Byte) : (s.setByte a b).v = s.v := rfl
@[simp] theorem State.setByte_i (s : State) (a : Nat) (b : Byte) : (s.setByte a b).i = s.i := rfl
@[simp] theorem State.setByte_pc (s : State) (a : Nat) (b : Byte) : (s.setByte a b).pc = s.pc := rfl
@[simp] theorem State.setByte_dt (s : State) (a : Nat) (b : Byte) : (s.setByte a b).dt = s.dt := rfl
@[simp] theorem State.setByte_st (s : State) (a : Nat) (b : Byte) : (s.setByte a b).st = s.st := rfl
@[simp] theorem State.setByte_stack (s : State) (a : Nat) (b : Byte) : (s.setByte a b).stack = s.stack := rfl
@[simp] theorem State.setByte_fb (s : State) (a : Nat) (b : Byte) : (s.setByte a b).fb = s.fb := rfl
@[simp] theorem State.setByte_redraw (s : State) (a : Nat) (b : Byte) : (s.setByte a b).redraw = s.redraw := rfl
@[simp] theorem State.setByte_status (s : State) (a : Nat) (b : Byte) : (s.setByte a b).status = s.status := rfl
@[simp] theorem State.setByte_keys (s : State) (a : Nat) (b : Byte) : (s.setByte a b).keys = s.keys := rfl
@[simp] theorem State.setByte_hold (s : State) (a : Nat) (b : Byte) : (s.setByte a b).hold = s.hold := rfl
@[simp] theorem State.setByte_host (s : State) (a : Nat) (b : Byte) : (s.setByte a b).host = s.host := rfl
@[simp] theorem State.setByte_out (s : State) (a : Nat) (b : Byte) : (s.setByte a b).out = s.out := rfl
@[simp] theorem State.setByte_draws (s : State) (a : Nat) (b : Byte) : (s.setByte a b).draws = s.draws := rfl
@[simp] theorem State.setByte_cfg (s : State) (a : Nat) (b : Byte) : (s.setByte a b).cfg = s.cfg := rfl

/-! The register file: a write is read back, and leaves every other register alone. -/

theorem State.reg_setReg (s : State) (x r : Reg) (b : Byte) :
    (s.setReg x b).reg r = if r = x then b else s.reg r := by
  simp only [State.reg, State.setReg, State.setV_v, Vector.getElem_set, Fin.ext_iff]
  by_cases h : x.val = r.val
  · simp [h]
  · simp [h, Ne.symm h]

@[simp] theorem State.reg_setReg_same (s : State) (x : Reg) (b : Byte) : (s.setReg x b).reg x = b := by
  simp [State.reg_setReg]

theorem State.reg_setReg_ne (s : State) {x r : Reg} (b : Byte) (h : r ≠ x) : (s.setReg x b).reg r = s.reg r := by
  simp [State.reg_setReg, h]

/-! The setters of other fields leave the registers and the bytes of memory alone. -/

@[simp] theorem State.byteAt_setV (s : State) (v : Vector Byte 16) (n : Nat) : (s.setV v).byteAt n = s.byteAt n := rfl
@[simp] theorem State.reg_setI (s : State) (i : Word) (r : Reg) : (s.setI i).reg r = s.reg r := rfl
@[simp] theorem State.byteAt_setI (s : State) (i : Word) (n : Nat) : (s.setI i).byteAt n = s.byteAt n := rfl
@[simp] theorem State.reg_setPc (s : State) (pc : Word) (r : Reg) : (s.setPc pc).reg r = s.reg r := rfl
@[simp] theorem State.byteAt_setPc (s : State) (pc : Word) (n : Nat) : (s.setPc pc).byteAt n = s.byteAt n := rfl
@[simp] theorem State.reg_setDt (s : State) (d : Byte) (r : Reg) : (s.setDt d).reg r = s.reg r := rfl
@[simp] theorem State.byteAt_setDt (s : State) (d : Byte) (n : Nat) : (s.setDt d).byteAt n = s.byteAt n := rfl
@[simp] theorem State.reg_setSt (s : State) (d : Byte) (r : Reg) : (s.setSt d).reg r = s.reg r := rfl
@[simp] theorem State.byteAt_setSt (s : State) (d : Byte) (n : Nat) : (s.setSt d).byteAt n = s.byteAt n := rfl
@[simp] theorem State.reg_setStack (s : State) (l : List Word) (r : Reg) : (s.setStack l).reg r = s.reg r := rfl
@[simp] theorem State.byteAt_setStack (s : State) (l : List Word) (n : Nat) : (s.setStack l).byteAt n = s.byteAt n := rfl
@[simp] theorem State.reg_setMem (s : State) (m : List Host.Cell) (r : Reg) : (s.setMem m).reg r = s.reg r := rfl
@[simp] theorem State.reg_setFb (s : State) (f : FrameBuffer) (r : Reg) : (s.setFb f).reg r = s.reg r := rfl
@[simp] theorem State.byteAt_setFb (s : State) (f : FrameBuffer) (n : Nat) : (s.setFb f).byteAt n = s.byteAt n := rfl
@[simp] theorem State.reg_setRedraw (s : State) (b : Bool) (r : Reg) : (s.setRedraw b).reg r = s.reg r := rfl
@[simp] theorem State.byteAt_setRedraw (s : State) (b : Bool) (n : Nat) : (s.setRedraw b).byteAt n = s.byteAt n := rfl
@[simp] theorem State.reg_setStatus (s : State) (c : Status) (r : Reg) : (s.setStatus c).reg r = s.reg r := rfl
@[simp] theorem State.byteAt_setStatus (s : State) (c : Status) (n : Nat) : (s.setStatus c).byteAt n = s.byteAt n := rfl
@[simp] theorem State.reg_setKeys (s : State) (k : BitVec 16) (r : Reg) : (s.setKeys k).reg r = s.reg r := rfl
@[simp] theorem State.byteAt_setKeys (s : State) (k : BitVec 16) (n : Nat) : (s.setKeys k).byteAt n = s.byteAt n := rfl
@[simp] theorem State.reg_setHold (s : State) (b : Bool) (r : Reg) : (s.setHold b).reg r = s.reg r := rfl
@[simp] theorem State.byteAt_setHold (s : State) (b : Bool) (n : Nat) : (s.setHold b).byteAt n = s.byteAt n := rfl
@[simp] theorem State.reg_setHost (s : State) (h : HostScript) (r : Reg) : (s.setHost h).reg r = s.reg r := rfl
@[simp] theorem State.byteAt_setHost (s : State) (h : HostScript) (n : Nat) : (s.setHost h).byteAt n = s.byteAt n := rfl
@[simp] theorem State.reg_setDraws (s : State) (n : Nat) (r : Reg) : (s.setDraws n).reg r = s.reg r := rfl
@[simp] theorem State.byteAt_setDraws (s : State) (n : Nat) (k : Nat) : (s.setDraws n).byteAt k = s.byteAt k := rfl
@[simp] theorem State.reg_emit (s : State) (es : List Event) (r : Reg) : (s.emit es).reg r = s.reg r := rfl
@[simp] theorem State.byteAt_emit (s : State) (es : List Event) (n : Nat) : (s.emit es).byteAt n = s.byteAt n := rfl
@[simp] theorem State.byteAt_setReg (s : State) (x : Reg) (b : Byte) (n : Nat) : (s.setReg x b).byteAt n = s.byteAt n := rfl
@[simp] theorem State.reg_setByte (s : State) (a : Nat) (b : Byte) (r : Reg) : (s.setByte a b).reg r = s.reg r := rfl

end Sys2Proof.Machine
end

