-- ==== Sys2Proof/Laws/Memory.lean ====
section
/-! SUPPORT. The laws of Memory (20_memory.md R71, R76): the canonical form is kept by every operation, a read after a
write gives the byte written, a write leaves every other address alone, and canonical memories that read alike are equal. -/

namespace Sys2Proof.Machine.Memory

variable {d : Nat → Byte}

theorem wf_cons {a : Nat} {v : Byte} {m : List Host.Cell} :
    wf d ((a, v) :: m) = true ↔ a ≤ lastAddr ∧ v ≠ d a ∧ above a m = true ∧ wf d m = true := by
  simp [wf, and_assoc]

theorem wf_tail {e : Host.Cell} {m : List Host.Cell} (h : wf d (e :: m) = true) : wf d m = true :=
  (wf_cons.mp h).2.2.2

theorem above_trans {a b : Nat} {m : List Host.Cell} (h : a ≤ b) (hm : above b m = true) : above a m = true := by
  cases m with
  | nil => rfl
  | cons e m => simp only [above, decide_eq_true_eq] at *; omega

/-- Below the first address of a canonical memory every address is unlisted. -/
theorem read_of_above {a : Nat} {m : List Host.Cell} (hm : wf d m = true) (h : above a m = true) : read d m a = d a := by
  induction m with
  | nil => rfl
  | cons e m ih =>
    obtain ⟨b, w⟩ := e
    have hb : a < b := by simpa [above] using h
    have hw := wf_cons.mp hm
    simp only [read, Nat.ne_of_lt hb, if_false]
    exact ih hw.2.2.2 (above_trans (Nat.le_of_lt hb) hw.2.2.1)

theorem above_write {a b : Nat} {v : Byte} {m : List Host.Cell} (hab : b < a) (h : above b m = true) :
    wf d m = true → above b (write d m a v) = true := by
  intro hm
  cases m with
  | nil => by_cases hv : v = d a <;> simp [write, above, hv, hab]
  | cons e m =>
    obtain ⟨c, w⟩ := e
    have hw := wf_cons.mp hm
    have hc : b < c := by simpa [above] using h
    simp only [write]
    split
    · split <;> simp [above, hab, hc]
    · split
      · split
        · exact above_trans (Nat.le_of_lt hc) hw.2.2.1
        · simp [above, hab]
      · simp [above, hc]

/-- A write keeps the canonical form. -/
theorem wf_write {a : Nat} {v : Byte} {m : List Host.Cell} (ha : a ≤ lastAddr) (hm : wf d m = true) :
    wf d (write d m a v) = true := by
  induction m with
  | nil => by_cases hv : v = d a <;> simp [write, wf, above, hv, ha]
  | cons e m ih =>
    obtain ⟨b, w⟩ := e
    have hw := wf_cons.mp hm
    simp only [write]
    split
    · split
      · exact hm
      · exact wf_cons.mpr ⟨ha, ‹_›, by simpa [above], hm⟩
    · split
      · subst_vars
        split
        · exact hw.2.2.2
        · exact wf_cons.mpr ⟨hw.1, ‹_›, hw.2.2.1, hw.2.2.2⟩
      · exact wf_cons.mpr ⟨hw.1, hw.2.1, above_write (by omega) hw.2.2.1 hw.2.2.2, ih hw.2.2.2⟩

/-- A write leaves every other address alone, in any list. -/
theorem read_write_ne {a c : Nat} (v : Byte) {m : List Host.Cell} (h : c ≠ a) : read d (write d m a v) c = read d m c := by
  induction m with
  | nil => by_cases hv : v = d a <;> simp [write, read, hv, h]
  | cons e m ih =>
    obtain ⟨b, w⟩ := e
    simp only [write]
    split
    · split <;> simp [read, h]
    · split
      · subst_vars; split <;> simp [read, h]
      · simp [read, ih]

/-- A read after a write to the same address gives the byte written. -/
theorem read_write_same {a : Nat} (v : Byte) {m : List Host.Cell} (hm : wf d m = true) : read d (write d m a v) a = v := by
  induction m with
  | nil => by_cases hv : v = d a <;> simp [write, read, hv]
  | cons e m ih =>
    obtain ⟨b, w⟩ := e
    have hw := wf_cons.mp hm
    simp only [write]
    split
    · rename_i hab
      split
      · rw [read_of_above hm (by simpa [above] using hab)]; exact Eq.symm ‹_›
      · simp [read]
    · split
      · subst_vars
        split
        · rw [read_of_above hw.2.2.2 hw.2.2.1]; exact Eq.symm ‹_›
        · simp [read]
      · simp only [read, ‹¬ a = b›, if_false]; exact ih hw.2.2.2

/-- What `listed` builds is canonical, when the addresses rise and lie in the address space. -/
theorem wf_listed {f : Nat → Byte} {l : List Nat} (hl : l.Pairwise (· < ·)) (hb : ∀ a ∈ l, a ≤ lastAddr) :
    wf d (listed d f l) = true ∧ ∀ b, (∀ a ∈ l, b < a) → above b (listed d f l) = true := by
  induction l with
  | nil => exact ⟨rfl, fun _ _ => rfl⟩
  | cons a l ih =>
    obtain ⟨h1, h2⟩ := List.pairwise_cons.mp hl
    obtain ⟨iw, ia⟩ := ih h2 (fun c hc => hb c (by simp [hc]))
    simp only [listed]
    split
    · exact ⟨iw, fun b hlt => ia b (fun c hc => hlt c (by simp [hc]))⟩
    · exact ⟨wf_cons.mpr ⟨hb a (by simp), ‹_›, ia a h1, iw⟩, fun b hlt => by simp [above, hlt a (by simp)]⟩

theorem read_listed {f : Nat → Byte} {l : List Nat} (a : Nat) :
    read d (listed d f l) a = if a ∈ l then f a else d a := by
  induction l with
  | nil => simp [listed, read]
  | cons b l ih =>
    simp only [listed]
    by_cases hab : a = b
    · subst hab
      split
      · rw [ih]; simp [*]
      · simp [read]
    · split <;> simp [read, ih, hab]

theorem mem_addresses {a : Nat} : a ∈ addresses ↔ a ≤ lastAddr := by
  unfold addresses; exact List.mem_range.trans Nat.lt_succ_iff

theorem addresses_rise : addresses.Pairwise (· < ·) := by
  unfold addresses; exact List.pairwise_lt_range

/-- The memory built from a reading of the whole address space is canonical. -/
theorem wf_ofBytes (f : Nat → Byte) : wf d (ofBytes d f) = true :=
  (wf_listed addresses_rise (fun _ => mem_addresses.mp)).1

/-- The memory built from a reading reads so at every address of the address space. -/
theorem read_ofBytes (f : Nat → Byte) {a : Nat} (ha : a ≤ lastAddr) : read d (ofBytes d f) a = f a := by
  rw [ofBytes, read_listed, if_pos (mem_addresses.mpr ha)]

end Sys2Proof.Machine.Memory

namespace Sys2Proof.Machine

@[simp] theorem byteAt_setByte_ne (s : State) {a c : Nat} (b : Byte) (h : c ≠ a) : (s.setByte a b).byteAt c = s.byteAt c :=
  Memory.read_write_ne b h

theorem byteAt_setByte_same (s : State) (a : Nat) (b : Byte) (h : Memory.wf (unlisted s.cfg) s.mem = true) :
    (s.setByte a b).byteAt a = b :=
  Memory.read_write_same b h

/-- The memory reset starts with is canonical. -/
theorem reset_memory_wf : Memory.wf (unlisted State.reset.cfg) State.reset.mem = true := rfl

end Sys2Proof.Machine
end

