-- ==== Sys2Proof/Laws/Ops.lean ====
section
/-! SUPPORT. One spec lemma per shared operation of Ops.lean and Operands.lean: what it answers and all it can change.
Provers cite these instead of unfolding the operations. -/

namespace Sys2Proof.Machine

/-! ## Raising a fault -/

@[simp] theorem faulted_status (f : Fault) (s : State) : (faulted f s).status = .haltedFault f := rfl
@[simp] theorem faulted_out (f : Fault) (s : State) : (faulted f s).out = s.out ++ [.stopTone] := rfl
@[simp] theorem faulted_cfg (f : Fault) (s : State) : (faulted f s).cfg = s.cfg := rfl
@[simp] theorem faulted_host (f : Fault) (s : State) : (faulted f s).host = s.host := rfl
@[simp] theorem faulted_draws (f : Fault) (s : State) : (faulted f s).draws = s.draws := rfl
@[simp] theorem faulted_keys (f : Fault) (s : State) : (faulted f s).keys = s.keys := rfl
@[simp] theorem faulted_hold (f : Fault) (s : State) : (faulted f s).hold = false := rfl
@[simp] theorem faulted_isFaulted (f : Fault) (s : State) : (faulted f s).isFaulted = true := rfl

theorem faulted_stack_length (f : Fault) (s : State) : (faulted f s).stack.length ≤ s.cfg.stackDepth := by
  simp only [faulted, List.length_take]; omega

theorem faulted_mem_wf (f : Fault) (s : State) : Memory.wf (unlisted s.cfg) (faulted f s).mem = true := by
  simp only [faulted]; exact Memory.wf_ofBytes _

/-- A raise is the halted state of its fault, with `stop_tone()` called. -/
theorem faultsWith_raise (f : Fault) (s : State) : FaultsWith (raise f s) s f := ⟨faulted f s, rfl, rfl, rfl⟩

theorem raise_eq_next {f : Fault} {s t : State} : raise f s = .next t ↔ t = faulted f s := by
  simp [raise, eq_comm]

theorem isFaulted_eq_false {s : State} : s.isFaulted = false ↔ ∀ f, s.status ≠ .haltedFault f := by
  cases h : s.status <;> simp [State.isFaulted, h]

theorem isFaulted_of_status {s t : State} (h : t.status = s.status) : t.isFaulted = s.isFaulted := by
  simp [State.isFaulted, h]

/-! ## Memory accesses -/

theorem memRead_eq_ok {s : State} {a : Nat} {b : Byte} : memRead s a = .ok b ↔ a ≤ 0xFFF ∧ b = s.byteAt a := by
  rw [memRead]
  by_cases h : a > lastAddr
  · rw [if_pos h]; simp only [lastAddr] at h; simp; omega
  · rw [if_neg h]; simp only [lastAddr] at h; simp [eq_comm]; omega

theorem memRead_eq_error {s : State} {a : Nat} {f : Fault} :
    memRead s a = .error f ↔ 0xFFF < a ∧ f = .memoryOutOfBounds a (s.pc - 2) := by
  rw [memRead]
  by_cases h : a > lastAddr
  · rw [if_pos h]; simp only [lastAddr] at h; simp [eq_comm, State.insnAddr, h]
  · rw [if_neg h]; simp only [lastAddr] at h; simp; omega

theorem inFont_iff {c : Config} {a : Nat} : inFont c a = true ↔ c.fontBase ≤ a ∧ a ≤ c.fontBase + 79 := by
  simp only [inFont, Bool.and_eq_true, decide_eq_true_eq]
  simp only [fontSize]; omega

theorem memWrite_eq_ok {s t : State} {a : Nat} {b : Byte} :
    memWrite s a b = .ok t ↔ Storable s.cfg a ∧ t = s.setByte a b := by
  rw [memWrite, Storable, ← inFont_iff]
  by_cases h : a > lastAddr
  · rw [if_pos h]; simp only [lastAddr] at h; simp; omega
  · rw [if_neg h]; simp only [lastAddr, Nat.not_lt] at h
    cases inFont s.cfg a <;> simp [h, eq_comm]

theorem memWrite_eq_error {s : State} {a : Nat} {b : Byte} {f : Fault} :
    memWrite s a b = .error f ↔ ¬ Storable s.cfg a ∧ f = storeFault a (s.pc - 2) := by
  rw [memWrite, Storable, ← inFont_iff, storeFault, State.insnAddr]
  by_cases h : a > lastAddr
  · rw [if_pos h]; simp only [lastAddr] at h; rw [if_pos h]
    constructor
    · rintro ⟨⟩; exact ⟨fun h' => by omega, rfl⟩
    · rintro ⟨_, rfl⟩; rfl
  · rw [if_neg h]; simp only [lastAddr] at h; rw [if_neg h]
    cases inFont s.cfg a
    · simp; omega
    · simp [eq_comm]

/-- Writes that all complete change memory alone: they store where the first components say, keep the canonical form, and
leave the font and every other byte as it was. -/
theorem memWriteAll_eq_ok {l : List (Nat × Byte)} {s t : State} (h : memWriteAll s l = .ok t) :
    t = s.setMem t.mem ∧ (∀ e ∈ l, Storable s.cfg e.1) ∧ (∀ a, a ∉ l.map Prod.fst → t.byteAt a = s.byteAt a) ∧
      (Memory.wf (unlisted s.cfg) s.mem = true → Memory.wf (unlisted s.cfg) t.mem = true) := by
  induction l generalizing s with
  | nil => cases h; exact ⟨rfl, by simp, by simp, id⟩
  | cons e l ih =>
    obtain ⟨a, b⟩ := e
    simp only [memWriteAll] at h
    split at h
    · rename_i u hu
      obtain ⟨hs, rfl⟩ := memWrite_eq_ok.mp hu
      obtain ⟨h1, h2, h3, h4⟩ := ih h
      refine ⟨by rw [h1]; rfl, ?_, ?_, ?_⟩
      · intro e he
        rcases List.mem_cons.mp he with rfl | he
        · exact hs
        · exact h2 e he
      · intro c hc
        simp only [List.map_cons, List.mem_cons, not_or] at hc
        rw [h3 c hc.2, byteAt_setByte_ne _ _ hc.1]
      · intro hw
        exact h4 (Memory.wf_write hs.1 hw)
    · cases h

/-- Writes to addresses that can all be stored to complete. -/
theorem memWriteAll_ok_of_storable {l : List (Nat × Byte)} {s : State} (h : ∀ e ∈ l, Storable s.cfg e.1) :
    ∃ t, memWriteAll s l = .ok t := by
  induction l generalizing s with
  | nil => exact ⟨s, rfl⟩
  | cons e l ih =>
    obtain ⟨a, b⟩ := e
    have h1 := memWrite_eq_ok.mpr ⟨h (a, b) (by simp), (rfl : s.setByte a b = _)⟩
    simp only [memWriteAll, h1]
    exact ih (s := s.setByte a b) (fun e he => h e (by simp [he]))

/-- Each address written once holds the byte written to it. -/
theorem memWriteAll_stores {l : List (Nat × Byte)} {s t : State} (hw : Memory.wf (unlisted s.cfg) s.mem = true)
    (hn : (l.map Prod.fst).Nodup) (h : memWriteAll s l = .ok t) : ∀ e ∈ l, t.byteAt e.1 = e.2 := by
  induction l generalizing s with
  | nil => simp
  | cons e l ih =>
    obtain ⟨a, b⟩ := e
    simp only [List.map_cons, List.nodup_cons] at hn
    simp only [memWriteAll] at h
    split at h
    · rename_i u hu
      obtain ⟨hs, rfl⟩ := memWrite_eq_ok.mp hu
      intro e he
      rcases List.mem_cons.mp he with rfl | he
      · rw [(memWriteAll_eq_ok h).2.2.1 a hn.1, byteAt_setByte_same s a b hw]
      · exact ih (Memory.wf_write hs.1 hw) hn.2 h e he
    · cases h

/-- Writes that do not all complete fault at the first address that cannot be stored to. -/
theorem memWriteAll_eq_error {l : List (Nat × Byte)} {s : State} {f : Fault} (h : memWriteAll s l = .error f) :
    ∃ pre e post, l = pre ++ e :: post ∧ (∀ q ∈ pre, Storable s.cfg q.1) ∧ ¬ Storable s.cfg e.1 ∧
      f = storeFault e.1 (s.pc - 2) := by
  induction l generalizing s with
  | nil => cases h
  | cons e l ih =>
    obtain ⟨a, b⟩ := e
    simp only [memWriteAll] at h
    split at h
    · rename_i u hu
      obtain ⟨hs, rfl⟩ := memWrite_eq_ok.mp hu
      obtain ⟨pre, e, post, rfl, h1, h2, h3⟩ := ih h
      exact ⟨(a, b) :: pre, e, post, rfl, by intro q hq; rcases List.mem_cons.mp hq with rfl | hq; exacts [hs, h1 q hq], h2, h3⟩
    · rename_i g hg
      cases h
      obtain ⟨h1, h2⟩ := memWrite_eq_error.mp hg
      exact ⟨[], (a, b), l, rfl, by simp, h1, h2⟩

/-- The first address of a list that cannot be stored to is where its writes fault. -/
theorem memWriteAll_error_of_first {pre post : List (Nat × Byte)} {e : Nat × Byte} {s : State}
    (hp : ∀ q ∈ pre, Storable s.cfg q.1) (he : ¬ Storable s.cfg e.1) :
    memWriteAll s (pre ++ e :: post) = .error (storeFault e.1 (s.pc - 2)) := by
  induction pre generalizing s with
  | nil => simp only [List.nil_append, memWriteAll, memWrite_eq_error.mpr ⟨he, rfl⟩]
  | cons q pre ih =>
    obtain ⟨a, b⟩ := q
    have h1 := memWrite_eq_ok.mpr ⟨hp (a, b) (by simp), (rfl : s.setByte a b = _)⟩
    simp only [List.cons_append, memWriteAll, h1]
    exact ih (s := s.setByte a b) (fun q hq => hp q (by simp [hq])) he

/-! ## The return-address stack -/

theorem push_eq_ok {s t : State} {w : Word} :
    push s w = .ok t ↔ s.stack.length ≠ s.cfg.stackDepth ∧ t = s.setStack (s.stack ++ [w]) := by
  simp only [push]; split <;> simp_all [eq_comm]

theorem push_eq_error {s : State} {w : Word} {f : Fault} :
    push s w = .error f ↔ s.stack.length = s.cfg.stackDepth ∧ f = .stackOverflow (s.pc - 2) := by
  simp only [push, State.insnAddr]; split <;> simp_all [eq_comm]

theorem pop_eq_ok {s t : State} {w : Word} :
    pop s = .ok (w, t) ↔ ∃ rest, s.stack = rest ++ [w] ∧ t = s.setStack rest := by
  simp only [pop]
  rcases List.eq_nil_or_concat' s.stack with h | ⟨rest, v, h⟩
  · simp [h]
  · rw [h, List.getLast?_concat, List.dropLast_concat]
    constructor
    · intro hp; cases hp; exact ⟨rest, rfl, rfl⟩
    · rintro ⟨r, hr, rfl⟩
      obtain ⟨rfl, hv⟩ := List.append_inj' hr rfl
      cases hv; rfl

theorem pop_eq_error {s : State} {f : Fault} : pop s = .error f ↔ s.stack = [] ∧ f = .stackUnderflow (s.pc - 2) := by
  simp only [pop, State.insnAddr]
  split
  · rename_i h; rw [List.getLast?_eq_none_iff] at h; simp [h, eq_comm]
  · rename_i h; constructor
    · intro hh; cases hh
    · rintro ⟨h0, _⟩; simp [h0] at h

/-! ## The in ports: they change the host's record alone -/

theorem afterRand_eq (s : State) : afterRand s = (s.setHost (afterRand s).host).setDraws (afterRand s).draws := by
  simp only [afterRand]; split <;> rfl

theorem scanInputs_eq (s : State) :
    scanInputs s = ((s.setKeys (scanInputs s).keys).setHost (scanInputs s).host).setDraws (scanInputs s).draws := by
  simp only [scanInputs]; split <;> rfl

theorem afterQuitPoll_eq (s : State) : afterQuitPoll s = s.setHost (afterQuitPoll s).host := by
  rfl

theorem scanInputs_quitIn (s : State) : (scanInputs s).host.quitIn = s.host.quitIn := by
  simp only [scanInputs]; split <;> rfl

theorem scanInputs_answers (s : State) : (scanInputs s).host.answers = s.host.answers := by
  simp only [scanInputs]; split <;> rfl

@[simp] theorem hostAnswer_nil {s : State} (h : s.host.answers = []) : hostAnswer s = none := by rw [hostAnswer, h]

@[simp] theorem hostAnswer_cons {s : State} {a : Option KeyAnswer} {rest : List (Option KeyAnswer)}
    (h : s.host.answers = a :: rest) : hostAnswer s = a := by rw [hostAnswer, h]

/-- A look beyond the script changes nothing: the host never answers (R349). -/
theorem dropAnswer_nil {s : State} (h : s.host.answers = []) : dropAnswer s = s := by
  have hh : { s.host with answers := s.host.answers.tail } = s.host := by
    rw [h, List.tail_nil, ← h]
  rw [dropAnswer, hh]; rfl

theorem dropAnswer_cons {s : State} {a : Option KeyAnswer} {rest : List (Option KeyAnswer)}
    (h : s.host.answers = a :: rest) : dropAnswer s = s.setHost { s.host with answers := rest } := by
  rw [dropAnswer, h, List.tail_cons]

theorem quitAnswer_iff {s : State} : quitAnswer s = true ↔ s.host.quitIn = some 0 := by simp [quitAnswer]

/-! ## Runs of registers -/

theorem mem_regsUpTo {x r : Reg} : r ∈ regsUpTo x ↔ r ≤ x := by revert x r; decide

/-- The loads of a block load, when they all complete: each register listed holds the byte at its address, the others are
as they were, and nothing but the registers has changed. -/
theorem loadEach_eq_ok {l : List Reg} {s t : State} (hn : l.Nodup) (h : loadEach s l = .ok t) :
    t = s.setV t.v ∧ (∀ r ∈ l, s.i.toNat + r.val ≤ 0xFFF) ∧ (∀ r ∈ l, t.reg r = s.byteAt (s.i.toNat + r.val)) ∧
      (∀ r, r ∉ l → t.reg r = s.reg r) := by
  induction l generalizing s with
  | nil => cases h; exact ⟨rfl, by simp, by simp, by simp⟩
  | cons q l ih =>
    simp only [loadEach] at h
    split at h
    · rename_i b hb
      obtain ⟨ha, rfl⟩ := memRead_eq_ok.mp hb
      obtain ⟨hq, hl⟩ := List.nodup_cons.mp hn
      obtain ⟨h1, h2, h3, h4⟩ := ih hl h
      refine ⟨by rw [h1]; rfl, ?_, ?_, ?_⟩
      · intro r hr
        rcases List.mem_cons.mp hr with rfl | hr
        · exact ha
        · exact h2 r hr
      · intro r hr
        rcases List.mem_cons.mp hr with rfl | hr
        · rw [h4 r hq]; simp [effAddr]
        · exact h3 r hr
      · intro r hr
        simp only [List.mem_cons, not_or] at hr
        rw [h4 r hr.2, State.reg_setReg_ne _ _ hr.1]
    · cases h

theorem loadEach_ok_of_bounds {l : List Reg} {s : State} (h : ∀ r ∈ l, s.i.toNat + r.val ≤ 0xFFF) :
    ∃ t, loadEach s l = .ok t := by
  induction l generalizing s with
  | nil => exact ⟨s, rfl⟩
  | cons q l ih =>
    have h1 : memRead s (effAddr s q.val) = .ok _ := memRead_eq_ok.mpr ⟨h q (by simp), rfl⟩
    simp only [loadEach, h1]
    exact ih (fun r hr => h r (by simp [hr]))

theorem loadEach_eq_error {l : List Reg} {s : State} {f : Fault} (h : loadEach s l = .error f) :
    ∃ pre r post, l = pre ++ r :: post ∧ (∀ q ∈ pre, s.i.toNat + q.val ≤ 0xFFF) ∧ 0xFFF < s.i.toNat + r.val ∧
      f = .memoryOutOfBounds (s.i.toNat + r.val) (s.pc - 2) := by
  induction l generalizing s with
  | nil => cases h
  | cons q l ih =>
    simp only [loadEach] at h
    split at h
    · rename_i b hb
      obtain ⟨ha, rfl⟩ := memRead_eq_ok.mp hb
      obtain ⟨pre, r, post, rfl, h1, h2, h3⟩ := ih h
      exact ⟨q :: pre, r, post, rfl, by intro p hp; rcases List.mem_cons.mp hp with rfl | hp; exacts [ha, h1 p hp], h2, h3⟩
    · rename_i g hg
      cases h
      obtain ⟨h1, h2⟩ := memRead_eq_error.mp hg
      exact ⟨[], q, l, rfl, by simp, h1, h2⟩

theorem loadEach_error_of_first {pre post : List Reg} {r : Reg} {s : State}
    (hp : ∀ q ∈ pre, s.i.toNat + q.val ≤ 0xFFF) (hr : 0xFFF < s.i.toNat + r.val) :
    loadEach s (pre ++ r :: post) = .error (.memoryOutOfBounds (s.i.toNat + r.val) (s.pc - 2)) := by
  induction pre generalizing s with
  | nil =>
    have h1 : memRead s (effAddr s r.val) = .error _ := memRead_eq_error.mpr ⟨hr, rfl⟩
    simp only [List.nil_append, loadEach, h1]; rfl
  | cons q pre ih =>
    have h1 : memRead s (effAddr s q.val) = .ok _ := memRead_eq_ok.mpr ⟨hp q (by simp), rfl⟩
    simp only [List.cons_append, loadEach, h1]
    exact ih (s := s.setReg q _) (fun p hq => hp p (by simp [hq])) hr

/-! ## Sprites -/

/-- A sprite's rows, when they all lie in Memory: one fold over the rows, each read from the state. -/
theorem drawRows_eq_ok {s : State} {xs ys : Byte} {l : List Nat} {p : FrameBuffer × Bool}
    (h : ∀ r ∈ l, s.i.toNat + r ≤ 0xFFF) :
    drawRows s xs ys l p = .ok (l.foldl (fun p r => drawRow xs ys r (s.byteAt (s.i.toNat + r)) p) p) := by
  induction l generalizing p with
  | nil => rfl
  | cons r l ih =>
    have h1 : memRead s (effAddr s r) = .ok _ := memRead_eq_ok.mpr ⟨h r (by simp), rfl⟩
    simp only [drawRows, h1, List.foldl_cons]
    exact ih (fun q hq => h q (by simp [hq]))

/-- A sprite faults only at a row outside Memory, with the row's address. -/
theorem drawRows_eq_error {s : State} {xs ys : Byte} {l : List Nat} {p : FrameBuffer × Bool} {f : Fault}
    (h : drawRows s xs ys l p = .error f) :
    ∃ pre r post, l = pre ++ r :: post ∧ (∀ q ∈ pre, s.i.toNat + q ≤ 0xFFF) ∧ 0xFFF < s.i.toNat + r ∧
      f = .memoryOutOfBounds (s.i.toNat + r) (s.pc - 2) := by
  induction l generalizing p with
  | nil => cases h
  | cons r l ih =>
    simp only [drawRows] at h
    split at h
    · rename_i b hb
      obtain ⟨ha, rfl⟩ := memRead_eq_ok.mp hb
      obtain ⟨pre, q, post, rfl, h1, h2, h3⟩ := ih h
      exact ⟨r :: pre, q, post, rfl, by intro k hk; rcases List.mem_cons.mp hk with rfl | hk; exacts [ha, h1 k hk], h2, h3⟩
    · rename_i g hg
      cases h
      obtain ⟨h1, h2⟩ := memRead_eq_error.mp hg
      exact ⟨[], r, l, rfl, by simp, h1, h2⟩

theorem pixel_setPixel (fb : FrameBuffer) (x p : Fin 64) (y q : Fin 32) (b : Bool) :
    pixel (setPixel fb x y b) p q = if p = x ∧ q = y then b else pixel fb p q := by
  simp only [pixel, setPixel, Vector.getElem_set, Fin.ext_iff]
  by_cases hx : x.val = p.val
  · by_cases hy : y.val = q.val
    · simp [hx, hy]
    · simp [hx, hy, Ne.symm hy]
  · simp [hx, Ne.symm hx]

theorem pixel_blankScreen (x : Fin 64) (y : Fin 32) : pixel blankScreen x y = false := by
  simp [pixel, blankScreen]

end Sys2Proof.Machine
end

