-- ==== Sys2Proof/Laws/RunLoop.lean ====
section
/-! SUPPORT. One spec lemma per part of the run loop (60_exceptions.md R330 to R338): what it changes, said once. -/

namespace Sys2Proof.Machine

/-! ## The key wait -/

/-- What one look of the key wait can do: wait on, end the run, or write the key and run on (46_keys.md R253). -/
theorem awaitKey_cases (x : Reg) (s : State) :
    (hostAnswer s = none ∧ awaitKey x s = dropAnswer s) ∨
    (hostAnswer s = some .quit ∧ awaitKey x s = (dropAnswer s).setStatus (.haltedNormal .capabilityExit)) ∨
    (∃ k, hostAnswer s = some (.key k) ∧
      awaitKey x s = ((dropAnswer s).setReg x (BitVec.ofNat 8 k.val)).setStatus .running) := by
  rcases h : hostAnswer s with _ | _ | _ <;> simp [awaitKey, h]

/-- What one look of the debug hold can do (60_exceptions.md R338): wait on, also past another key; end the run; or print the
registers and finish the iteration. -/
theorem debugHold_cases (s : State) :
    (hostAnswer s = none ∧ debugHold s = dropAnswer s) ∨
    (hostAnswer s = some .quit ∧
      debugHold s = ((dropAnswer s).setHold false).setStatus (.haltedNormal .capabilityExit)) ∨
    (∃ k, hostAnswer s = some (.key k) ∧ k ≠ s.cfg.continueKey ∧ debugHold s = dropAnswer s) ∨
    (hostAnswer s = some (.key s.cfg.continueKey) ∧
      debugHold s = finishIteration (((dropAnswer s).setHold false).emit [.printRegisters s.v s.i s.pc s.dt s.st])) := by
  rcases h : hostAnswer s with _ | k | _
  · simp [debugHold, h]
  · by_cases hk : k = s.cfg.continueKey <;> simp [debugHold, h, hk]
  · simp [debugHold, h]

/-! ## Timers and render -/

theorem toNat_countOne (b : Byte) : (countOne b).toNat = b.toNat - 1 := by
  have := b.isLt
  rw [countOne]
  by_cases h : b = 0
  · rw [if_pos h, h]; rfl
  · have h0 : b.toNat ≠ 0 := fun h' => h (BitVec.eq_of_toNat_eq h')
    rw [if_neg h, BitVec.toNat_sub]; simp; omega

/-- The end of an iteration that no quit ends (R330): the render, then the countdown. -/
theorem finishIteration_of_no_quit {s : State} (h : s.host.quitIn ≠ some 0) :
    finishIteration s = countdown (renderPending (afterQuitPoll s)) := by
  have : quitAnswer s = false := by simpa [quitAnswer] using h
  rw [finishIteration, this]

/-- The end of an iteration that a quit ends (R332): STATUS alone changes. -/
theorem finishIteration_of_quit {s : State} (h : s.host.quitIn = some 0) :
    finishIteration s = s.setStatus (.haltedNormal .quitRequested) := by
  have : quitAnswer s = true := by simpa [quitAnswer] using h
  rw [finishIteration, this]
  have hq : { s.host with quitIn := s.host.quitIn.map (· - 1) } = s.host := by
    rcases hh : s.host with ⟨a, b, c, d⟩
    rw [hh] at h
    simp only at h
    simp only [h]; rfl
  simp only [afterQuitPoll, hq]; rfl

/-- What an iteration that no quit ends leaves, in plain fields (R333, R335, R336). -/
theorem finishIteration_fields {s : State} (h : s.host.quitIn ≠ some 0) :
    finishIteration s =
      { s with
        st := countOne s.st, dt := countOne s.dt, redraw := false,
        host := { s.host with quitIn := s.host.quitIn.map (· - 1) },
        out := s.out ++ renderCalls s ++ toneCalls s } := by
  rw [finishIteration_of_no_quit h]
  simp only [countdown, renderPending, afterQuitPoll, renderCalls, toneCalls, State.setSt, State.setDt, State.setRedraw,
    State.emit, State.setHost]
  rfl

/-! ## What follows a cycle -/

theorem afterCycle_running_hold {s : State} (h : s.status = .running) (hd : s.cfg.debugStep = true) :
    afterCycle s = s.setHold true := by rw [afterCycle, h, hd]

theorem afterCycle_running {s : State} (h : s.status = .running) (hd : s.cfg.debugStep = false) :
    afterCycle s = finishIteration s := by rw [afterCycle, h, hd]

theorem afterCycle_not_running {s : State} (h : s.status ≠ .running) : afterCycle s = s := by
  rw [afterCycle]; split <;> simp_all

/-! ## The cycle and the step -/

/-- The three things a cycle can do (30_encoding.md R110). -/
theorem cycle_cases (s : State) :
    (0xFFE < s.pc.toNat ∧ cycle s = raise (.fetchOutOfBounds s.pc) s) ∨
    (s.pc.toNat ≤ 0xFFE ∧ (∀ i, decode (wordAtPc s) ≠ .ok i) ∧
      cycle s = raise (.decodeError (wordAtPc s) s.pc) (advancePc s)) ∨
    (s.pc.toNat ≤ 0xFFE ∧ ∃ i, decode (wordAtPc s) = .ok i ∧ cycle s = exec i (advancePc s)) := by
  by_cases hp : s.pc.toNat > lastFetch
  · left
    have hf : fetch s = .error (.fetchOutOfBounds s.pc) := by rw [fetch, if_pos hp]
    exact ⟨hp, by rw [cycle, hf]⟩
  · right
    have hf : fetch s = .ok (s.byteAt s.pc.toNat, s.byteAt (s.pc.toNat + 1)) := by rw [fetch, if_neg hp]
    have hp' : s.pc.toNat ≤ 0xFFE := Nat.not_lt.mp hp
    rcases hd : decode (wordAtPc s) with e | i
    · left
      refine ⟨hp', by simp, ?_⟩
      simp only [wordAtPc] at hd
      simp only [cycle, hf, decodeBytes, hd]; rfl
    · right
      refine ⟨hp', i, rfl, ?_⟩
      simp only [wordAtPc] at hd
      simp only [cycle, hf, decodeBytes, hd]

/-- A step of a core at the start of an iteration is that iteration (R330). -/
theorem step_iteration {s : State} (h : s.atIteration) : step s = thenDo (cycle (scanInputs s)) afterCycle := by
  rw [step, runStep, h.1, h.2]; rfl

theorem step_hold {s : State} (h : s.status = .running) (hh : s.hold = true) : step s = .next (debugHold s) := by
  rw [step, runStep, h, hh]

theorem step_waiting {s : State} {x : Reg} (h : s.status = .waitingKey x) :
    step s = .next (afterCycle (awaitKey x s)) := by
  rw [step, runStep, h]

theorem step_haltedNormal {s : State} {r : NormalEnd} (h : s.status = .haltedNormal r) : step s = .next s := by
  rw [step, runStep, h]

theorem step_haltedFault {s : State} {f : Fault} (h : s.status = .haltedFault f) : step s = .fault f := by
  rw [step, runStep, h]

/-- The key sample leaves the word at PC as it was. -/
theorem wordAtPc_scanInputs (s : State) : wordAtPc (scanInputs s) = wordAtPc s := by
  rw [scanInputs_eq]; rfl

theorem thenDo_eq_next {o : Outcome} {g : State → State} {t : State} :
    thenDo o g = .next t ↔ ∃ u, o = .next u ∧ t = g u := by
  cases o <;> simp [thenDo, eq_comm]

theorem thenDo_raise (f : Fault) (s : State) : thenDo (raise f s) afterCycle = raise f s := by
  simp only [raise, thenDo]; rw [afterCycle_not_running (by simp)]

/-! ## Runs -/

/-- A run may start with a step. -/
theorem reaches_of_step {s t u : State} (h : step s = .next t) (hr : Reaches t u) : Reaches s u := by
  induction hr with
  | refl => exact .tail .refl h
  | tail _ hs ih => exact .tail ih hs

/-- What every step keeps holds along every run. -/
theorem reaches_keeps {P : State → Prop} (hstep : ∀ a b, P a → step a = .next b → P b) {s t : State} (h : P s)
    (hr : Reaches s t) : P t := by
  induction hr with
  | refl => exact h
  | tail _ hs ih => exact hstep _ _ ih hs

end Sys2Proof.Machine
end

