-- ==== Sys2Proof/Laws/Exec.lean ====
section
/-! SUPPORT. What executing an instruction can do, said once (30_encoding.md R111): it raises a fault in the state it
executes in, or it completes and keeps what `Completed` lists. Provers of whole-machine rules cite this and never unfold
`exec` for what it lists. -/

namespace Sys2Proof.Machine

/-- What every completed instruction keeps, from the state `s` it executes in to the state `t`. -/
structure Completed (s t : State) : Prop where
  cfg : t.cfg = s.cfg
  hold : t.hold = s.hold
  keys : t.keys = s.keys
  quitIn : t.host.quitIn = s.host.quitIn
  samples : t.host.samples = s.host.samples
  out : t.out = s.out ∨ ∃ x, t.out = s.out ++ [.keyWaitReq x]
  memory : Memory.wf (unlisted s.cfg) s.mem = true → Memory.wf (unlisted s.cfg) t.mem = true
  stack : s.stack.length ≤ s.cfg.stackDepth → t.stack.length ≤ s.cfg.stackDepth
  status : t.status = s.status ∨ t.status = .running ∨ (∃ x, t.status = .waitingKey x) ∨
    t.status = .haltedNormal .capabilityExit

theorem regsUpTo_nodup (x : Reg) : (regsUpTo x).Nodup := by revert x; decide

theorem afterBlock_cases (x : Reg) (s : State) :
    afterBlock x s = s ∨ afterBlock x s = s.setI (s.i + BitVec.ofNat 16 (x.val + 1)) := by
  rw [afterBlock]; cases s.cfg.loadStoreIncrementsI <;> simp

/-- A completed run of memory writes, then I moved or not, keeps all of it. -/
theorem completed_of_writes {l : List (Nat × Byte)} {s t : State} (h : memWriteAll s l = .ok t) : Completed s t := by
  obtain ⟨h1, _, _, h4⟩ := memWriteAll_eq_ok h
  rw [h1]
  constructor <;> simp
  exact h4

theorem completed_afterBlock {x : Reg} {s t : State} (h : Completed s t) : Completed s (afterBlock x t) := by
  rcases afterBlock_cases x t with e | e <;> rw [e]
  · exact h
  · exact ⟨h.cfg, h.hold, h.keys, h.quitIn, h.samples, h.out, h.memory, h.stack, h.status⟩

/-- Executing an instruction raises a fault in the state it executes in, or completes. -/
theorem exec_cases {i : Instr} {s t : State} (h : exec i s = .next t) : (∃ f, t = faulted f s) ∨ Completed s t := by
  have rn : ∀ f, raise f s = .next t → ∃ f, t = faulted f s := fun f hu => ⟨f, raise_eq_next.mp hu⟩
  cases i
  case ret =>
    simp only [exec, execRet] at h
    split at h
    · rename_i w u hp
      obtain ⟨rest, h1, rfl⟩ := pop_eq_ok.mp hp
      cases h; right
      constructor <;> simp [h1]; omega
    · exact .inl (rn _ h)
  case call n =>
    simp only [exec, execCall] at h
    split at h
    · rename_i u hp
      obtain ⟨h1, rfl⟩ := push_eq_ok.mp hp
      cases h; right
      constructor <;> simp; omega
    · exact .inl (rn _ h)
  case ldVxK x =>
    cases h; right
    rcases awaitKey_cases x ((s.setStatus (.waitingKey x)).emit [.keyWaitReq x]) with ⟨_, e⟩ | ⟨_, e⟩ | ⟨k, _, e⟩ <;>
      rw [e, dropAnswer] <;> constructor <;> simp
  case rnd x nn => cases h; right; constructor <;> simp [afterRand] <;> split <;> simp
  case storeRegs x =>
    simp only [exec, execStoreRegs] at h
    split at h
    · rename_i u hp; cases h; exact .inr (completed_afterBlock (completed_of_writes hp))
    · exact .inl (rn _ h)
  case ldB x =>
    simp only [exec, execLdB, conclude] at h
    split at h
    · rename_i u hp; cases h; exact .inr (completed_of_writes hp)
    · exact .inl (rn _ h)
  case loadRegs x =>
    simp only [exec, execLoadRegs] at h
    split at h
    · rename_i u hp
      cases h; right
      refine completed_afterBlock ?_
      rw [(loadEach_eq_ok (regsUpTo_nodup x) hp).1]
      constructor <;> simp
    · exact .inl (rn _ h)
  case drw x y n =>
    simp only [exec, execDrw] at h
    split at h
    · cases h; right; constructor <;> simp
    · exact .inl (rn _ h)
  case skp x =>
    simp only [exec, execSkp] at h
    split at h
    · cases h; right; constructor <;> simp [skipIf]
    · exact .inl (rn _ h)
  case sknp x =>
    simp only [exec, execSknp] at h
    split at h
    · cases h; right; constructor <;> simp [skipIf]
    · exact .inl (rn _ h)
  case ldF x =>
    simp only [exec, execLdF] at h
    split at h
    · cases h; right; constructor <;> simp
    · exact .inl (rn _ h)
  all_goals
    cases h; right
    constructor <;> simp [skipIf, setResultThenFlag, setFlagThenResult]

end Sys2Proof.Machine
end

