-- ==== Sys2Proof/Laws/PerInstr.lean ====
section
/-! SUPPORT. Facts about every instruction as syntax, one lemma a constructor. The family `EncodesRow`: the word of an
instruction matches the instruction's own row of the opcode map (30_encoding.md R93, R95), whatever its operands. -/

namespace Sys2Proof.Laws.EncodesRow

/-- The word of `i` is of the row of `i`: its match and mask of spec/opcode_table.json hold of it. -/
def Statement (i : Instr) : Prop := i.row.matchesWord (encode i) = true

/-- Format NNN under its mask: the leading nibble alone is fixed. -/
theorem formatNnn_and (op : BitVec 4) (nnn : Addr12) : formatNnn op nnn &&& 0xF000#16 = op ++ 0#12 := by
  have h : (op ++ nnn) &&& ((0xF#4) ++ (0#12)) = (op &&& 0xF#4) ++ (nnn &&& 0#12) := by rw [BitVec.and_append]
  rw [show op &&& 0xF#4 = op from BitVec.and_allOnes, BitVec.and_zero] at h
  exact h

/-- Format XNN under its mask: the leading nibble alone is fixed. -/
theorem formatXnn_and (op : BitVec 4) (x : Reg) (nn : Byte) : formatXnn op x nn &&& 0xF000#16 = op ++ 0#4 ++ 0#8 := by
  have h : (op ++ (BitVec.ofFin x : BitVec 4) ++ nn) &&& ((0xF#4) ++ (0#4) ++ (0#8)) =
      (op &&& 0xF#4) ++ ((BitVec.ofFin x : BitVec 4) &&& 0#4) ++ (nn &&& 0#8) := by
    rw [BitVec.and_append, BitVec.and_append]
  rw [show op &&& 0xF#4 = op from BitVec.and_allOnes, BitVec.and_zero, BitVec.and_zero] at h
  exact h

/-- Format X under its mask: the leading nibble and the trailing byte are fixed. -/
theorem formatX_and (op : BitVec 4) (x : Reg) (sel : Byte) : formatX op x sel &&& 0xF0FF#16 = op ++ 0#4 ++ sel := by
  have h : (op ++ (BitVec.ofFin x : BitVec 4) ++ sel) &&& ((0xF#4) ++ (0#4) ++ (0xFF#8)) =
      (op &&& 0xF#4) ++ ((BitVec.ofFin x : BitVec 4) &&& 0#4) ++ (sel &&& 0xFF#8) := by
    rw [BitVec.and_append, BitVec.and_append]
  rw [show op &&& 0xF#4 = op from BitVec.and_allOnes, show sel &&& 0xFF#8 = sel from BitVec.and_allOnes,
    BitVec.and_zero] at h
  exact h

/-- Format XY under its mask: the leading and the trailing nibble are fixed. -/
theorem formatXy_and (op : BitVec 4) (x y : Reg) (sel : BitVec 4) :
    formatXy op x y sel &&& 0xF00F#16 = op ++ 0#4 ++ 0#4 ++ sel := by
  have h : (op ++ (BitVec.ofFin x : BitVec 4) ++ (BitVec.ofFin y : BitVec 4) ++ sel) &&&
      ((0xF#4) ++ (0#4) ++ (0#4) ++ (0xF#4)) =
      (op &&& 0xF#4) ++ ((BitVec.ofFin x : BitVec 4) &&& 0#4) ++ ((BitVec.ofFin y : BitVec 4) &&& 0#4) ++
        (sel &&& 0xF#4) := by
    rw [BitVec.and_append, BitVec.and_append, BitVec.and_append]
  rw [show op &&& 0xF#4 = op from BitVec.and_allOnes, show sel &&& 0xF#4 = sel from BitVec.and_allOnes,
    BitVec.and_zero, BitVec.and_zero] at h
  exact h

/-- Format XYN under the mask of DRW: the leading nibble alone is fixed. -/
theorem formatXyn_and (op : BitVec 4) (x y : Reg) (n : BitVec 4) :
    formatXy op x y n &&& 0xF000#16 = op ++ 0#4 ++ 0#4 ++ 0#4 := by
  have h : (op ++ (BitVec.ofFin x : BitVec 4) ++ (BitVec.ofFin y : BitVec 4) ++ n) &&&
      ((0xF#4) ++ (0#4) ++ (0#4) ++ (0#4)) =
      (op &&& 0xF#4) ++ ((BitVec.ofFin x : BitVec 4) &&& 0#4) ++ ((BitVec.ofFin y : BitVec 4) &&& 0#4) ++
        (n &&& 0#4) := by
    rw [BitVec.and_append, BitVec.and_append, BitVec.and_append]
  rw [show op &&& 0xF#4 = op from BitVec.and_allOnes, BitVec.and_zero, BitVec.and_zero, BitVec.and_zero] at h
  exact h

theorem cls : Statement (.cls) := rfl
theorem ret : Statement (.ret) := rfl
theorem jp (nnn : Addr12) : Statement (.jp nnn) := by
  rw [Statement, matchesWord_iff]; exact formatNnn_and 0x1 nnn
theorem call (nnn : Addr12) : Statement (.call nnn) := by
  rw [Statement, matchesWord_iff]; exact formatNnn_and 0x2 nnn
theorem seImm (x : Reg) (nn : Byte) : Statement (.seImm x nn) := by
  rw [Statement, matchesWord_iff]; exact formatXnn_and 0x3 x nn
theorem sneImm (x : Reg) (nn : Byte) : Statement (.sneImm x nn) := by
  rw [Statement, matchesWord_iff]; exact formatXnn_and 0x4 x nn
theorem seReg (x y : Reg) : Statement (.seReg x y) := by
  rw [Statement, matchesWord_iff]; exact formatXy_and 0x5 x y 0x0
theorem ldImm (x : Reg) (nn : Byte) : Statement (.ldImm x nn) := by
  rw [Statement, matchesWord_iff]; exact formatXnn_and 0x6 x nn
theorem addImm (x : Reg) (nn : Byte) : Statement (.addImm x nn) := by
  rw [Statement, matchesWord_iff]; exact formatXnn_and 0x7 x nn
theorem ldReg (x y : Reg) : Statement (.ldReg x y) := by
  rw [Statement, matchesWord_iff]; exact formatXy_and 0x8 x y 0x0
theorem orReg (x y : Reg) : Statement (.orReg x y) := by
  rw [Statement, matchesWord_iff]; exact formatXy_and 0x8 x y 0x1
theorem andReg (x y : Reg) : Statement (.andReg x y) := by
  rw [Statement, matchesWord_iff]; exact formatXy_and 0x8 x y 0x2
theorem xorReg (x y : Reg) : Statement (.xorReg x y) := by
  rw [Statement, matchesWord_iff]; exact formatXy_and 0x8 x y 0x3
theorem addReg (x y : Reg) : Statement (.addReg x y) := by
  rw [Statement, matchesWord_iff]; exact formatXy_and 0x8 x y 0x4
theorem subReg (x y : Reg) : Statement (.subReg x y) := by
  rw [Statement, matchesWord_iff]; exact formatXy_and 0x8 x y 0x5
theorem shr (x y : Reg) : Statement (.shr x y) := by
  rw [Statement, matchesWord_iff]; exact formatXy_and 0x8 x y 0x6
theorem subnReg (x y : Reg) : Statement (.subnReg x y) := by
  rw [Statement, matchesWord_iff]; exact formatXy_and 0x8 x y 0x7
theorem shl (x y : Reg) : Statement (.shl x y) := by
  rw [Statement, matchesWord_iff]; exact formatXy_and 0x8 x y 0xE
theorem sneReg (x y : Reg) : Statement (.sneReg x y) := by
  rw [Statement, matchesWord_iff]; exact formatXy_and 0x9 x y 0x0
theorem ldI (nnn : Addr12) : Statement (.ldI nnn) := by
  rw [Statement, matchesWord_iff]; exact formatNnn_and 0xA nnn
theorem jpV0 (nnn : Addr12) : Statement (.jpV0 nnn) := by
  rw [Statement, matchesWord_iff]; exact formatNnn_and 0xB nnn
theorem rnd (x : Reg) (nn : Byte) : Statement (.rnd x nn) := by
  rw [Statement, matchesWord_iff]; exact formatXnn_and 0xC x nn
theorem drw (x y : Reg) (n : Nat) : Statement (.drw x y n) := by
  rw [Statement, matchesWord_iff]; exact formatXyn_and 0xD x y (BitVec.ofNat 4 n)
theorem skp (x : Reg) : Statement (.skp x) := by
  rw [Statement, matchesWord_iff]; exact formatX_and 0xE x 0x9E
theorem sknp (x : Reg) : Statement (.sknp x) := by
  rw [Statement, matchesWord_iff]; exact formatX_and 0xE x 0xA1
theorem ldVxDt (x : Reg) : Statement (.ldVxDt x) := by
  rw [Statement, matchesWord_iff]; exact formatX_and 0xF x 0x07
theorem ldVxK (x : Reg) : Statement (.ldVxK x) := by
  rw [Statement, matchesWord_iff]; exact formatX_and 0xF x 0x0A
theorem ldDtVx (x : Reg) : Statement (.ldDtVx x) := by
  rw [Statement, matchesWord_iff]; exact formatX_and 0xF x 0x15
theorem ldStVx (x : Reg) : Statement (.ldStVx x) := by
  rw [Statement, matchesWord_iff]; exact formatX_and 0xF x 0x18
theorem addI (x : Reg) : Statement (.addI x) := by
  rw [Statement, matchesWord_iff]; exact formatX_and 0xF x 0x1E
theorem ldF (x : Reg) : Statement (.ldF x) := by
  rw [Statement, matchesWord_iff]; exact formatX_and 0xF x 0x29
theorem ldB (x : Reg) : Statement (.ldB x) := by
  rw [Statement, matchesWord_iff]; exact formatX_and 0xF x 0x33
theorem storeRegs (x : Reg) : Statement (.storeRegs x) := by
  rw [Statement, matchesWord_iff]; exact formatX_and 0xF x 0x55
theorem loadRegs (x : Reg) : Statement (.loadRegs x) := by
  rw [Statement, matchesWord_iff]; exact formatX_and 0xF x 0x65

end Sys2Proof.Laws.EncodesRow
end

