-- ==== Sys2Proof/Tests/Slice0.lean ====
section
/-! SUPPORT. Tests and witnesses. Expected results are taken from 95_test_vectors.md (the vector is named) or worked out
from the rule named; none is the model's own answer. A witness shows a concrete state and operands that meet the
hypotheses of an obligation together. -/

open Sys2Proof Sys2Proof.Machine

namespace Sys2Proof.Tests

/-- The start state of the vectors: CleanReset, an instruction fetched from 0x200 and executing, so PC is 0x202. -/
def base : State := State.reset.setPc 0x202

/-- A part of the next state an outcome holds. -/
def after {α : Type} (o : Outcome) (f : State → α) : Option α :=
  match o with
  | .next t => some (f t)
  | .fault _ => none
  | .refused _ => none

/-- The state with another parameter record. -/
def withCfg (s : State) (c : Config) : State := { s with cfg := c }

/-- The state with another host script. -/
def withAnswers (s : State) (l : List (Option KeyAnswer)) : State := s.setHost { s.host with answers := l }

/-- A state whose next step runs the word: at 0x200, at the start of an iteration. -/
def atWord (s : State) (w : Nat) : State := (s.setPc 0x200).withFetchWord 16 w

/-! ## WellFormed smoke test: the one check, and a term it refuses -/

theorem test_wellFormed_accepts_drw_15 : (Instr.drw 0xF 0xF 15).wellFormed = true := by decide
theorem test_wellFormed_refuses_drw_16 : (Instr.drw 0xF 0xF 16).wellFormed = false := by decide

/-! ## Decoding: every constructor's word, written out bit by bit from 30_encoding.md R93 and R95 -/

theorem test_decode_screen :
    decode 0b0000000011100000#16 = .ok .cls ∧ decode 0b1101101000010101#16 = .ok (.drw 0xA 0x1 5) := by decide
theorem test_decode_flow :
    decode 0b0000000011101110#16 = .ok .ret ∧ decode 0b0001001010100100#16 = .ok (.jp 0x2A4#12) ∧
    decode 0b0010001111101000#16 = .ok (.call 0x3E8#12) ∧ decode 0b1011001001010000#16 = .ok (.jpV0 0x250#12) := by decide
theorem test_decode_skip :
    decode 0b0011001100101010#16 = .ok (.seImm 3 0x2A#8) ∧ decode 0b0100001100101010#16 = .ok (.sneImm 3 0x2A#8) ∧
    decode 0b0101000100100000#16 = .ok (.seReg 1 2) ∧ decode 0b1001000100100000#16 = .ok (.sneReg 1 2) := by decide
theorem test_decode_immediate :
    decode 0b0110010111000011#16 = .ok (.ldImm 5 0xC3#8) ∧ decode 0b0111001000000011#16 = .ok (.addImm 2 0x03#8) ∧
    decode 0b1100000000001111#16 = .ok (.rnd 0 0x0F#8) := by decide
theorem test_decode_alu :
    decode 0b1000001101110000#16 = .ok (.ldReg 3 7) ∧ decode 0b1000000100100001#16 = .ok (.orReg 1 2) ∧
    decode 0b1000000100100010#16 = .ok (.andReg 1 2) ∧ decode 0b1000000100100011#16 = .ok (.xorReg 1 2) ∧
    decode 0b1000000100100100#16 = .ok (.addReg 1 2) ∧ decode 0b1000000100100101#16 = .ok (.subReg 1 2) ∧
    decode 0b1000000100100110#16 = .ok (.shr 1 2) ∧ decode 0b1000000100100111#16 = .ok (.subnReg 1 2) ∧
    decode 0b1000000100101110#16 = .ok (.shl 1 2) := by decide
theorem test_decode_index :
    decode 0b1010001110100000#16 = .ok (.ldI 0x3A0#12) ∧ decode 0b1111001000011110#16 = .ok (.addI 2) ∧
    decode 0b1111000000101001#16 = .ok (.ldF 0) := by decide
theorem test_decode_keys :
    decode 0b1110000110011110#16 = .ok (.skp 1) ∧ decode 0b1110000110100001#16 = .ok (.sknp 1) ∧
    decode 0b1111001100001010#16 = .ok (.ldVxK 3) := by decide
theorem test_decode_timers :
    decode 0b1111000000000111#16 = .ok (.ldVxDt 0) ∧ decode 0b1111000100010101#16 = .ok (.ldDtVx 1) ∧
    decode 0b1111001000011000#16 = .ok (.ldStVx 2) := by decide
theorem test_decode_memory :
    decode 0b1111000000110011#16 = .ok (.ldB 0) ∧ decode 0b1111000101010101#16 = .ok (.storeRegs 1) ∧
    decode 0b1111001001100101#16 = .ok (.loadRegs 2) := by decide
/-- Vectors D1, D2, A34 and K10: reserved words, each named in the error (R94, R98). -/
theorem test_decode_rejects :
    [0x0000#16, 0x00E1#16, 0x00EF#16, 0x0123#16, 0x0FFF#16, 0xE000#16, 0xE19F#16, 0xF000#16, 0xF019#16, 0xF0FF#16,
      0x8008#16, 0x800F#16, 0x812A#16, 0x5121#16, 0x912F#16].all (fun w => decide (decode w = .error (.unrecognized w))) =
      true := by decide
/-- R90: fewer than two bytes are no instruction word. -/
theorem test_decode_truncated : decodeBytes [0x12#8] = .error .truncated ∧ decodeBytes [] = .error .truncated := by decide
theorem test_decodeTableWord : decodeTableWord 16 0xDAB5 = some (.drw 0xA 0xB 5) ∧ decodeTableWord 16 0x5121 = none := by
  decide

/-! ## Screen -/

/-- The start of S2: a one-row sprite at 0x300, here of a byte `b`. -/
def sprite (b : Byte) : State := (base.setI 0x300).setByte 0x300 b

/-- S1. -/
theorem test_cls :
    after (exec .cls ((base.setFb (setPixel blankScreen 1 2 true)).setReg 0xF 0x55))
      (fun t => (pixel t.fb 1 2, t.redraw, t.reg 0xF, t.pc)) = some (false, true, 0x55, 0x202) := by decide
/-- S4: the sprite wraps in its row. -/
theorem test_drw_wraps :
    after (exec (.drw 0 1 1) ((sprite 0xFF).setReg 0 0x3E))
      (fun t => ([0x3D, 0x3E, 0x3F, 0, 5, 6].map (fun p => pixel t.fb p 0), t.reg 0xF)) =
      some ([false, true, true, true, true, false], 0) := by decide
/-- S9, and S8's reading of the row from VF before it is cleared. -/
theorem test_drw_collides :
    after (exec (.drw 0 1 1) ((sprite 0xC0).setFb (setPixel blankScreen 1 0 true)))
      (fun t => (pixel t.fb 0 0, pixel t.fb 1 0, t.reg 0xF)) = some (true, false, 1) ∧
    after (exec (.drw 0 0xF 1) ((sprite 0x80).setReg 0xF 5)) (fun t => (pixel t.fb 0 5, t.reg 0xF)) = some (true, 0) := by
  decide

/-! ## Flow -/

/-- F1. -/
theorem test_jp : after (exec (.jp 0x2A4) base) (fun t => t.pc) = some 0x2A4 := by decide
/-- F3, and F6: with a full stack, StackOverflow with A. -/
theorem test_call :
    after (exec (.call 0x300) (base.setPc 0x206)) (fun t => (t.pc, t.stack)) = some (0x300, [0x206]) ∧
    after (exec (.call 0x300) (base.setStack (List.replicate 16 0x206))) (fun t => t.status) =
      some (.haltedFault (.stackOverflow 0x200)) := by decide
/-- F4 (above one more entry), and F5: StackUnderflow with A. -/
theorem test_ret :
    after (exec .ret (base.setStack [0x444, 0x206])) (fun t => (t.pc, t.stack)) = some (0x206, [0x444]) ∧
    after (exec .ret base) (fun t => (t.status, t.out)) = some (.haltedFault (.stackUnderflow 0x200), [.stopTone]) := by
  decide
/-- F7 under both parameter values. -/
theorem test_jpV0 :
    after (exec (.jpV0 0x250) ((base.setI 0x300).setReg 0 4)) (fun t => t.pc) = some 0x304 ∧
    after (exec (.jpV0 0x250) (withCfg ((base.setI 0x300).setReg 0 4) { defaultConfig with jumpBase := .immediate }))
      (fun t => t.pc) = some 0x254 := by decide
/-- F9: the sum wraps modulo 2^16. -/
theorem test_jpV0_wraps : after (exec (.jpV0 0) ((base.setI 0xFFFF).setReg 0 2)) (fun t => t.pc) = some 0x0001 := by decide

/-! ## Skip -/

/-- K1, K2. -/
theorem test_seImm :
    after (exec (.seImm 3 0x2A) (base.setReg 3 0x2A)) (fun t => t.pc) = some 0x204 ∧
    after (exec (.seImm 3 0x2A) (base.setReg 3 0x2B)) (fun t => t.pc) = some 0x202 := by decide
/-- K3, K4. -/
theorem test_sneImm :
    after (exec (.sneImm 3 0x2A) (base.setReg 3 0x2B)) (fun t => t.pc) = some 0x204 ∧
    after (exec (.sneImm 3 0x2A) (base.setReg 3 0x2A)) (fun t => t.pc) = some 0x202 := by decide
/-- K5. -/
theorem test_seReg :
    after (exec (.seReg 1 2) ((base.setReg 1 7).setReg 2 7)) (fun t => t.pc) = some 0x204 ∧
    after (exec (.seReg 1 2) ((base.setReg 1 7).setReg 2 8)) (fun t => t.pc) = some 0x202 := by decide
/-- K6. -/
theorem test_sneReg :
    after (exec (.sneReg 1 2) ((base.setReg 1 7).setReg 2 8)) (fun t => t.pc) = some 0x204 ∧
    after (exec (.sneReg 1 2) ((base.setReg 1 7).setReg 2 7)) (fun t => t.pc) = some 0x202 := by decide

/-! ## Arithmetic and logic -/

/-- A1. -/
theorem test_ldImm : after (exec (.ldImm 5 0xC3) base) (fun t => t.reg 5) = some 0xC3 := by decide
/-- A2: no flag. -/
theorem test_addImm :
    after (exec (.addImm 2 0x03) ((base.setReg 2 0xFE).setReg 0xF 0x55)) (fun t => (t.reg 2, t.reg 0xF)) =
      some (0x01, 0x55) := by decide
/-- A4. -/
theorem test_ldReg :
    after (exec (.ldReg 3 7) ((base.setReg 7 0x11).setReg 0xF 0x55)) (fun t => (t.reg 3, t.reg 7, t.reg 0xF)) =
      some (0x11, 0x11, 0x55) := by decide

/-- V1, V2 and VF at the values of a row of the arithmetic table. -/
def operands (a b f : Byte) : State := ((base.setReg 1 a).setReg 2 b).setReg 0xF f

/-- V1 and VF, the result column of the arithmetic table. -/
def result (i : Instr) (s : State) : Option (Byte × Byte) := after (exec i s) (fun t => (t.reg 1, t.reg 0xF))

/-- A5. -/
theorem test_orReg : result (.orReg 1 2) (operands 0x0F 0xF0 0x55) = some (0xFF, 0x55) := by decide
/-- A6. -/
theorem test_andReg : result (.andReg 1 2) (operands 0x3C 0x0F 0x55) = some (0x0C, 0x55) := by decide
/-- A7. -/
theorem test_xorReg : result (.xorReg 1 2) (operands 0x3C 0x0F 0x55) = some (0x33, 0x55) := by decide
/-- A9, A10. -/
theorem test_addReg :
    result (.addReg 1 2) (operands 0xFF 0x01 0) = some (0x00, 1) ∧
    result (.addReg 1 2) (operands 0x7F 0x01 1) = some (0x80, 0) := by decide
/-- A13: the carry overwrites the sum. -/
theorem test_addReg_VF : result (.addReg 0xF 1) (operands 0xF5 0 0x10) = some (0xF5, 1) := by decide
/-- A15, A16. -/
theorem test_subReg :
    result (.subReg 1 2) (operands 0x01 0x02 1) = some (0xFF, 0) ∧
    result (.subReg 1 2) (operands 0x05 0x05 0) = some (0x00, 1) := by decide
/-- A20. -/
theorem test_subReg_VF : result (.subReg 0xF 1) (operands 0x05 0 0x03) = some (0x05, 0) := by decide
/-- A24: V2 is not read. -/
theorem test_shr : result (.shr 1 2) (operands 0x04 0xFF 1) = some (0x02, 0) := by decide
/-- A25: the result overwrites the flag. -/
theorem test_shr_VF : after (exec (.shr 0xF 0) (operands 0 0 0x02)) (fun t => t.reg 0xF) = some 0x01 := by decide
/-- A26, A28. -/
theorem test_subnReg :
    result (.subnReg 1 2) (operands 0x02 0x01 1) = some (0xFF, 0) ∧
    result (.subnReg 1 2) (operands 0x05 0x05 0) = some (0x00, 1) := by decide
/-- A29, A32. -/
theorem test_shl :
    result (.shl 1 2) (operands 0x81 0 0) = some (0x02, 1) ∧
    result (.shl 1 2) (operands 0x01 0xFF 1) = some (0x02, 0) := by decide
/-- A33. -/
theorem test_shl_VF : after (exec (.shl 0xF 0) (operands 0 0 0x81)) (fun t => t.reg 0xF) = some 0x02 := by decide

/-! ## Index, random, keys, timers -/

/-- X1. -/
theorem test_ldI : after (exec (.ldI 0x3A0) base) (fun t => t.i) = some 0x03A0 := by decide
/-- X3, X4. -/
theorem test_addI :
    after (exec (.addI 0) ((base.setI 0xFFF).setReg 0 1)) (fun t => (t.i, t.reg 0xF)) = some (0x1000, 0) ∧
    after (exec (.addI 0) ((base.setI 0xFFFF).setReg 0 2)) (fun t => t.i) = some 0x0001 := by decide
/-- X5 with FONT_BASE = 0x050, X7. -/
theorem test_ldF :
    after (exec (.ldF 0) (base.setReg 0 0x0A)) (fun t => t.i) = some 0x082 ∧
    after (exec (.ldF 0) (base.setReg 0 0x10)) (fun t => t.status) =
      some (.haltedFault (.fontDigitOutOfRange 0x10 0x200)) := by decide
/-- N1, N4. -/
theorem test_rnd :
    after (exec (.rnd 0 0x0F) (base.setHost { base.host with rands := [0xB6] })) (fun t => t.reg 0) = some 0x06 ∧
    after (exec (.rnd 0xF 0x80) (base.setHost { base.host with rands := [0xC3] })) (fun t => t.reg 0xF) = some 0x80 := by
  decide
/-- Y1, Y2. -/
theorem test_skp :
    after (exec (.skp 1) ((base.setReg 1 5).setKeys 0x0020)) (fun t => t.pc) = some 0x204 ∧
    after (exec (.skp 1) ((base.setReg 1 5).setKeys 0x0010)) (fun t => t.pc) = some 0x202 := by decide
/-- Y3, Y4. -/
theorem test_sknp :
    after (exec (.sknp 1) (base.setReg 1 5)) (fun t => t.pc) = some 0x204 ∧
    after (exec (.sknp 1) ((base.setReg 1 5).setKeys 0x0020)) (fun t => t.pc) = some 0x202 := by decide
/-- Y5, Y6. -/
theorem test_key_range :
    after (exec (.skp 1) (base.setReg 1 0x10)) (fun t => t.status) = some (.haltedFault (.keyIndexOutOfRange 0x10 0x200)) ∧
    after (exec (.sknp 1) (base.setReg 1 0xFF)) (fun t => t.status) =
      some (.haltedFault (.keyIndexOutOfRange 0xFF 0x200)) := by decide
/-- Y7; and with no answer yet the core waits, having asked (R253). -/
theorem test_ldVxK :
    after (exec (.ldVxK 3) (withAnswers base [some (.key 0xB)])) (fun t => (t.reg 3, t.status, t.host.answers)) =
      some (0x0B, .running, []) ∧
    after (exec (.ldVxK 3) base) (fun t => (t.status, t.out)) = some (.waitingKey 3, [.keyWaitReq 3]) := by decide
/-- Y8: no tone, no render, no countdown after a quit of the wait. -/
theorem test_ldVxK_quit :
    after (step (atWord (withAnswers ((base.setReg 3 0x77).setDt 5) [some .quit]) 0xF30A))
      (fun t => (t.reg 3, t.status, t.dt, t.out)) =
      some (0x77, .haltedNormal .capabilityExit, 5, [.keyWaitReq 3]) := by decide
/-- T8. -/
theorem test_ldVxDt : after (step (atWord (base.setDt 5) 0xF107)) (fun t => (t.reg 1, t.dt)) = some (5, 4) := by decide
/-- T2, T3. -/
theorem test_ldDtVx :
    after (step (atWord (base.setReg 1 3) 0xF115)) (fun t => t.dt) = some 2 ∧
    after (step (atWord (base.setDt 9) 0xF115)) (fun t => t.dt) = some 0 := by decide
/-- T4, T6. -/
theorem test_ldStVx :
    after (step (atWord (base.setReg 2 1) 0xF218)) (fun t => (t.st, t.out)) = some (0, [.startTone]) ∧
    after (step (atWord base 0xF218)) (fun t => (t.st, t.out)) = some (0, []) := by decide

/-! ## Memory operations -/

/-- The bytes at 0x300, 0x301 and 0x302. -/
def bytes300 (t : State) : Byte × Byte × Byte := (t.byteAt 0x300, t.byteAt 0x301, t.byteAt 0x302)

/-- M2: I is not changed. -/
theorem test_ldB :
    after (exec (.ldB 0) ((base.setI 0x300).setReg 0 0xFA)) (fun t => (bytes300 t, t.i)) = some ((2, 5, 0), 0x300) := by
  decide
/-- M4; M6 with FONT_BASE = 0x050. -/
theorem test_ldB_faults :
    after (exec (.ldB 0) (base.setI 0xFFE)) (fun t => t.status) = some (.haltedFault (.memoryOutOfBounds 0x1000 0x200)) ∧
    after (exec (.ldB 0) (base.setI 0x04E)) (fun t => t.status) = some (.haltedFault (.fontWrite 0x050 0x200)) := by decide
/-- M7 under both parameter values. -/
theorem test_storeRegs :
    after (exec (.storeRegs 1) (((base.setI 0x300).setReg 0 0x11).setReg 1 0x22)) (fun t => (bytes300 t, t.i)) =
      some ((0x11, 0x22, 0), 0x300) ∧
    after (exec (.storeRegs 1) (withCfg (base.setI 0x300) { defaultConfig with loadStoreIncrementsI := true }))
      (fun t => t.i) = some 0x302 := by decide
/-- M10. -/
theorem test_storeRegs_fault :
    after (exec (.storeRegs 0xF) (base.setI 0xFF1)) (fun t => t.status) =
      some (.haltedFault (.memoryOutOfBounds 0x1000 0x200)) := by decide
/-- M11 under both parameter values. -/
theorem test_loadRegs :
    after (exec (.loadRegs 2) (base.setI 0x050)) (fun t => (t.reg 0, t.reg 1, t.reg 2, t.reg 3, t.i)) =
      some (0xF0, 0x90, 0x90, 0, 0x050) ∧
    after (exec (.loadRegs 2) (withCfg (base.setI 0x050) { defaultConfig with loadStoreIncrementsI := true }))
      (fun t => t.i) = some 0x053 := by decide
/-- M13. -/
theorem test_loadRegs_fault :
    after (exec (.loadRegs 0xF) (base.setI 0xFF1)) (fun t => t.status) =
      some (.haltedFault (.memoryOutOfBounds 0x1000 0x200)) := by decide

/-! ## Fetch, cycle and run loop -/

/-- D3. -/
theorem test_fetch_out_of_bounds :
    after (step (State.reset.setPc 0xFFF)) (fun t => (t.status, t.out)) =
      some (.haltedFault (.fetchOutOfBounds 0xFFF), [.stopTone]) := by decide
/-- D5: no alignment; the low byte is the one at the higher address. -/
theorem test_fetch_odd :
    after (step (((State.reset.setPc 0x201).setByte 0x201 0x60).setByte 0x202 0x01)) (fun t => (t.reg 0, t.pc)) =
      some (1, 0x203) := by decide
/-- D6. -/
theorem test_empty_image :
    after (step State.reset) (fun t => t.status) = some (.haltedFault (.decodeError 0x0000 0x200)) := by decide
/-- R1. -/
theorem test_render_once :
    after (step (atWord ((sprite 0x80).setDt 5) 0xD011)) (fun t => (t.out, t.redraw, t.dt)) =
      some ([.render (setPixel blankScreen 0 0 true)], false, 4) := by decide
/-- R2. -/
theorem test_quit_poll :
    after (step (atWord (((sprite 0x80).setDt 5).setHost { base.host with quitIn := some 0 }) 0xD011))
      (fun t => (t.status, pixel t.fb 0 0, t.redraw, t.dt, t.out)) =
      some (.haltedNormal .quitRequested, true, true, 5, []) := by decide

/-- A core that waits for V3's key with DT = 5. -/
def waitingWith (l : List (Option KeyAnswer)) : State := ((withAnswers base l).setDt 5).setStatus (.waitingKey 3)

/-- Y10 with a wait of one more look: the look without an answer leaves the timers, the key's look counts once. -/
theorem test_key_wait_late_answer :
    after (step (waitingWith [none, some (.key 0xB)])) (fun t => (t.status, t.dt, t.host.answers)) =
      some (.waitingKey 3, 5, [some (.key 0xB)]) ∧
    after (step (waitingWith [some (.key 0xB)])) (fun t => (t.status, t.reg 3, t.dt)) = some (.running, 0x0B, 4) := by decide

/-- The start of R5 and R6: DEBUG_STEP with CONTINUE_KEY 7, in the hold after 0x6001. -/
def held (l : List (Option KeyAnswer)) : State :=
  ((withCfg (withAnswers ((base.setDt 5).setReg 0 1) l)
    { defaultConfig with debugStep := true, continueKey := 7 })).setHold true

/-- R5: the iteration is held after its cycle; another key leaves it held; the continue key ends the hold. -/
theorem test_debug_hold_enters :
    after (step (atWord (withCfg (base.setDt 5) { defaultConfig with debugStep := true }) 0x6001))
      (fun t => (t.reg 0, t.hold, t.dt)) = some (1, true, 5) := by decide
theorem test_debug_hold_keys :
    after (step (held [some (.key 3), some (.key 7)])) (fun t => (t.hold, t.dt, t.host.answers)) = some (true, 5, [some (.key 7)]) ∧
    after (step (held [some (.key 7)])) (fun t => (t.hold, t.dt, t.out)) =
      some (false, 4, [.printRegisters (held []).v 0 0x202 5 0]) := by decide
/-- R6. -/
theorem test_debug_hold_quit :
    after (step (held [some .quit])) (fun t => (t.status, t.dt)) = some (.haltedNormal .capabilityExit, 5) := by decide

/-! ## Witnesses of the obligations' hypotheses, one for each clause, at the edges of its range -/

theorem witness_DecodeOfEncode : ∃ i : Instr, i.wellFormed = true ∧ i = .drw 0xF 0xF 15 := ⟨_, by decide, rfl⟩

theorem witness_EncodeOfDecode : ∃ w w' i, decode w = .ok i ∧ decode w' = .ok i := ⟨0xDAB5#16, 0xDAB5#16, .drw 0xA 0xB 5, by decide⟩

/-- The words at the edges of the clauses of R98: last illegal, first legal. -/
theorem witness_IllegalWordsAreRejected :
    decode 0x0FFF#16 = .error (.unrecognized 0x0FFF#16) ∧ decode 0x1000#16 = .ok (.jp 0) ∧
    decode 0x500F#16 = .error (.unrecognized 0x500F#16) ∧ decode 0x5FF0#16 = .ok (.seReg 0xF 0xF) ∧
    decode 0x800D#16 = .error (.unrecognized 0x800D#16) ∧ decode 0x8007#16 = .ok (.subnReg 0 0) ∧
    decode 0x9001#16 = .error (.unrecognized 0x9001#16) ∧ decode 0xE0A0#16 = .error (.unrecognized 0xE0A0#16) ∧
    decode 0xF066#16 = .error (.unrecognized 0xF066#16) := by decide

theorem witness_LegalWordsAreTheOpcodeMap : legalWord 0xF065#16 = true ∧ decode 0xF065#16 = .ok (.loadRegs 0) := by decide

/-- The last byte of Memory, and no row at all with I above Memory. -/
theorem witness_DrwTogglesTheSprite :
    (∃ (n : Nat) (s : State), n < 16 ∧ ∀ r < n, s.i.toNat + r ≤ 0xFFF) ∧
    (∃ (n : Nat) (s : State), n = 0 ∧ s.i = 0xFFFF ∧ ∀ r < n, s.i.toNat + r ≤ 0xFFF) :=
  ⟨⟨15, base.setI 0xFF1, by decide⟩, ⟨0, base.setI 0xFFFF, by decide⟩⟩

/-- S11: row 1 is the first outside Memory; and row 0 when I is already outside. -/
theorem witness_DrwTogglesTheSprite_fault :
    (∃ (n r : Nat) (s : State), n < 16 ∧ r < n ∧ r = 1 ∧ 0xFFF < s.i.toNat + r ∧ ∀ k < r, s.i.toNat + k ≤ 0xFFF) ∧
    (∃ (n r : Nat) (s : State), n < 16 ∧ r < n ∧ r = 0 ∧ 0xFFF < s.i.toNat + r ∧ ∀ k < r, s.i.toNat + k ≤ 0xFFF) :=
  ⟨⟨2, 1, base.setI 0xFFF, by decide⟩, ⟨1, 0, base.setI 0x1000, by decide⟩⟩

theorem witness_DrawingTwiceErases :
    ∃ (x y : Reg) (n : Nat) (s : State), n < 16 ∧ x ≠ 0xF ∧ y ≠ 0xF ∧ (∀ r < n, s.i.toNat + r ≤ 0xFFF) ∧
      s.byteAt (s.i.toNat + 0) ≠ 0 ∧ 0 < n :=
  ⟨0, 1, 1, base.setI 0x050, by decide⟩

theorem witness_DrawingTwiceErases_blank : ∀ p q, pixel base.fb p q = false := fun p q => pixel_blankScreen p q

theorem witness_RetPops :
    (∃ (s : State) (rest : List Word) (w : Word), s.stack = rest ++ [w]) ∧ (∃ s : State, s.stack = []) :=
  ⟨⟨base.setStack [0x206], [], 0x206, rfl⟩, ⟨base, rfl⟩⟩

/-- One entry below the capacity, and at it. -/
theorem witness_CallPushes :
    (∃ s : State, s.stack.length = 15 ∧ s.stack.length ≠ s.cfg.stackDepth) ∧
    (∃ s : State, s.stack.length = s.cfg.stackDepth) :=
  ⟨⟨base.setStack (List.replicate 15 0x206), by decide⟩, ⟨base.setStack (List.replicate 16 0x206), by decide⟩⟩

theorem witness_CallThenRetBalances : ∃ s : State, s.stack.length ≠ s.cfg.stackDepth := ⟨base, by decide⟩

theorem witness_JpV0AddsTheOffset :
    (∃ s : State, s.cfg.jumpBase = .index) ∧ (∃ s : State, s.cfg.jumpBase = .immediate) :=
  ⟨⟨base, rfl⟩, ⟨withCfg base { defaultConfig with jumpBase := .immediate }, rfl⟩⟩

theorem witness_KeySkips :
    (∃ (x : Reg) (s : State), (s.reg x).toNat = 0xF ∧ (s.reg x).toNat ≤ 0xF) ∧
    (∃ (x : Reg) (s : State), (s.reg x).toNat = 0x10 ∧ 0xF < (s.reg x).toNat) :=
  ⟨⟨1, base.setReg 1 0xF, by decide⟩, ⟨1, base.setReg 1 0x10, by decide⟩⟩

theorem witness_KeyWait :
    (∃ (s : State) (k : Key) (rest : List (Option KeyAnswer)), s.host.answers = some (.key k) :: rest) ∧
    (∃ (s : State) (rest : List (Option KeyAnswer)), s.host.answers = some .quit :: rest) ∧
    (∃ (s : State) (rest : List (Option KeyAnswer)), s.host.answers = none :: rest) ∧ (∃ s : State, s.host.answers = []) :=
  ⟨⟨withAnswers base [some (.key 0xF)], 0xF, [], rfl⟩, ⟨withAnswers base [some .quit], [], rfl⟩,
    ⟨withAnswers base [none], [], rfl⟩, ⟨base, rfl⟩⟩

theorem witness_KeyWaitPausesTheTimers :
    ((waitingWith []).status = .waitingKey 3 ∧ (waitingWith []).host.answers = []) ∧
    ((waitingWith [none]).status = .waitingKey 3 ∧ (waitingWith [none]).host.answers = none :: []) ∧
    ((waitingWith [some .quit]).status = .waitingKey 3 ∧ (waitingWith [some .quit]).host.answers = some .quit :: []) := by decide

/-- A key under DEBUG_STEP, under a requested quit, and under neither. -/
theorem witness_KeyWaitPausesTheTimers_key :
    (∃ (s : State) (k : Key), s.status = .waitingKey 3 ∧ s.host.answers = some (.key k) :: [] ∧ s.cfg.debugStep = true) ∧
    (∃ (s : State) (k : Key), s.status = .waitingKey 3 ∧ s.host.answers = some (.key k) :: [] ∧ s.cfg.debugStep = false ∧
      s.host.quitIn = some 0) ∧
    (∃ (s : State) (k : Key), s.status = .waitingKey 3 ∧ s.host.answers = some (.key k) :: [] ∧ s.cfg.debugStep = false ∧
      s.host.quitIn = some 1 ∧ s.host.quitIn ≠ some 0) :=
  ⟨⟨withCfg (waitingWith [some (.key 0xB)]) { defaultConfig with debugStep := true }, 0xB, by decide⟩,
    ⟨(waitingWith []).setHost { base.host with answers := [some (.key 0xB)], quitIn := some 0 }, 0xB, by decide⟩,
    ⟨(waitingWith []).setHost { base.host with answers := [some (.key 0xB)], quitIn := some 1 }, 0xB, by decide⟩⟩

/-- No look without an answer, and two of them. -/
theorem witness_KeyAnswersComeAfterAnyDelay :
    (∃ s : State, s.status = .waitingKey 3 ∧ s.cfg.debugStep = false ∧ s.host.quitIn ≠ some 0 ∧
      s.host.answers = List.replicate 0 none ++ some (.key 0xB) :: []) ∧
    (∃ s : State, s.status = .waitingKey 3 ∧ s.cfg.debugStep = false ∧ s.host.quitIn ≠ some 0 ∧
      s.host.answers = List.replicate 2 none ++ some (.key 0xB) :: []) :=
  ⟨⟨waitingWith [some (.key 0xB)], by decide⟩, ⟨waitingWith [none, none, some (.key 0xB)], by decide⟩⟩

/-- The clauses of AddSubtractWithFlag and ShiftsByOne about x other than 0xF, at its edge. -/
theorem witness_FlagForms : ∃ x : Reg, x ≠ 0xF := ⟨0xE, by decide⟩

theorem witness_FontLookup :
    (∃ (x : Reg) (s : State), s.cfg.wf = true ∧ (s.reg x).toNat = 0xF) ∧
    (∃ (x : Reg) (s : State), s.cfg.wf = true ∧ (s.reg x).toNat = 0x10) :=
  ⟨⟨0, base.setReg 0 0xF, by decide⟩, ⟨0, base.setReg 0 0x10, by decide⟩⟩

theorem witness_RandomByteMasked : ∃ (s : State) (q : Byte) (rest : List Byte), s.host.rands = q :: rest :=
  ⟨base.setHost { base.host with rands := [0xB6] }, 0xB6, [], rfl⟩

/-- The last three bytes of Memory; the three bytes after the font. -/
theorem witness_BcdStore :
    (∃ s : State, Memory.wf (unlisted s.cfg) s.mem = true ∧ s.i = 0xFFD ∧ ∀ k < 3, Storable s.cfg (s.i.toNat + k)) ∧
    (∃ s : State, Memory.wf (unlisted s.cfg) s.mem = true ∧ s.i = 0x0A0 ∧ ∀ k < 3, Storable s.cfg (s.i.toNat + k)) :=
  ⟨⟨base.setI 0xFFD, by decide, by decide, by simp only [Storable]; decide⟩,
    ⟨base.setI 0x0A0, by decide, by decide, by simp only [Storable]; decide⟩⟩

/-- M4 and M6: byte 2 is the first that cannot be stored. -/
theorem witness_BcdStore_fault :
    (∃ (s : State) (k : Nat), Memory.wf (unlisted s.cfg) s.mem = true ∧ s.i = 0xFFE ∧ k < 3 ∧
      ¬ Storable s.cfg (s.i.toNat + k) ∧ ∀ j < k, Storable s.cfg (s.i.toNat + j)) ∧
    (∃ (s : State) (k : Nat), Memory.wf (unlisted s.cfg) s.mem = true ∧ s.i = 0x04E ∧ k < 3 ∧
      ¬ Storable s.cfg (s.i.toNat + k) ∧ ∀ j < k, Storable s.cfg (s.i.toNat + j)) :=
  ⟨⟨base.setI 0xFFE, 2, by decide, by decide, by decide, by simp only [Storable]; decide, by simp only [Storable]; decide⟩,
    ⟨base.setI 0x04E, 2, by decide, by decide, by decide, by simp only [Storable]; decide, by simp only [Storable]; decide⟩⟩

/-- The last sixteen bytes of Memory; one byte just below the font. -/
theorem witness_BlockStore :
    (∃ (x : Reg) (s : State), Memory.wf (unlisted s.cfg) s.mem = true ∧ x = 0xF ∧ s.i = 0xFF0 ∧
      ∀ r : Reg, r ≤ x → Storable s.cfg (s.i.toNat + r.val)) ∧
    (∃ (x : Reg) (s : State), Memory.wf (unlisted s.cfg) s.mem = true ∧ x = 0 ∧ s.i = 0x04F ∧
      ∀ r : Reg, r ≤ x → Storable s.cfg (s.i.toNat + r.val)) :=
  ⟨⟨0xF, base.setI 0xFF0, by decide, by decide, by decide, by simp only [Storable]; decide⟩,
    ⟨0, base.setI 0x04F, by decide, by decide, by decide, by simp only [Storable]; decide⟩⟩

/-- M10: register F is the first that cannot be stored; the last byte of the font. -/
theorem witness_BlockStore_fault :
    (∃ (x r : Reg) (s : State), Memory.wf (unlisted s.cfg) s.mem = true ∧ s.i = 0xFF1 ∧ r ≤ x ∧
      ¬ Storable s.cfg (s.i.toNat + r.val) ∧ ∀ q : Reg, q < r → Storable s.cfg (s.i.toNat + q.val)) ∧
    (∃ (x r : Reg) (s : State), Memory.wf (unlisted s.cfg) s.mem = true ∧ s.i = 0x09F ∧ r ≤ x ∧
      ¬ Storable s.cfg (s.i.toNat + r.val) ∧ ∀ q : Reg, q < r → Storable s.cfg (s.i.toNat + q.val)) :=
  ⟨⟨0xF, 0xF, base.setI 0xFF1, by decide, by decide, by decide, by simp only [Storable]; decide,
      by simp only [Storable]; decide⟩,
    ⟨3, 0, base.setI 0x09F, by decide, by decide, by decide, by simp only [Storable]; decide,
      by simp only [Storable]; decide⟩⟩

/-- M12 and M13. -/
theorem witness_BlockLoad :
    (∃ (x : Reg) (s : State), x = 0xF ∧ s.i.toNat + x.val = 0xFFF) ∧
    (∃ (x r : Reg) (s : State), r ≤ x ∧ r = 0xF ∧ 0xFFF < s.i.toNat + r.val ∧
      ∀ q : Reg, q < r → s.i.toNat + q.val ≤ 0xFFF) :=
  ⟨⟨0xF, base.setI 0xFF0, by decide⟩, ⟨0xF, 0xF, base.setI 0xFF1, by decide⟩⟩

theorem witness_MemoryReadsTheLatestWrite :
    Memory.wf (unlisted (sprite 0x80).cfg) (sprite 0x80).mem = true ∧ (sprite 0x80).mem = [(0x300, 0x80)] := by decide

theorem witness_CanonicalMemoryIsUnique :
    ∃ (d : Nat → Byte) (m m' : List Host.Cell), Memory.wf d m = true ∧ Memory.wf d m' = true ∧
      (∀ a, Memory.read d m a = Memory.read d m' a) ∧ m ≠ [] :=
  ⟨fun _ => 0, [(0xFFF, 1)], [(0xFFF, 1)], by decide, by decide, fun _ => rfl, by decide⟩

/-- The first byte of the next word, and the last byte of Memory as its second. -/
theorem witness_StoresAreSeenByFetch :
    (∃ (s t : State) (a : Nat) (b : Byte), Memory.wf (unlisted s.cfg) s.mem = true ∧ memWrite s a b = .ok t ∧
      a = t.pc.toNat ∧ t.pc.toNat ≤ 0xFFE) ∧
    (∃ (s t : State) (a : Nat) (b : Byte), Memory.wf (unlisted s.cfg) s.mem = true ∧ memWrite s a b = .ok t ∧
      a = t.pc.toNat + 1 ∧ a = 0xFFF) :=
  ⟨⟨base, base.setByte 0x202 0x12, 0x202, 0x12, by decide, rfl, by decide, by decide⟩,
    ⟨base.setPc 0xFFE, (base.setPc 0xFFE).setByte 0xFFF 0x12, 0xFFF, 0x12, by decide, rfl, by decide, by decide⟩⟩

/-- The hypotheses of OnlyFlagWritersWriteVF, PcAfterEachInstruction, OnlyCallAndRetTouchTheStack,
OnlyClsAndDrwTouchTheScreen, OnlyBcdAndBlockStoreWriteMemory and IndexAndTimerWriters: an instruction that completes, here a
store, a call, a return, a flag writer and, for the rule about VF, a register it leaves alone. -/
theorem witness_WholeMachineRules :
    base.isFaulted = false ∧
    after (exec (.storeRegs 0) (base.setI 0x300)) State.isFaulted = some false ∧
    after (exec (.call 0x300) base) State.isFaulted = some false ∧
    after (exec .ret (base.setStack [0x206])) State.isFaulted = some false ∧
    after (exec (.addReg 1 2) base) State.isFaulted = some false ∧
    (3 : Reg) ∉ namedDest (.addReg 1 2) ∧ ¬ ((3 : Reg) = 0xF ∧ writesFlag (.addReg 1 2) = true) := by decide

/-- Every kind of fault of the rule about faults is met. -/
theorem witness_FaultsComeFromTheirInstructions :
    after (exec .ret base) (fun t => t.status) = some (.haltedFault (.stackUnderflow (base.pc - 2))) ∧
    after (exec (.drw 0 0 1) (base.setI 0x1000)) (fun t => t.status) =
      some (.haltedFault (.memoryOutOfBounds 0x1000 (base.pc - 2))) ∧
    after (exec (.ldB 0) (base.setI 0x09F)) (fun t => t.status) =
      some (.haltedFault (.fontWrite 0x09F (base.pc - 2))) := by decide

/-- The highest address a word can start at. -/
theorem witness_StepRunsTheDecodedInstruction :
    ∃ (s : State) (i : Instr), s.atIteration ∧ s.pc.toNat = 0xFFE ∧ decode (wordAtPc s) = .ok i :=
  ⟨((base.setPc 0xFFE).setByte 0xFFE 0x60).setByte 0xFFF 0x42, .ldImm 0 0x42, ⟨rfl, rfl⟩, by decide, by decide⟩

theorem witness_FetchAndDecodeFaults :
    (∃ s : State, s.atIteration ∧ s.pc.toNat = 0xFFF) ∧
    (∃ s : State, s.atIteration ∧ s.pc.toNat ≤ 0xFFE ∧ decode (wordAtPc s) = .error (.unrecognized 0x0000)) :=
  ⟨⟨base.setPc 0xFFF, ⟨rfl, rfl⟩, by decide⟩, ⟨base, ⟨rfl, rfl⟩, by decide, by decide⟩⟩

theorem witness_IterationRendersAndCountsDown :
    ∃ s : State, s.status = .running ∧ s.cfg.debugStep = false ∧ s.host.quitIn ≠ some 0 ∧ s.redraw = true ∧ s.st = 1 :=
  ⟨(base.setSt 1).setRedraw true, by decide⟩

/-- The poll that answers true, the one before it, and a host that never quits. -/
theorem witness_QuitPollEndsTheRun :
    (∃ s : State, s.status = .running ∧ s.cfg.debugStep = false ∧ s.host.quitIn = some 0) ∧
    (∃ s : State, s.host.quitIn = some 1 ∧ s.host.quitIn ≠ some 0) ∧ (∃ s : State, s.host.quitIn = none) :=
  ⟨⟨base.setHost { base.host with quitIn := some 0 }, by decide⟩,
    ⟨base.setHost { base.host with quitIn := some 1 }, by decide⟩, ⟨base, by decide⟩⟩

/-- A word of each format has the value its rule writes, and the instruction reads back. -/
theorem witness_EncodedAs :
    (∃ v : Word, v.toNat = 0x00E0) ∧ (∃ v : Word, v.toNat = 0xD000 + 256 * (0xF : Reg).val + 16 * (0xF : Reg).val + 15) ∧
    (∃ v : Word, v.toNat = 0xF065 + 256 * (0xF : Reg).val) ∧ (∃ v : Word, v.toNat = 0xB000 + (0xFFF : Addr12).toNat) :=
  ⟨⟨0x00E0, by decide⟩, ⟨0xDFFF, by decide⟩, ⟨0xFF65, by decide⟩, ⟨0xBFFF, by decide⟩⟩

theorem witness_DebugHoldWaitsForItsKey :
    (∃ s : State, s.status = .running ∧ s.cfg.debugStep = true) ∧
    (∃ s : State, s.status = .running ∧ s.hold = true ∧ s.host.answers = []) ∧
    (∃ s : State, s.status = .running ∧ s.hold = true ∧ s.host.answers = none :: []) ∧
    (∃ (s : State) (k : Key), s.status = .running ∧ s.hold = true ∧ s.host.answers = some (.key k) :: [] ∧
      k ≠ s.cfg.continueKey) ∧
    (∃ s : State, s.status = .running ∧ s.hold = true ∧ s.host.answers = some .quit :: []) :=
  ⟨⟨held [], by decide⟩, ⟨held [], by decide⟩, ⟨held [none], by decide⟩, ⟨held [some (.key 3)], 3, by decide⟩,
    ⟨held [some .quit], by decide⟩⟩

/-- CONTINUE_KEY with the quit requested, and with it one poll away. -/
theorem witness_DebugHoldWaitsForItsKey_continue :
    (∃ s : State, s.status = .running ∧ s.hold = true ∧ s.host.answers = some (.key s.cfg.continueKey) :: [] ∧
      s.host.quitIn = some 0) ∧
    (∃ s : State, s.status = .running ∧ s.hold = true ∧ s.host.answers = some (.key s.cfg.continueKey) :: [] ∧
      s.host.quitIn ≠ some 0) :=
  ⟨⟨(held []).setHost { base.host with answers := [some (.key 7)], quitIn := some 0 }, by decide⟩,
    ⟨(held []).setHost { base.host with answers := [some (.key 7)], quitIn := some 1 }, by decide⟩⟩

/-- A step that a fault ends, and one that none ends. -/
theorem witness_FaultsSilenceTheToneAndEndTheRun :
    (∃ s t : State, step s = .next t ∧ ∃ f, t.status = .haltedFault f) ∧
    (∃ s t : State, step s = .next t ∧ t.isFaulted = false) :=
  ⟨⟨base, _, (by rw [step_iteration ⟨rfl, rfl⟩]; rfl), _, rfl⟩,
    ⟨base.setStatus (.haltedNormal .quitRequested), _, rfl, by decide⟩⟩

theorem witness_HaltedStatesAreNeverLeft :
    (∃ (s : State) (r : NormalEnd), s.status = .haltedNormal r) ∧ (∃ (s : State) (f : Fault), s.status = .haltedFault f) ∧
    (∃ s t : State, Reaches s t ∧ s.isOver = true) :=
  ⟨⟨base.setStatus (.haltedNormal .quitRequested), .quitRequested, rfl⟩,
    ⟨base.setStatus (.haltedFault (.stackUnderflow 0)), .stackUnderflow 0, rfl⟩,
    ⟨base.setStatus (.haltedNormal .quitRequested), _, .tail .refl rfl, by decide⟩⟩

/-- A state at a word, with a sample the host has ready and a quit one poll away. -/
def sampled (w : Nat) (k : BitVec 16) : State :=
  (atWord (base.setReg 1 0xF) w).setHost { base.host with samples := [k], quitIn := some 1 }

theorem witness_SkipsUseTheIterationsSample :
    (∃ (s : State) (x : Reg) (k : BitVec 16) (rest : List (BitVec 16)), s.atIteration ∧ s.pc.toNat ≤ 0xFFE ∧
      s.cfg.debugStep = false ∧ s.host.quitIn ≠ some 0 ∧ s.host.samples = k :: rest ∧ (s.reg x).toNat = 0xF ∧
      decode (wordAtPc s) = .ok (.skp x)) ∧
    (∃ (s : State) (x : Reg) (k : BitVec 16) (rest : List (BitVec 16)), s.atIteration ∧ s.pc.toNat ≤ 0xFFE ∧
      s.cfg.debugStep = false ∧ s.host.quitIn ≠ some 0 ∧ s.host.samples = k :: rest ∧ (s.reg x).toNat = 0xF ∧
      decode (wordAtPc s) = .ok (.sknp x)) :=
  ⟨⟨sampled 0xE19E 0x8000, 1, 0x8000, [], ⟨rfl, rfl⟩, by decide⟩,
    ⟨sampled 0xE1A1 0x8000, 1, 0x8000, [], ⟨rfl, rfl⟩, by decide⟩⟩

/-- The decode of the timer writers at an iteration, and that their step leaves the core running. -/
theorem witness_TimersCountIterations :
    (atWord base 0xF115).atIteration ∧ decode (wordAtPc (atWord base 0xF115)) = .ok (.ldDtVx 1) ∧
    decode (wordAtPc (atWord base 0xF218)) = .ok (.ldStVx 2) ∧ decode (wordAtPc (atWord base 0x6001)) = .ok (.ldImm 0 1) ∧
    after (step (atWord base 0xF115)) (fun t => t.status) = some .running ∧
    after (step (atWord base 0xF218)) (fun t => t.status) = some .running ∧
    after (step (atWord base 0x6001)) (fun t => t.status) = some .running :=
  ⟨⟨rfl, rfl⟩, by decide, by decide, by decide, by decide, by decide, by decide⟩

/-- The state of the vectors meets the invariant, and steps. -/
theorem witness_StepKeepsTheInvariant : Inv base ∧ (after (step base) (fun _ => ())).isSome = true :=
  ⟨⟨by decide, by decide, by decide, fun _ => by unfold FontIntact; decide, by decide⟩, by decide⟩

theorem witness_FontAndParametersNeverChange : ∃ s t : State, Reaches s t ∧ t.isFaulted = false :=
  ⟨base.setStatus (.haltedNormal .quitRequested), _, .tail .refl rfl, by decide⟩

/-- D7: the longest image accepted, and the shortest refused. -/
theorem witness_ConstructionLoadsTheImage :
    (∃ (c : Config) (img : List Byte), c.wf = true ∧ img.length = 3584) ∧
    (∃ (c : Config) (img : List Byte), c.wf = true ∧ img.length = 3 ∧ img.length ≤ 3584) ∧
    (∃ img : List Byte, img.length = 3585 ∧ 3584 < img.length) :=
  ⟨⟨defaultConfig, List.replicate 3584 0x12, by decide, List.length_replicate⟩,
    ⟨defaultConfig, [0x12, 0x00, 0x12], by decide⟩,
    ⟨List.replicate 3585 0x12, List.length_replicate, by rw [List.length_replicate]; omega⟩⟩

end Sys2Proof.Tests
end

section
/-! SUPPORT. The frame of every instruction, said once: the tables `writtenParts` and `writtenRegs`, one rule per setter for
`FrameExcept`, and `exec_frame`. Whole-machine rules about what an instruction leaves unchanged cite it. -/

namespace Sys2Proof.Machine

/-- The parts of the state an instruction that no fault ends may change, with the parameters `c` (10_state.md R25, R28, R33,
40_screen.md R130, 47_timers.md R270). -/
def writtenParts (c : Config) : Instr → List Part
  | .cls | .drw _ _ _ => [.fb, .redraw]
  | .ret | .call _ => [.pc, .stack]
  | .jp _ | .jpV0 _ | .seImm _ _ | .sneImm _ _ | .seReg _ _ | .sneReg _ _ | .skp _ | .sknp _ => [.pc]
  | .ldI _ | .addI _ | .ldF _ => [.i]
  | .storeRegs _ | .loadRegs _ => if c.loadStoreIncrementsI then [.i] else []
  | .ldDtVx _ => [.dt]
  | .ldStVx _ => [.st]
  | .rnd _ _ => [.host]
  | .ldVxK _ => [.status, .host, .out]
  | .ldImm _ _ | .addImm _ _ | .ldReg _ _ | .orReg _ _ | .andReg _ _ | .xorReg _ _ | .addReg _ _ | .subReg _ _
  | .shr _ _ | .subnReg _ _ | .shl _ _ | .ldVxDt _ | .ldB _ => []

/-- The registers an instruction may change: its named destinations, and VF when it is a flag writer (10_state.md R22). -/
def writtenRegs (i : Instr) : List Reg := namedDest i ++ if writesFlag i then [flagReg] else []

@[simp] theorem mem_writtenRegs {i : Instr} {r : Reg} :
    r ∈ writtenRegs i ↔ r ∈ namedDest i ∨ (writesFlag i = true ∧ r = flagReg) := by
  cases h : writesFlag i <;> simp [writtenRegs, h]

/-! ## One frame rule per setter -/

section
variable {ps : List Part} {rs : List Reg} {bs : List Nat} {s t : State}

theorem FrameExcept.refl (ps : List Part) (rs : List Reg) (bs : List Nat) (s : State) : FrameExcept ps rs bs s s := by
  constructor <;> simp

theorem FrameExcept.setI (h : FrameExcept ps rs bs s t) (w : Word) (hm : .i ∈ ps) :
    FrameExcept ps rs bs s (t.setI w) := { h with i := fun hn => absurd hm hn }

theorem FrameExcept.setPc (h : FrameExcept ps rs bs s t) (w : Word) (hm : .pc ∈ ps) :
    FrameExcept ps rs bs s (t.setPc w) := { h with pc := fun hn => absurd hm hn }

theorem FrameExcept.setDt (h : FrameExcept ps rs bs s t) (b : Byte) (hm : .dt ∈ ps) :
    FrameExcept ps rs bs s (t.setDt b) := { h with dt := fun hn => absurd hm hn }

theorem FrameExcept.setSt (h : FrameExcept ps rs bs s t) (b : Byte) (hm : .st ∈ ps) :
    FrameExcept ps rs bs s (t.setSt b) := { h with st := fun hn => absurd hm hn }

theorem FrameExcept.setStack (h : FrameExcept ps rs bs s t) (l : List Word) (hm : .stack ∈ ps) :
    FrameExcept ps rs bs s (t.setStack l) := { h with stack := fun hn => absurd hm hn }

theorem FrameExcept.setFb (h : FrameExcept ps rs bs s t) (fb : FrameBuffer) (hm : .fb ∈ ps) :
    FrameExcept ps rs bs s (t.setFb fb) := { h with fb := fun hn => absurd hm hn }

theorem FrameExcept.setRedraw (h : FrameExcept ps rs bs s t) (b : Bool) (hm : .redraw ∈ ps) :
    FrameExcept ps rs bs s (t.setRedraw b) := { h with redraw := fun hn => absurd hm hn }

theorem FrameExcept.setStatus (h : FrameExcept ps rs bs s t) (c : Status) (hm : .status ∈ ps) :
    FrameExcept ps rs bs s (t.setStatus c) := { h with status := fun hn => absurd hm hn }

theorem FrameExcept.setHost (h : FrameExcept ps rs bs s t) (k : HostScript) (hm : .host ∈ ps) :
    FrameExcept ps rs bs s (t.setHost k) := { h with host := fun hn => absurd hm hn }

theorem FrameExcept.setDraws (h : FrameExcept ps rs bs s t) (n : Nat) (hm : .host ∈ ps) :
    FrameExcept ps rs bs s (t.setDraws n) := { h with host := fun hn => absurd hm hn }

theorem FrameExcept.emit (h : FrameExcept ps rs bs s t) (es : List Event) (hm : .out ∈ ps) :
    FrameExcept ps rs bs s (t.emit es) := { h with out := fun hn => absurd hm hn }

theorem FrameExcept.setReg (h : FrameExcept ps rs bs s t) {x : Reg} (b : Byte) (hm : x ∈ rs) :
    FrameExcept ps rs bs s (t.setReg x b) :=
  { h with
    regs := fun r hr => by
      have hne : r ≠ x := fun e => hr (e ▸ hm)
      rw [State.reg_setReg_ne _ _ hne, h.regs r hr] }

/-! ## Frames of the shared operations -/

theorem FrameExcept.setResultThenFlag (h : FrameExcept ps rs bs s t) {x : Reg} (b : Byte) (f : Bool) (hx : x ∈ rs)
    (hf : flagReg ∈ rs) : FrameExcept ps rs bs s (setResultThenFlag t x b f) := (h.setReg b hx).setReg _ hf

theorem FrameExcept.setFlagThenResult (h : FrameExcept ps rs bs s t) {x : Reg} (b : Byte) (f : Bool) (hx : x ∈ rs)
    (hf : flagReg ∈ rs) : FrameExcept ps rs bs s (setFlagThenResult t x b f) := (h.setReg _ hf).setReg b hx

theorem FrameExcept.afterRand (h : FrameExcept ps rs bs s t) (hm : .host ∈ ps) :
    FrameExcept ps rs bs s (afterRand t) := by
  rw [afterRand_eq]; exact (h.setHost _ hm).setDraws _ hm

theorem FrameExcept.awaitKey (h : FrameExcept ps rs bs s t) {x : Reg} (hs : .status ∈ ps) (hh : .host ∈ ps)
    (hx : x ∈ rs) : FrameExcept ps rs bs s (awaitKey x t) := by
  have hd : FrameExcept ps rs bs s (dropAnswer t) := h.setHost _ hh
  rcases awaitKey_cases x t with ⟨-, e⟩ | ⟨-, e⟩ | ⟨k, -, e⟩ <;> rw [e]
  · exact hd
  · exact hd.setStatus _ hs
  · exact (hd.setReg _ hx).setStatus _ hs

/-- A block store or load moves I only under LOADSTORE_INCREMENTS_I. -/
theorem FrameExcept.afterBlock (h : FrameExcept ps rs bs s t) (x : Reg)
    (hm : s.cfg.loadStoreIncrementsI = true → .i ∈ ps) : FrameExcept ps rs bs s (afterBlock x t) := by
  obtain ⟨-, -, hc⟩ := h.fixed
  rw [Machine.afterBlock]
  cases hi : t.cfg.loadStoreIncrementsI
  · exact h
  · exact h.setI _ (hm (hc ▸ hi))

theorem frame_of_memWriteAll {l : List (Nat × Byte)} (h : memWriteAll s l = .ok t) :
    FrameExcept ps rs (l.map Prod.fst) s t := by
  obtain ⟨ht, -, hb, -⟩ := memWriteAll_eq_ok h
  rw [ht] at hb ⊢
  exact { FrameExcept.refl ps rs [] s with bytes := hb }

theorem frame_of_loadEach {x : Reg} (h : loadEach s (regsUpTo x) = .ok t) :
    FrameExcept ps (regsUpTo x) bs s t := by
  obtain ⟨ht, -, -, hr⟩ := loadEach_eq_ok (regsUpTo_nodup x) h
  rw [ht] at hr ⊢
  exact { FrameExcept.refl ps [] bs s with regs := hr }

end

/-! ## The frame of an instruction -/

theorem eq_faulted_of_raise {f : Fault} {s t : State} (h : raise f s = .next t) : ∃ f, t = faulted f s :=
  ⟨f, raise_eq_next.mp h⟩

theorem raise_ne_next {f : Fault} {s t : State} (ht : t.isFaulted = false) : raise f s ≠ .next t := by
  intro h
  rw [raise_eq_next.mp h, faulted_isFaulted] at ht
  cases ht

/-- Executing an instruction raises a fault in the state it executes in, or changes at most what the tables give it. -/
theorem exec_frame {i : Instr} {s t : State} (h : exec i s = .next t) :
    (∃ f, t = faulted f s) ∨ FrameExcept (writtenParts s.cfg i) (writtenRegs i) (storedAddrs s i) s t := by
  have start := FrameExcept.refl (writtenParts s.cfg i) (writtenRegs i) (storedAddrs s i) s
  cases i
  case cls => cases h; exact .inr ((start.setFb _ (by simp [writtenParts])).setRedraw _ (by simp [writtenParts]))
  case ret =>
    simp only [exec, execRet] at h
    split at h
    · rename_i w u hp
      obtain ⟨rest, -, rfl⟩ := pop_eq_ok.mp hp
      cases h; exact .inr ((start.setStack _ (by simp [writtenParts])).setPc _ (by simp [writtenParts]))
    · exact .inl (eq_faulted_of_raise h)
  case call nnn =>
    simp only [exec, execCall] at h
    split at h
    · rename_i u hp
      obtain ⟨-, rfl⟩ := push_eq_ok.mp hp
      cases h; exact .inr ((start.setStack _ (by simp [writtenParts])).setPc _ (by simp [writtenParts]))
    · exact .inl (eq_faulted_of_raise h)
  case jp | jpV0 | seImm | sneImm | seReg | sneReg => cases h; exact .inr (start.setPc _ (by simp [writtenParts]))
  case skp | sknp =>
    simp only [exec, execSkp, execSknp] at h
    split at h
    · cases h; exact .inr (start.setPc _ (by simp [writtenParts]))
    · exact .inl (eq_faulted_of_raise h)
  case ldImm | addImm | ldReg | orReg | andReg | xorReg | ldVxDt =>
    cases h; exact .inr (start.setReg _ (by simp [namedDest]))
  case addReg | subReg | subnReg =>
    cases h; exact .inr (start.setResultThenFlag _ _ (by simp [namedDest]) (by simp [writesFlag]))
  case shr | shl =>
    cases h; exact .inr (start.setFlagThenResult _ _ (by simp [namedDest]) (by simp [writesFlag]))
  case ldI | addI => cases h; exact .inr (start.setI _ (by simp [writtenParts]))
  case ldF x =>
    simp only [exec, execLdF] at h
    split at h
    · cases h; exact .inr (start.setI _ (by simp [writtenParts]))
    · exact .inl (eq_faulted_of_raise h)
  case rnd => cases h; exact .inr ((start.afterRand (by simp [writtenParts])).setReg _ (by simp [namedDest]))
  case drw x y n =>
    simp only [exec, execDrw] at h
    split at h
    · cases h
      exact .inr ((((start.setReg _ (by simp [writesFlag])).setFb _ (by simp [writtenParts])).setReg _
        (by simp [writesFlag])).setRedraw _ (by simp [writtenParts]))
    · exact .inl (eq_faulted_of_raise h)
  case ldVxK x =>
    cases h
    exact .inr (((start.setStatus _ (by simp [writtenParts])).emit _ (by simp [writtenParts])).awaitKey
      (by simp [writtenParts]) (by simp [writtenParts]) (by simp [namedDest]))
  case ldDtVx => cases h; exact .inr (start.setDt _ (by simp [writtenParts]))
  case ldStVx => cases h; exact .inr (start.setSt _ (by simp [writtenParts]))
  case ldB x =>
    simp only [exec, execLdB, conclude] at h
    split at h
    · rename_i u hp; cases h; exact .inr (frame_of_memWriteAll hp)
    · exact .inl (eq_faulted_of_raise h)
  case storeRegs x =>
    simp only [exec, execStoreRegs] at h
    split at h
    · rename_i u hp
      cases h; exact .inr ((frame_of_memWriteAll hp).afterBlock x (by simp +contextual [writtenParts]))
    · exact .inl (eq_faulted_of_raise h)
  case loadRegs x =>
    simp only [exec, execLoadRegs] at h
    split at h
    · rename_i u hp
      have hr : writtenRegs (.loadRegs x) = regsUpTo x := by simp [writtenRegs, namedDest, writesFlag]
      cases h; rw [hr]
      exact .inr ((frame_of_loadEach hp).afterBlock x (by simp +contextual [writtenParts]))
    · exact .inl (eq_faulted_of_raise h)

theorem storable_of_memWriteAll {l : List (Nat × Byte)} {s t : State} (h : memWriteAll s l = .ok t) :
    ∀ a ∈ l.map Prod.fst, Storable s.cfg a := by
  obtain ⟨-, hs, -, -⟩ := memWriteAll_eq_ok h
  simpa using fun a b hab => hs (a, b) hab

/-- The bytes an instruction that no fault ends stores to can all be stored to, so none is a byte of the font
(20_memory.md R67, R68). -/
theorem exec_storedAddrs_storable {i : Instr} {s t : State} (h : exec i s = .next t) :
    (∃ f, t = faulted f s) ∨ ∀ a ∈ storedAddrs s i, Storable s.cfg a := by
  cases i
  case ldB x =>
    simp only [exec, execLdB, conclude] at h
    split at h
    · rename_i u hp; exact .inr (storable_of_memWriteAll hp)
    · exact .inl (eq_faulted_of_raise h)
  case storeRegs x =>
    simp only [exec, execStoreRegs] at h
    split at h
    · rename_i u hp; exact .inr (storable_of_memWriteAll hp)
    · exact .inl (eq_faulted_of_raise h)
  all_goals exact .inr (by simp [storedAddrs])

end Sys2Proof.Machine
end

section
/-! SUPPORT. The rules of 10_state.md over all instructions (R22, R25, R28, R33), each read off the frame of `exec_frame`. -/

namespace Sys2Proof.Machine

theorem exec_frame_of_not_faulted {i : Instr} {s t : State} (h : exec i s = .next t) (ht : t.isFaulted = false) :
    FrameExcept (writtenParts s.cfg i) (writtenRegs i) (storedAddrs s i) s t := by
  rcases exec_frame h with ⟨f, rfl⟩ | hF
  · simp at ht
  · exact hF

/-- Settles O34: the registers outside `writtenRegs` stand in the frame. -/
theorem onlyFlagWritersWriteVF : Obligations.OnlyFlagWritersWriteVF := by
  intro i s t r h _ ht hdest hflag
  refine (exec_frame_of_not_faulted h ht).regs r ?_
  rw [mem_writtenRegs]
  rintro (hr | ⟨hw, rfl⟩)
  · exact hdest hr
  · exact hflag ⟨rfl, hw⟩

/-! ## Index register and timers -/

theorem i_mem_writtenParts {c : Config} {i : Instr} : .i ∈ writtenParts c i ↔
    (∃ nnn, i = .ldI nnn) ∨ (∃ x, i = .addI x) ∨ (∃ x, i = .ldF x) ∨
      (c.loadStoreIncrementsI = true ∧ ((∃ x, i = .storeRegs x) ∨ (∃ x, i = .loadRegs x))) := by
  cases i <;> simp [writtenParts]

theorem dt_mem_writtenParts {c : Config} {i : Instr} : .dt ∈ writtenParts c i ↔ ∃ x, i = .ldDtVx x := by
  cases i <;> simp [writtenParts]

theorem st_mem_writtenParts {c : Config} {i : Instr} : .st ∈ writtenParts c i ↔ ∃ x, i = .ldStVx x := by
  cases i <;> simp [writtenParts]

/-- Settles O39: a part that changes is in the instruction's row of `writtenParts`. -/
theorem indexAndTimerWriters : Obligations.IndexAndTimerWriters := by
  intro i s t h _ ht
  have hF := exec_frame_of_not_faulted h ht
  exact ⟨fun hne => i_mem_writtenParts.mp (by_contra fun hn => hne (hF.i hn)),
    fun hne => dt_mem_writtenParts.mp (by_contra fun hn => hne (hF.dt hn)),
    fun hne => st_mem_writtenParts.mp (by_contra fun hn => hne (hF.st hn))⟩

/-! ## The return-address stack -/

theorem stack_mem_writtenParts {c : Config} {i : Instr} :
    .stack ∈ writtenParts c i ↔ (∃ nnn, i = .call nnn) ∨ i = .ret := by
  cases i <;> simp [writtenParts]

/-- A CALL that no fault ends pushes PC, which is A + 2, and jumps (41_flow.md R153). -/
theorem exec_call_of_not_faulted {nnn : Addr12} {s t : State} (h : exec (.call nnn) s = .next t)
    (ht : t.isFaulted = false) : t.stack = s.stack ++ [s.pc] ∧ t.pc = zext12 nnn := by
  simp only [exec, execCall] at h
  split at h
  · rename_i u hp
    obtain ⟨-, rfl⟩ := push_eq_ok.mp hp
    cases h; exact ⟨rfl, rfl⟩
  · exact absurd h (raise_ne_next ht)

/-- A RET that no fault ends takes PC from the top of the stack (41_flow.md R151). -/
theorem exec_ret_of_not_faulted {s t : State} (h : exec .ret s = .next t) (ht : t.isFaulted = false) :
    s.stack = t.stack ++ [t.pc] := by
  simp only [exec, execRet] at h
  split at h
  · rename_i w u hp
    obtain ⟨rest, hs, rfl⟩ := pop_eq_ok.mp hp
    cases h; exact hs
  · exact absurd h (raise_ne_next ht)

/-- Settles O36: CALL and RET by their own equations, every other instruction by its frame. -/
theorem onlyCallAndRetTouchTheStack : Obligations.OnlyCallAndRetTouchTheStack := by
  intro i s t h _ ht
  refine ⟨?_, ?_, fun hcall hret => (exec_frame_of_not_faulted h ht).stack ?_⟩
  · rintro nnn rfl
    exact (exec_call_of_not_faulted h ht).1
  · rintro rfl
    exact ⟨t.pc, exec_ret_of_not_faulted h ht⟩
  · rw [stack_mem_writtenParts]
    rintro (⟨nnn, e⟩ | e)
    · exact hcall nnn e
    · exact hret e

/-! ## PC -/

/-- A key skip that no fault ends moves PC by its condition (42_skip.md R170, 46_keys.md R251, R252). -/
theorem exec_skp_of_not_faulted {x : Reg} {s t : State} (h : exec (.skp x) s = .next t) (ht : t.isFaulted = false) :
    t = skipIf (isKeyDown s (s.reg x).toNat) s := by
  simp only [exec, execSkp] at h
  split at h
  · cases h; rfl
  · exact absurd h (raise_ne_next ht)

theorem exec_sknp_of_not_faulted {x : Reg} {s t : State} (h : exec (.sknp x) s = .next t) (ht : t.isFaulted = false) :
    t = skipIf (!isKeyDown s (s.reg x).toNat) s := by
  simp only [exec, execSknp] at h
  split at h
  · cases h; rfl
  · exact absurd h (raise_ne_next ht)

/-- The skip law (42_skip.md R170), with its condition as a proposition. -/
theorem skipIf_pc (c : Bool) (s : State) : (skipIf c s).pc = if c = true then s.pc + 2 else s.pc := rfl

/-- Settles O35: the instructions that set PC by their own equations, every other one by its frame. -/
theorem pcAfterEachInstruction : Obligations.PcAfterEachInstruction := by
  intro i s t h _ ht
  cases i
  case jp nnn => cases h; rfl
  case call nnn => exact (exec_call_of_not_faulted h ht).2
  case ret => simp [pcAfter, exec_ret_of_not_faulted h ht]
  case jpV0 nnn => cases h; cases hj : s.cfg.jumpBase <;> simp [pcAfter, jumpOffsetBase, hj]
  case seImm | sneImm | seReg | sneReg => cases h; simp [pcAfter, skipIf_pc]
  case skp x => rw [exec_skp_of_not_faulted h ht]; rfl
  case sknp x => rw [exec_sknp_of_not_faulted h ht]; simp [pcAfter, skipIf_pc, isKeyDown]
  all_goals exact (exec_frame_of_not_faulted h ht).pc (by simp [writtenParts])

end Sys2Proof.Machine
end

section
/-! SUPPORT. What a step keeps, said once (`step_fault_or_keeps`): it raises a fault, or it keeps the parameters, the canonical form of
Memory, the bound of the stack and the font region (10_state.md R32, R41, 20_memory.md R68). The rules over runs and the
invariant's step follow from it. -/

namespace Sys2Proof.Machine

/-! ## Halted states -/

/-- Only a core that no fault has ended takes a step (60_exceptions.md R312). -/
theorem isFaulted_of_step {s t : State} (h : step s = .next t) : s.isFaulted = false := by
  rw [isFaulted_eq_false]
  intro f hf
  rw [step_haltedFault hf] at h
  cases h

/-- A run that is over steps to itself if at all (60_exceptions.md R331). -/
theorem step_of_isOver {s t : State} (ho : s.isOver = true) (h : step s = .next t) : t = s := by
  cases hs : s.status with
  | running => simp [State.isOver, State.haltPort, hs] at ho
  | waitingKey x => simp [State.isOver, State.haltPort, hs] at ho
  | haltedNormal r => rw [step_haltedNormal hs] at h; cases h; rfl
  | haltedFault f => rw [step_haltedFault hs] at h; cases h

/-- Settles O47: by the step of each halted status, and along runs because being where the run started is kept. -/
theorem haltedStatesAreNeverLeft : Obligations.HaltedStatesAreNeverLeft := by
  refine ⟨fun s r hs => step_haltedNormal hs, fun s f hs t h => ?_, fun s t hr ho => ?_⟩
  · rw [step_haltedFault hs] at h; cases h
  · refine reaches_keeps (P := (· = s)) ?_ rfl hr
    rintro a b rfl hab
    exact step_of_isOver ho hab

/-! ## What the parts of a step keep -/

/-- `t` has the parameters and the font region of `s`, and Memory's form and the stack's bound if `s` has them. -/
structure Keeps (s t : State) : Prop where
  cfg : t.cfg = s.cfg
  memory : Memory.wf (unlisted s.cfg) s.mem = true → Memory.wf (unlisted s.cfg) t.mem = true
  stack : s.stack.length ≤ s.cfg.stackDepth → t.stack.length ≤ s.cfg.stackDepth
  font : ∀ a, s.cfg.fontBase ≤ a → a ≤ s.cfg.fontBase + 79 → t.byteAt a = s.byteAt a

theorem Keeps.of_eq {s t : State} (hc : t.cfg = s.cfg) (hm : t.mem = s.mem) (hs : t.stack = s.stack) : Keeps s t where
  cfg := hc
  memory := fun h => hm ▸ h
  stack := fun h => hs ▸ h
  font := fun a _ _ => by rw [State.byteAt, State.byteAt, hc, hm]

theorem Keeps.refl (s : State) : Keeps s s := .of_eq rfl rfl rfl

theorem Keeps.trans {s t u : State} (h : Keeps s t) (k : Keeps t u) : Keeps s u where
  cfg := k.cfg.trans h.cfg
  memory := fun hw => h.cfg ▸ k.memory (h.cfg ▸ h.memory hw)
  stack := fun hl => h.cfg ▸ k.stack (h.cfg ▸ h.stack hl)
  font := fun a h1 h2 => (k.font a (h.cfg ▸ h1) (h.cfg ▸ h2)).trans (h.font a h1 h2)

theorem keeps_scanInputs (s : State) : Keeps s (scanInputs s) := by
  rw [scanInputs_eq]; exact .of_eq rfl rfl rfl

theorem keeps_advancePc (s : State) : Keeps s (advancePc s) := .of_eq rfl rfl rfl

theorem keeps_dropAnswer (s : State) : Keeps s (dropAnswer s) := .of_eq rfl rfl rfl

theorem keeps_awaitKey (x : Reg) (s : State) : Keeps s (awaitKey x s) := by
  rcases awaitKey_cases x s with ⟨-, e⟩ | ⟨-, e⟩ | ⟨k, -, e⟩ <;> rw [e] <;> exact .of_eq rfl rfl rfl

theorem keeps_finishIteration (s : State) : Keeps s (finishIteration s) := by
  by_cases hq : s.host.quitIn = some 0
  · rw [finishIteration_of_quit hq]; exact .of_eq rfl rfl rfl
  · rw [finishIteration_fields hq]; exact .of_eq rfl rfl rfl

/-- What can follow a cycle: nothing, the debug hold of a running core, or the end of the iteration. -/
theorem afterCycle_cases (s : State) :
    afterCycle s = s ∨ (s.status = .running ∧ afterCycle s = s.setHold true) ∨ afterCycle s = finishIteration s := by
  by_cases hs : s.status = .running
  · cases hd : s.cfg.debugStep
    · exact .inr (.inr (afterCycle_running hs hd))
    · exact .inr (.inl ⟨hs, afterCycle_running_hold hs hd⟩)
  · exact .inl (afterCycle_not_running hs)

theorem keeps_afterCycle (s : State) : Keeps s (afterCycle s) := by
  rcases afterCycle_cases s with e | ⟨-, e⟩ | e <;> rw [e]
  · exact .refl s
  · exact .of_eq rfl rfl rfl
  · exact keeps_finishIteration s

theorem keeps_debugHold (s : State) : Keeps s (debugHold s) := by
  rcases debugHold_cases s with ⟨-, e⟩ | ⟨-, e⟩ | ⟨k, -, -, e⟩ | ⟨-, e⟩ <;> rw [e]
  · exact keeps_dropAnswer s
  · exact .of_eq rfl rfl rfl
  · exact keeps_dropAnswer s
  · have hprint : Keeps s (((dropAnswer s).setHold false).emit [.printRegisters s.v s.i s.pc s.dt s.st]) :=
      .of_eq rfl rfl rfl
    exact hprint.trans (keeps_finishIteration _)

/-- A completed instruction keeps them: the bytes it stores to are never the font's (20_memory.md R68). -/
theorem exec_fault_or_keeps {i : Instr} {s t : State} (h : exec i s = .next t) :
    (∃ f, t = faulted f s) ∨ Keeps s t := by
  rcases exec_cases h with hf | hC
  · exact .inl hf
  rcases exec_frame h with hf | hF
  · exact .inl hf
  rcases exec_storedAddrs_storable h with hf | hS
  · exact .inl hf
  exact .inr ⟨hC.cfg, hC.memory, hC.stack, fun a h1 h2 => hF.bytes a fun ha => (hS a ha).2 ⟨h1, h2⟩⟩

theorem cycle_fault_or_keeps {s t : State} (h : cycle s = .next t) :
    (∃ f u, u.cfg = s.cfg ∧ t = faulted f u) ∨ Keeps s t := by
  rcases cycle_cases s with ⟨-, e⟩ | ⟨-, -, e⟩ | ⟨-, i, -, e⟩ <;> rw [e] at h
  · exact .inl ⟨_, s, rfl, raise_eq_next.mp h⟩
  · exact .inl ⟨_, advancePc s, rfl, raise_eq_next.mp h⟩
  · rcases exec_fault_or_keeps h with ⟨f, e⟩ | hK
    · exact .inl ⟨f, advancePc s, rfl, e⟩
    · exact .inr ((keeps_advancePc s).trans hK)

/-- A step ends in the halted state of a fault, raised under the same parameters, or keeps what `Keeps` lists. -/
theorem step_fault_or_keeps {s t : State} (h : step s = .next t) :
    (∃ f u, u.cfg = s.cfg ∧ t = faulted f u) ∨ Keeps s t := by
  cases hs : s.status with
  | running =>
    cases hh : s.hold with
    | true => rw [step_hold hs hh] at h; cases h; exact .inr (keeps_debugHold s)
    | false =>
      rw [step_iteration ⟨hs, hh⟩] at h
      obtain ⟨v, hv, rfl⟩ := thenDo_eq_next.mp h
      have hscan := keeps_scanInputs s
      rcases cycle_fault_or_keeps hv with ⟨f, u, hu, rfl⟩ | hK
      · exact .inl ⟨f, u, hu.trans hscan.cfg, afterCycle_not_running (by simp)⟩
      · exact .inr ((hscan.trans hK).trans (keeps_afterCycle v))
  | waitingKey x =>
    rw [step_waiting hs] at h; cases h
    exact .inr ((keeps_awaitKey x s).trans (keeps_afterCycle _))
  | haltedNormal r => rw [step_haltedNormal hs] at h; cases h; exact .inr (.refl s)
  | haltedFault f => rw [step_haltedFault hs] at h; cases h

theorem step_cfg {s t : State} (h : step s = .next t) : t.cfg = s.cfg := by
  rcases step_fault_or_keeps h with ⟨f, u, hu, rfl⟩ | hK
  · exact hu
  · exact hK.cfg

/-- No step that no fault ends changes a byte of the font region (10_state.md R41). -/
theorem step_font {s t : State} (h : step s = .next t) (ht : t.isFaulted = false) {a : Nat}
    (h1 : s.cfg.fontBase ≤ a) (h2 : a ≤ s.cfg.fontBase + 79) : t.byteAt a = s.byteAt a := by
  rcases step_fault_or_keeps h with ⟨f, u, -, rfl⟩ | hK
  · simp at ht
  · exact hK.font a h1 h2

/-- `t` has the parameters of `s`, and its font region unless a fault has ended the run. -/
def SameFontAndParams (s t : State) : Prop :=
  t.cfg = s.cfg ∧ (t.isFaulted = false → ∀ a, s.cfg.fontBase ≤ a → a ≤ s.cfg.fontBase + 79 → t.byteAt a = s.byteAt a)

theorem step_keeps_sameFontAndParams {s t u : State} (h : SameFontAndParams s t) (hu : step t = .next u) :
    SameFontAndParams s u := by
  obtain ⟨hc, hfont⟩ := h
  refine ⟨(step_cfg hu).trans hc, fun hlive a h1 h2 => ?_⟩
  rw [← hfont (isFaulted_of_step hu) a h1 h2]
  exact step_font hu hlive (hc ▸ h1) (hc ▸ h2)

/-- Settles O52: every step keeps them, so every run does. -/
theorem fontAndParametersNeverChange : Obligations.FontAndParametersNeverChange :=
  fun s _ hr => reaches_keeps (P := SameFontAndParams s) (fun _ _ => step_keeps_sameFontAndParams)
    ⟨rfl, fun _ _ _ _ => rfl⟩ hr

/-! ## The debug hold -/

@[simp] theorem finishIteration_hold (s : State) : (finishIteration s).hold = s.hold := by
  by_cases hq : s.host.quitIn = some 0
  · rw [finishIteration_of_quit hq]; rfl
  · rw [finishIteration_fields hq]

@[simp] theorem awaitKey_hold (x : Reg) (s : State) : (awaitKey x s).hold = s.hold := by
  rcases awaitKey_cases x s with ⟨-, e⟩ | ⟨-, e⟩ | ⟨k, -, e⟩ <;> rw [e] <;> rfl

theorem scanInputs_hold (s : State) : (scanInputs s).hold = s.hold := by
  rw [scanInputs_eq]; rfl

/-- A cycle leaves no hold where there was none. -/
theorem cycle_hold {s t : State} (hs : s.hold = false) (h : cycle s = .next t) : t.hold = false := by
  rcases cycle_cases s with ⟨-, e⟩ | ⟨-, -, e⟩ | ⟨-, i, -, e⟩ <;> rw [e] at h
  · rw [raise_eq_next.mp h, faulted_hold]
  · rw [raise_eq_next.mp h, faulted_hold]
  · rcases exec_cases h with ⟨f, rfl⟩ | hC
    · rfl
    · exact hC.hold.trans hs

/-- What follows a cycle enters the hold only with the core running (60_exceptions.md R338). -/
theorem afterCycle_hold {s : State} (hs : s.hold = false) (h : (afterCycle s).hold = true) :
    (afterCycle s).status = .running := by
  rcases afterCycle_cases s with e | ⟨hr, e⟩ | e
  · rw [e, hs] at h; cases h
  · rw [e]; exact hr
  · rw [e, finishIteration_hold, hs] at h; cases h

/-- A look of the hold leaves it set only with the core as it was. -/
theorem debugHold_hold {s : State} (h : (debugHold s).hold = true) : (debugHold s).status = s.status := by
  rcases debugHold_cases s with ⟨-, e⟩ | ⟨-, e⟩ | ⟨k, -, -, e⟩ | ⟨-, e⟩ <;> rw [e] at h ⊢
  · rfl
  · simp at h
  · rfl
  · simp at h

/-- Only a running core stands in the debug hold, after a step from a state where that is so. -/
theorem step_hold_running {s t : State} (hi : s.hold = true → s.status = .running) (h : step s = .next t)
    (ht : t.hold = true) : t.status = .running := by
  cases hh : s.hold with
  | true =>
    have hs := hi hh
    rw [step_hold hs hh] at h; cases h
    exact (debugHold_hold ht).trans hs
  | false =>
    cases hs : s.status with
    | running =>
      rw [step_iteration ⟨hs, hh⟩] at h
      obtain ⟨v, hv, rfl⟩ := thenDo_eq_next.mp h
      exact afterCycle_hold (cycle_hold ((scanInputs_hold s).trans hh) hv) ht
    | waitingKey x =>
      rw [step_waiting hs] at h; cases h
      exact afterCycle_hold ((awaitKey_hold x s).trans hh) ht
    | haltedNormal r => rw [step_haltedNormal hs] at h; cases h; rw [hh] at ht; cases ht
    | haltedFault f => rw [step_haltedFault hs] at h; cases h

/-! ## The invariant -/

/-- A step keeps Memory's canonical form (20_memory.md R60), also one that a fault ends (log entry 3). -/
theorem step_memory_wf {s t : State} (hm : Memory.wf (unlisted s.cfg) s.mem = true) (h : step s = .next t) :
    Memory.wf (unlisted t.cfg) t.mem = true := by
  rcases step_fault_or_keeps h with ⟨f, u, -, rfl⟩ | hK
  · exact faulted_mem_wf f u
  · rw [hK.cfg]; exact hK.memory hm

/-- A step keeps the stack within its capacity (10_state.md R32). -/
theorem step_stack_length {s t : State} (hl : s.stack.length ≤ s.cfg.stackDepth) (h : step s = .next t) :
    t.stack.length ≤ t.cfg.stackDepth := by
  rcases step_fault_or_keeps h with ⟨f, u, -, rfl⟩ | hK
  · exact faulted_stack_length f u
  · rw [hK.cfg]; exact hK.stack hl

/-- A step that no fault ends keeps the font intact (10_state.md R41). -/
theorem step_fontIntact {s t : State} (hf : FontIntact s) (h : step s = .next t) (ht : t.isFaulted = false) :
    FontIntact t := by
  intro k
  rw [step_cfg h, step_font h ht (by omega) (by omega)]
  exact hf k

/-- Settles O50: one lemma per clause of the invariant. -/
theorem stepKeepsTheInvariant : Obligations.StepKeepsTheInvariant := fun _ _ hi h =>
  { params := step_cfg h ▸ hi.params
    memory := step_memory_wf hi.memory h
    stack := step_stack_length hi.stack h
    font := fun ht => step_fontIntact (hi.font (isFaulted_of_step h)) h ht
    hold := step_hold_running hi.hold h }

end Sys2Proof.Machine
end

section
/-! SUPPORT. The state after reset (10_state.md R42): what unwritten Memory reads as, and construction from no image. -/

namespace Sys2Proof.Machine

/-- The font region of unwritten Memory reads as the font (20_memory.md R72, R73). -/
theorem unlisted_fontBase_add (c : Config) (k : Fin 80) : unlisted c (c.fontBase + k.val) = c.font[k.val] := by
  simp [unlisted, fontByte?]

theorem fontIntact_of_mem_nil {s : State} (h : s.mem = []) : FontIntact s := by
  intro k
  rw [State.byteAt, h]
  exact unlisted_fontBase_add s.cfg k

/-- Settles O51: clause by clause, with the font read from unwritten Memory. -/
theorem resetMeetsTheInvariant : Obligations.ResetMeetsTheInvariant where
  params := by decide
  memory := reset_memory_wf
  stack := Nat.zero_le _
  font := fun _ => fontIntact_of_mem_nil rfl
  hold := fun _ => rfl

/-- With no image and launch bytes 0, construction reads as Memory that nothing has written (log entry 8). -/
theorem launchByte_clean_nil (c : Config) : launchByte c Launch.clean [] = unlisted c := by
  funext a
  cases h : fontByte? c a <;> simp [launchByte, unlisted, h, Launch.clean]

/-- The canonical memory that reads everywhere as unlisted addresses do is empty. -/
theorem Memory.listed_self (d : Nat → Byte) (l : List Nat) : Memory.listed d d l = [] := by
  induction l with
  | nil => rfl
  | cons a l ih => simp [Memory.listed, ih]

/-- Settles O55: no image is too long, and the only field that takes an argument is Memory, which is the empty list. -/
theorem resetIsCleanConstruction : Obligations.ResetIsCleanConstruction := by
  have hmem : Memory.ofBytes (unlisted defaultConfig) (launchByte defaultConfig Launch.clean []) = [] := by
    rw [launchByte_clean_nil]; exact Memory.listed_self _ _
  have hlen : ¬ ([] : List Byte).length > maxImage := Nat.not_lt_zero _
  rw [Obligations.ResetIsCleanConstruction, construct, if_neg hlen, hmem]
  rfl

/-- Settles O56: the values of `State.reset`, and the glyphs' bytes computed. -/
theorem resetValues : Obligations.ResetValues :=
  ⟨rfl, rfl, rfl, fontIntact_of_mem_nil rfl, by decide, by decide, by decide⟩

end Sys2Proof.Machine
end

section
/-! SUPPORT. The rules of 20_memory.md: what a store changes (R62, R68, R71, R76), that the next fetch sees it (R79), the
canonical form of Memory is unique, and where the fetch and the decoder fault (R70). -/

namespace Sys2Proof.Machine.Memory

/-! ## The canonical form is unique -/

variable {d : Nat → Byte}

theorem read_cons_self (a : Nat) (v : Byte) (m : List Host.Cell) : read d ((a, v) :: m) a = v := by simp [read]

theorem read_cons_ne {a c : Nat} (v : Byte) (m : List Host.Cell) (h : c ≠ a) : read d ((a, v) :: m) c = read d m c := by
  simp [read, h]

/-- A canonical memory that reads like one whose first entry is at `a` does not begin above `a`: there it would read as an
unlisted address does, which no entry's byte is. -/
theorem not_above_of_read_eq {a : Nat} {v : Byte} {m m' : List Host.Cell} (hm : wf d ((a, v) :: m) = true)
    (hm' : wf d m' = true) (hr : read d ((a, v) :: m) a = read d m' a) : above a m' ≠ true := by
  intro habove
  obtain ⟨-, hv, -, -⟩ := wf_cons.mp hm
  rw [read_cons_self, read_of_above hm' habove] at hr
  exact hv hr

/-- Under the same first entry, canonical memories that read alike have tails that read alike. -/
theorem read_tail_eq {a : Nat} {v : Byte} {m m' : List Host.Cell} (hm : wf d ((a, v) :: m) = true)
    (hm' : wf d ((a, v) :: m') = true) (hr : ∀ c, read d ((a, v) :: m) c = read d ((a, v) :: m') c) (c : Nat) :
    read d m c = read d m' c := by
  obtain ⟨-, -, habove, hw⟩ := wf_cons.mp hm
  obtain ⟨-, -, habove', hw'⟩ := wf_cons.mp hm'
  by_cases hc : c = a
  · rw [hc, read_of_above hw habove, read_of_above hw' habove']
  · rw [← read_cons_ne v m hc, hr c, read_cons_ne v m' hc]

/-- Settles O31: the first entries agree, since neither memory begins above the other's first address; then the tails do. -/
theorem canonicalMemoryIsUnique : Obligations.CanonicalMemoryIsUnique := by
  intro d m
  induction m with
  | nil =>
    rintro (_ | ⟨⟨b, w⟩, m'⟩) hm hm' hr
    · rfl
    · exact absurd rfl (not_above_of_read_eq hm' hm (hr b).symm)
  | cons e m ih =>
    obtain ⟨a, v⟩ := e
    rintro (_ | ⟨⟨b, w⟩, m'⟩) hm hm' hr
    · exact absurd rfl (not_above_of_read_eq hm hm' (hr a))
    · have hab : ¬ a < b := by simpa [above] using not_above_of_read_eq hm hm' (hr a)
      have hba : ¬ b < a := by simpa [above] using not_above_of_read_eq hm' hm (hr b).symm
      obtain rfl : a = b := by omega
      obtain rfl : v = w := by simpa only [read_cons_self] using hr a
      rw [ih m' (wf_tail hm) (wf_tail hm') (read_tail_eq hm hm' hr)]

end Sys2Proof.Machine.Memory

namespace Sys2Proof.Machine

/-! ## Stores -/

/-- Settles O30: by the law of a write at the address read, and the law of a write elsewhere. -/
theorem memoryReadsTheLatestWrite : Obligations.MemoryReadsTheLatestWrite := by
  intro s a c b hw
  by_cases hc : c = a
  · rw [if_pos hc, hc, byteAt_setByte_same s a b hw]
  · rw [if_neg hc, byteAt_setByte_ne s b hc]

/-- Settles O38: a store's bytes stand in the instruction's frame, and none can be a byte of the font. -/
theorem onlyBcdAndBlockStoreWriteMemory : Obligations.OnlyBcdAndBlockStoreWriteMemory := by
  intro i s t h _ ht
  have hframe := exec_frame_of_not_faulted h ht
  refine ⟨hframe.bytes, ?_⟩
  rcases exec_fault_or_keeps h with ⟨f, rfl⟩ | hkeeps
  · simp at ht
  · exact hkeeps.font

/-! ## The fetch -/

theorem fetch_of_le {s : State} (h : s.pc.toNat ≤ 0xFFE) :
    fetch s = .ok (s.byteAt s.pc.toNat, s.byteAt (s.pc.toNat + 1)) := by
  have hpc : ¬ s.pc.toNat > lastFetch := Nat.not_lt.mpr h
  rw [fetch, if_neg hpc]

/-- Settles O32: a completed store is `setByte`, which the fetch reads at the one address and not at the other. -/
theorem storesAreSeenByFetch : Obligations.StoresAreSeenByFetch := by
  intro s t a b hw h
  obtain ⟨⟨hlast, -⟩, rfl⟩ := memWrite_eq_ok.mp h
  simp only [State.setByte_pc]
  constructor
  · rintro rfl hpc
    rw [fetch_of_le (s := s.setByte _ b) hpc, State.setByte_pc, byteAt_setByte_same _ _ _ hw,
      byteAt_setByte_ne _ _ (by omega)]
  · rintro rfl
    have hpc : s.pc.toNat ≤ 0xFFE := by omega
    rw [fetch_of_le (s := s.setByte _ b) hpc, State.setByte_pc, byteAt_setByte_same _ _ _ hw,
      byteAt_setByte_ne _ _ (by omega)]

theorem cycle_of_fetch_fault {s : State} (h : 0xFFE < s.pc.toNat) : cycle s = raise (.fetchOutOfBounds s.pc) s := by
  rcases cycle_cases s with ⟨-, e⟩ | ⟨hle, -⟩ | ⟨hle, -⟩
  · exact e
  · omega
  · omega

theorem cycle_of_decode_error {s : State} (h : s.pc.toNat ≤ 0xFFE) (hd : ∀ i, decode (wordAtPc s) ≠ .ok i) :
    cycle s = raise (.decodeError (wordAtPc s) s.pc) (advancePc s) := by
  rcases cycle_cases s with ⟨hlt, -⟩ | ⟨-, -, e⟩ | ⟨-, i, hi, -⟩
  · omega
  · exact e
  · exact absurd hi (hd i)

@[simp] theorem scanInputs_pc (s : State) : (scanInputs s).pc = s.pc := by rw [scanInputs_eq]; rfl

@[simp] theorem scanInputs_out (s : State) : (scanInputs s).out = s.out := by rw [scanInputs_eq]; rfl

/-- A fault that the cycle of an iteration raises, before any other call on the Capability Port, is the step's. -/
theorem step_faultsWith {s u : State} {f : Fault} (hs : s.atIteration) (hc : cycle (scanInputs s) = raise f u)
    (hu : u.out = s.out) : FaultsWith (step s) s f := by
  rw [step_iteration hs, hc, thenDo_raise]
  exact ⟨faulted f u, rfl, rfl, by rw [faulted_out, hu]⟩

/-- Settles O42: the cycle raises the fault, and the key sample before it leaves PC and the word there as they were. -/
theorem fetchAndDecodeFaults : Obligations.FetchAndDecodeFaults := by
  intro s hs
  constructor
  · intro hpc
    have hc := cycle_of_fetch_fault (s := scanInputs s) (by rwa [scanInputs_pc])
    rw [scanInputs_pc] at hc
    exact step_faultsWith hs hc (scanInputs_out s)
  · intro hpc hd
    have hc := cycle_of_decode_error (s := scanInputs s) (by rwa [scanInputs_pc]) (by rwa [wordAtPc_scanInputs])
    rw [scanInputs_pc, wordAtPc_scanInputs] at hc
    exact step_faultsWith hs hc (scanInputs_out s)

end Sys2Proof.Machine
end

section
/-! SUPPORT. Decoder and encoder agree (30_encoding.md R90 to R98), in three facts from which the statements of the
family follow: `decode_encode`, `encode_of_decode` and `decode_eq_error`. -/

namespace Sys2Proof

/-! ## Decoding a word the encoder gives -/

/-- The decoder reads back every well-formed instruction, family by family of the leading nibble (R96, R97). -/
theorem decode_encode {i : Instr} (hi : i.wellFormed = true) : decode (encode i) = .ok i := by
  cases i
  case cls | ret => rfl
  case jp nnn => rw [encode, decode_of_jp (leading_formatNnn _ _), fieldNnn_formatNnn]
  case call nnn => rw [encode, decode_of_call (leading_formatNnn _ _), fieldNnn_formatNnn]
  case ldI nnn => rw [encode, decode_of_ldI (leading_formatNnn _ _), fieldNnn_formatNnn]
  case jpV0 nnn => rw [encode, decode_of_jpV0 (leading_formatNnn _ _), fieldNnn_formatNnn]
  case seImm x nn => rw [encode, decode_of_seImm (leading_formatXnn _ _ _), fieldX_formatXnn, trailingByte_formatXnn]
  case sneImm x nn => rw [encode, decode_of_sneImm (leading_formatXnn _ _ _), fieldX_formatXnn, trailingByte_formatXnn]
  case ldImm x nn => rw [encode, decode_of_ldImm (leading_formatXnn _ _ _), fieldX_formatXnn, trailingByte_formatXnn]
  case addImm x nn => rw [encode, decode_of_addImm (leading_formatXnn _ _ _), fieldX_formatXnn, trailingByte_formatXnn]
  case rnd x nn => rw [encode, decode_of_rnd (leading_formatXnn _ _ _), fieldX_formatXnn, trailingByte_formatXnn]
  case seReg x y => rw [encode, decode_of_seReg (leading_formatXy _ _ _ _)]; simp
  case sneReg x y => rw [encode, decode_of_sneReg (leading_formatXy _ _ _ _)]; simp
  case ldReg | orReg | andReg | xorReg | addReg | subReg | shr | subnReg | shl =>
    rw [encode, decode_of_alu (leading_formatXy _ _ _ _)]; simp [decodeAlu]
  case drw x y n =>
    have hn : n < 16 := by simpa [Instr.wellFormed] using hi
    rw [encode, decode_of_drw (leading_formatXy _ _ _ _)]; simp [fieldN, Nat.mod_eq_of_lt hn]
  case skp | sknp => rw [encode, decode_of_key (leading_formatX _ _ _)]; simp [decodeKey]
  case ldVxDt | ldVxK | ldDtVx | ldStVx | addI | ldF | ldB | storeRegs | loadRegs =>
    rw [encode, decode_of_misc (leading_formatX _ _ _)]; simp [decodeMisc]

/-- The bytes of a word in memory order decode as the word does (R63, R90). -/
theorem decodeBytes_of_decode {w : Word} {i : Instr} (h : decode w = .ok i) (rest : List Byte) :
    decodeBytes (highByte w :: lowByte w :: rest) = .ok (i, rest) := by
  simp only [decodeBytes, wordOfBytes_highByte_lowByte, h]

/-- Settles O1: `decode_encode`, and the two bytes of the word make the word again. -/
theorem decodeOfEncode : Obligations.DecodeOfEncode := fun _ hi =>
  ⟨decode_encode hi, decodeBytes_of_decode (decode_encode hi)⟩

/-! ## Encoding a decoded instruction: a word is put together again from its fields -/

theorem formatNnn_fields {op : BitVec 4} {w : Word} (hl : w.toNat / 4096 = op.toNat) :
    formatNnn op (fieldNnn w) = w := by
  rw [← BitVec.toNat_inj, toNat_formatNnn, toNat_fieldNnn]; omega

theorem formatXnn_fields {op : BitVec 4} {w : Word} (hl : w.toNat / 4096 = op.toNat) :
    formatXnn op (fieldX w) (trailingByte w) = w := by
  rw [← BitVec.toNat_inj, toNat_formatXnn, val_fieldX, toNat_trailingByte]; omega

theorem formatXy_fields {op sel : BitVec 4} {w : Word} (hl : w.toNat / 4096 = op.toNat)
    (hs : (trailingNibble w).toNat = sel.toNat) : formatXy op (fieldX w) (fieldY w) sel = w := by
  rw [toNat_trailingNibble] at hs
  rw [← BitVec.toNat_inj, toNat_formatXy, val_fieldX, val_fieldY]; omega

theorem formatX_fields {op : BitVec 4} {sel : Byte} {w : Word} (hl : w.toNat / 4096 = op.toNat)
    (hs : (trailingByte w).toNat = sel.toNat) : formatX op (fieldX w) sel = w := by
  rw [toNat_trailingByte] at hs
  rw [← BitVec.toNat_inj, toNat_formatX, val_fieldX]; omega

theorem encode_of_decodeSys {w : Word} {i : Instr} (h : decodeSys w = .ok i) :
    encode i = w ∧ i.wellFormed = true := by
  rw [decodeSys] at h
  split at h
  · cases h; exact ⟨Eq.symm ‹_›, rfl⟩
  · split at h <;> cases h
    exact ⟨Eq.symm ‹_›, rfl⟩

theorem encode_of_decodeAlu {w : Word} {i : Instr} (hl : w.toNat / 4096 = 8) (h : decodeAlu w = .ok i) :
    encode i = w ∧ i.wellFormed = true := by
  rw [decodeAlu] at h
  split at h <;> cases h
  all_goals exact ⟨formatXy_fields hl ‹_›, rfl⟩

theorem encode_of_decodeKey {w : Word} {i : Instr} (hl : w.toNat / 4096 = 14) (h : decodeKey w = .ok i) :
    encode i = w ∧ i.wellFormed = true := by
  rw [decodeKey] at h
  split at h <;> cases h
  all_goals exact ⟨formatX_fields hl ‹_›, rfl⟩

theorem encode_of_decodeMisc {w : Word} {i : Instr} (hl : w.toNat / 4096 = 15) (h : decodeMisc w = .ok i) :
    encode i = w ∧ i.wellFormed = true := by
  rw [decodeMisc] at h
  split at h <;> cases h
  all_goals exact ⟨formatX_fields hl ‹_›, rfl⟩

/-- No bit of a legal word is lost (R97): the instruction read from a word is well-formed and has that word. -/
theorem encode_of_decode {w : Word} {i : Instr} (h : decode w = .ok i) : encode i = w ∧ i.wellFormed = true := by
  have hop : w.toNat / 4096 < 16 := by omega
  interval_cases hl : w.toNat / 4096
  · rw [decode_of_sys hl] at h; exact encode_of_decodeSys h
  · rw [decode_of_jp hl] at h; cases h; exact ⟨formatNnn_fields hl, rfl⟩
  · rw [decode_of_call hl] at h; cases h; exact ⟨formatNnn_fields hl, rfl⟩
  · rw [decode_of_seImm hl] at h; cases h; exact ⟨formatXnn_fields hl, rfl⟩
  · rw [decode_of_sneImm hl] at h; cases h; exact ⟨formatXnn_fields hl, rfl⟩
  · rw [decode_of_seReg hl] at h
    split at h <;> cases h
    exact ⟨formatXy_fields hl (congrArg BitVec.toNat ‹_›), rfl⟩
  · rw [decode_of_ldImm hl] at h; cases h; exact ⟨formatXnn_fields hl, rfl⟩
  · rw [decode_of_addImm hl] at h; cases h; exact ⟨formatXnn_fields hl, rfl⟩
  · rw [decode_of_alu hl] at h; exact encode_of_decodeAlu hl h
  · rw [decode_of_sneReg hl] at h
    split at h <;> cases h
    exact ⟨formatXy_fields hl (congrArg BitVec.toNat ‹_›), rfl⟩
  · rw [decode_of_ldI hl] at h; cases h; exact ⟨formatNnn_fields hl, rfl⟩
  · rw [decode_of_jpV0 hl] at h; cases h; exact ⟨formatNnn_fields hl, rfl⟩
  · rw [decode_of_rnd hl] at h; cases h; exact ⟨formatXnn_fields hl, rfl⟩
  · rw [decode_of_drw hl] at h; cases h
    exact ⟨formatXy_fields hl (by simp [fieldN]), by simp [Instr.wellFormed, fieldN_eq, Nat.mod_lt]⟩
  · rw [decode_of_key hl] at h; exact encode_of_decodeKey hl h
  · rw [decode_of_misc hl] at h; exact encode_of_decodeMisc hl h

/-- A word of two rows has, under both masks together, the pattern of each; so rows whose patterns differ there are
disjoint. -/
theorem rows_disjoint {a b : OpcodeRow} (h : a.pattern &&& b.mask ≠ b.pattern &&& a.mask) (w : Word) :
    ¬ (a.matchesWord w = true ∧ b.matchesWord w = true) := by
  rintro ⟨ha, hb⟩
  rw [matchesWord_iff] at ha hb
  apply h
  rw [← ha, ← hb, BitVec.and_assoc, BitVec.and_assoc, BitVec.and_comm a.mask]

theorem opcodeMap_patterns_differ :
    opcodeMap.Pairwise (fun a b => a.pattern &&& b.mask ≠ b.pattern &&& a.mask) := by
  decide

/-- Settles O2: rows differ where both masks are set, and a word is the encoder's word of its instruction. -/
theorem encodeOfDecode : Obligations.EncodeOfDecode :=
  ⟨opcodeMap_patterns_differ.imp rows_disjoint, fun _ _ h => encode_of_decode h,
    fun _ _ _ h h' => (encode_of_decode h).1.symm.trans (encode_of_decode h').1⟩

/-! ## Illegal words -/

/-- The table of illegal words (R98), one set a line: by the leading nibble, and by the trailing nibble or byte. -/
def IllegalWord (w : Word) : Prop :=
  (w.toNat < 0x1000 ∧ w ≠ 0x00E0#16 ∧ w ≠ 0x00EE#16) ∨
  (w.toNat / 0x1000 = 0x5 ∧ w.toNat % 16 ≠ 0) ∨
  (w.toNat / 0x1000 = 0x8 ∧ w.toNat % 16 ∈ [0x8, 0x9, 0xA, 0xB, 0xC, 0xD, 0xF]) ∨
  (w.toNat / 0x1000 = 0x9 ∧ w.toNat % 16 ≠ 0) ∨
  (w.toNat / 0x1000 = 0xE ∧ w.toNat % 256 ∉ [0x9E, 0xA1]) ∨
  (w.toNat / 0x1000 = 0xF ∧ w.toNat % 256 ∉ [0x07, 0x0A, 0x15, 0x18, 0x1E, 0x29, 0x33, 0x55, 0x65])

theorem decodeSys_eq_error {w : Word} {e : DecodeError} :
    decodeSys w = .error e ↔ (w ≠ 0x00E0#16 ∧ w ≠ 0x00EE#16) ∧ e = .unrecognized w := by
  rw [decodeSys]
  split
  · simp [*]
  · split <;> simp [*, eq_comm (a := e)]

/-- The 0x5 and 0x9 words: the trailing nibble is 0 or the word is rejected (R96). -/
theorem ifNibbleZero_eq_error {w : Word} {i : Instr} {e : DecodeError} :
    (if trailingNibble w = 0 then .ok i else .error (.unrecognized w)) = Except.error e ↔
      w.toNat % 16 ≠ 0 ∧ e = .unrecognized w := by
  have hz : trailingNibble w = 0#4 ↔ w.toNat % 16 = 0 := by
    rw [← BitVec.toNat_inj, toNat_trailingNibble]; rfl
  by_cases h : w.toNat % 16 = 0 <;> simp [hz, h, eq_comm (a := e)]

theorem decodeAlu_eq_error {w : Word} {e : DecodeError} :
    decodeAlu w = .error e ↔ w.toNat % 16 ∈ [0x8, 0x9, 0xA, 0xB, 0xC, 0xD, 0xF] ∧ e = .unrecognized w := by
  have hlt : w.toNat % 16 < 16 := Nat.mod_lt _ (by decide)
  simp only [decodeAlu, toNat_trailingNibble]
  interval_cases w.toNat % 16 <;> simp [eq_comm (a := e)]

theorem decodeKey_eq_error {w : Word} {e : DecodeError} :
    decodeKey w = .error e ↔ w.toNat % 256 ∉ [0x9E, 0xA1] ∧ e = .unrecognized w := by
  simp only [decodeKey, toNat_trailingByte]
  split <;> simp_all [eq_comm (a := e)]

theorem decodeMisc_eq_error {w : Word} {e : DecodeError} :
    decodeMisc w = .error e ↔
      w.toNat % 256 ∉ [0x07, 0x0A, 0x15, 0x18, 0x1E, 0x29, 0x33, 0x55, 0x65] ∧ e = .unrecognized w := by
  simp only [decodeMisc, toNat_trailingByte]
  split <;> simp_all [eq_comm (a := e)]

/-- The decoder rejects exactly the words of the table, each with the word itself (R94, R98). -/
theorem decode_eq_error {w : Word} {e : DecodeError} :
    decode w = .error e ↔ IllegalWord w ∧ e = .unrecognized w := by
  have hop : w.toNat / 4096 < 16 := by omega
  have hsys : w.toNat < 4096 ↔ w.toNat / 4096 = 0 := by omega
  rw [IllegalWord, hsys]
  interval_cases hl : w.toNat / 4096
  · simp [decode_of_sys hl, decodeSys_eq_error]
  · simp [decode_of_jp hl]
  · simp [decode_of_call hl]
  · simp [decode_of_seImm hl]
  · simp [decode_of_sneImm hl]
  · rw [decode_of_seReg hl, ifNibbleZero_eq_error]; simp
  · simp [decode_of_ldImm hl]
  · simp [decode_of_addImm hl]
  · rw [decode_of_alu hl, decodeAlu_eq_error]; simp
  · rw [decode_of_sneReg hl, ifNibbleZero_eq_error]; simp
  · simp [decode_of_ldI hl]
  · simp [decode_of_jpV0 hl]
  · simp [decode_of_rnd hl]
  · simp [decode_of_drw hl]
  · rw [decode_of_key hl, decodeKey_eq_error]; simp
  · rw [decode_of_misc hl, decodeMisc_eq_error]; simp

/-- Settles O3: `decode_eq_error` with the table written out. -/
theorem illegalWordsAreRejected : Obligations.IllegalWordsAreRejected := fun _ =>
  ⟨decode_eq_error.trans (and_iff_left rfl), fun _ h => (decode_eq_error.mp h).2⟩

/-! ## The opcode map -/

/-- The encoder's word of an instruction is of the instruction's own row (R93, R95). -/
theorem row_matches_encode : ∀ i : Instr, i.row.matchesWord (encode i) = true
  | .cls => Laws.EncodesRow.cls
  | .ret => Laws.EncodesRow.ret
  | .jp _ => Laws.EncodesRow.jp _
  | .call _ => Laws.EncodesRow.call _
  | .seImm _ _ => Laws.EncodesRow.seImm _ _
  | .sneImm _ _ => Laws.EncodesRow.sneImm _ _
  | .seReg _ _ => Laws.EncodesRow.seReg _ _
  | .ldImm _ _ => Laws.EncodesRow.ldImm _ _
  | .addImm _ _ => Laws.EncodesRow.addImm _ _
  | .ldReg _ _ => Laws.EncodesRow.ldReg _ _
  | .orReg _ _ => Laws.EncodesRow.orReg _ _
  | .andReg _ _ => Laws.EncodesRow.andReg _ _
  | .xorReg _ _ => Laws.EncodesRow.xorReg _ _
  | .addReg _ _ => Laws.EncodesRow.addReg _ _
  | .subReg _ _ => Laws.EncodesRow.subReg _ _
  | .shr _ _ => Laws.EncodesRow.shr _ _
  | .subnReg _ _ => Laws.EncodesRow.subnReg _ _
  | .shl _ _ => Laws.EncodesRow.shl _ _
  | .sneReg _ _ => Laws.EncodesRow.sneReg _ _
  | .ldI _ => Laws.EncodesRow.ldI _
  | .jpV0 _ => Laws.EncodesRow.jpV0 _
  | .rnd _ _ => Laws.EncodesRow.rnd _ _
  | .drw _ _ _ => Laws.EncodesRow.drw _ _ _
  | .skp _ => Laws.EncodesRow.skp _
  | .sknp _ => Laws.EncodesRow.sknp _
  | .ldVxDt _ => Laws.EncodesRow.ldVxDt _
  | .ldVxK _ => Laws.EncodesRow.ldVxK _
  | .ldDtVx _ => Laws.EncodesRow.ldDtVx _
  | .ldStVx _ => Laws.EncodesRow.ldStVx _
  | .addI _ => Laws.EncodesRow.addI _
  | .ldF _ => Laws.EncodesRow.ldF _
  | .ldB _ => Laws.EncodesRow.ldB _
  | .storeRegs _ => Laws.EncodesRow.storeRegs _
  | .loadRegs _ => Laws.EncodesRow.loadRegs _

theorem row_matches_of_decode {w : Word} {i : Instr} (h : decode w = .ok i) : i.row.matchesWord w = true := by
  obtain ⟨rfl, -⟩ := encode_of_decode h
  exact row_matches_encode i

theorem row_mem_opcodeMap (i : Instr) : i.row ∈ opcodeMap := by
  cases i <;> simp [Instr.row, opcodeMap]

/-- A field that a mask covers is the pattern's field in every word of the row. -/
theorem field_of_and_eq {w m p : Word} {k n : Nat} (hm : m.extractLsb' k n = BitVec.allOnes n) (h : w &&& m = p) :
    w.extractLsb' k n = p.extractLsb' k n := by
  rw [← h, BitVec.extractLsb'_and, hm, BitVec.and_allOnes]

theorem leading_of_and_eq {w m p : Word} (hm : leadingNibble m = 0xF#4) (h : w &&& m = p) :
    w.toNat / 4096 = p.toNat / 4096 := by
  rw [← toNat_leadingNibble, ← toNat_leadingNibble]
  exact congrArg BitVec.toNat (field_of_and_eq hm h)

theorem trailingNibble_of_and_eq {w m p : Word} (hm : trailingNibble m = 0xF#4) (h : w &&& m = p) :
    w.toNat % 16 = p.toNat % 16 := by
  rw [← toNat_trailingNibble, ← toNat_trailingNibble]
  exact congrArg BitVec.toNat (field_of_and_eq hm h)

theorem trailingByte_of_and_eq {w m p : Word} (hm : trailingByte m = 0xFF#8) (h : w &&& m = p) :
    w.toNat % 256 = p.toNat % 256 := by
  rw [← toNat_trailingByte, ← toNat_trailingByte]
  exact congrArg BitVec.toNat (field_of_and_eq hm h)

/-- A word of some instruction's row is none of the table of illegal words: its mask fixes the leading nibble, and the
trailing nibble or byte where the row has a selector. -/
theorem not_illegal_of_row {w : Word} {i : Instr} (h : i.row.matchesWord w = true) : ¬ IllegalWord w := by
  rw [matchesWord_iff] at h
  cases i
  case cls | ret =>
    rw [show w = _ from BitVec.and_allOnes.symm.trans h]
    simp [IllegalWord, Instr.row]
  case jp | call | seImm | sneImm | ldImm | addImm | ldI | jpV0 | rnd | drw =>
    have hl := leading_of_and_eq (m := 0xF000) (by decide) h
    simp [Instr.row] at hl
    have hlow : ¬ w.toNat < 4096 := by omega
    simp [IllegalWord, hl, hlow]
  case seReg | sneReg | ldReg | orReg | andReg | xorReg | addReg | subReg | shr | subnReg | shl =>
    have hl := leading_of_and_eq (m := 0xF00F) (by decide) h
    have ht := trailingNibble_of_and_eq (m := 0xF00F) (by decide) h
    simp [Instr.row] at hl ht
    have hlow : ¬ w.toNat < 4096 := by omega
    simp [IllegalWord, hl, ht, hlow]
  case skp | sknp | ldVxDt | ldVxK | ldDtVx | ldStVx | addI | ldF | ldB | storeRegs | loadRegs =>
    have hl := leading_of_and_eq (m := 0xF0FF) (by decide) h
    have ht := trailingByte_of_and_eq (m := 0xF0FF) (by decide) h
    simp [Instr.row] at hl ht
    have hlow : ¬ w.toNat < 4096 := by omega
    simp [IllegalWord, hl, ht, hlow]

/-- An instruction of each row, in the order of the opcode map. -/
def rowInstrs : List Instr :=
  [.cls, .ret, .jp 0, .call 0, .seImm 0 0, .sneImm 0 0, .seReg 0 0, .ldImm 0 0, .addImm 0 0, .ldReg 0 0, .orReg 0 0,
    .andReg 0 0, .xorReg 0 0, .addReg 0 0, .subReg 0 0, .shr 0 0, .subnReg 0 0, .shl 0 0, .sneReg 0 0, .ldI 0, .jpV0 0,
    .rnd 0 0, .drw 0 0 0, .skp 0, .sknp 0, .ldVxDt 0, .ldVxK 0, .ldDtVx 0, .ldStVx 0, .addI 0, .ldF 0, .ldB 0,
    .storeRegs 0, .loadRegs 0]

theorem opcodeMap_eq_map_row : opcodeMap = rowInstrs.map Instr.row := rfl

theorem exists_row_eq {r : OpcodeRow} (h : r ∈ opcodeMap) : ∃ i : Instr, i.row = r := by
  obtain ⟨i, -, hi⟩ := List.mem_map.mp (opcodeMap_eq_map_row ▸ h)
  exact ⟨i, hi⟩

theorem exists_row_of_legalWord {w : Word} (h : legalWord w = true) : ∃ i : Instr, i.row.matchesWord w = true := by
  obtain ⟨r, hr, hw⟩ := List.any_eq_true.mp h
  obtain ⟨i, rfl⟩ := exists_row_eq hr
  exact ⟨i, hw⟩

theorem legalWord_of_row {w : Word} {i : Instr} (h : i.row.matchesWord w = true) : legalWord w = true :=
  List.any_eq_true.mpr ⟨i.row, row_mem_opcodeMap i, h⟩

/-- Settles O4: the row of the instruction read from a word matches it, and no word of a row is illegal. -/
theorem legalWordsAreTheOpcodeMap : Obligations.LegalWordsAreTheOpcodeMap := by
  intro w
  refine ⟨⟨fun h => ?_, fun ⟨_, hi⟩ => legalWord_of_row (row_matches_of_decode hi)⟩, fun _ => row_matches_of_decode⟩
  obtain ⟨i, hi⟩ := exists_row_of_legalWord h
  cases hd : decode w with
  | ok j => exact ⟨j, rfl⟩
  | error e => exact absurd (decode_eq_error.mp hd).1 (not_illegal_of_row hi)

/-- Settles O5: the decoder computes each. -/
theorem sampleWordsDecode : Obligations.SampleWordsDecode := by
  unfold Obligations.SampleWordsDecode; decide

end Sys2Proof
end

section
/-! SUPPORT. Execution of the decoded instruction (30_encoding.md R110, R111): every instruction answers a next state, its
fault is one of R311's, and a step runs the instruction at PC. -/

namespace Sys2Proof.Machine

/-- `exec` is total (R111): a fault too is a next state. -/
theorem exec_next (i : Instr) (s : State) : ∃ t, exec i s = .next t := by
  cases i
  case ret => simp only [exec, execRet]; split <;> exact ⟨_, rfl⟩
  case call => simp only [exec, execCall]; split <;> exact ⟨_, rfl⟩
  case drw => simp only [exec, execDrw]; split <;> exact ⟨_, rfl⟩
  case skp => simp only [exec, execSkp]; split <;> exact ⟨_, rfl⟩
  case sknp => simp only [exec, execSknp]; split <;> exact ⟨_, rfl⟩
  case ldF => simp only [exec, execLdF]; split <;> exact ⟨_, rfl⟩
  case ldB => simp only [exec, execLdB, conclude]; split <;> exact ⟨_, rfl⟩
  case storeRegs => simp only [exec, execStoreRegs]; split <;> exact ⟨_, rfl⟩
  case loadRegs => simp only [exec, execLoadRegs]; split <;> exact ⟨_, rfl⟩
  all_goals exact ⟨_, rfl⟩

/-- Outside R311's raisers an instruction never calls `stop_tone()`: it calls nothing, or it is LD Vx, K. -/
theorem exec_out_of_not_mayFault {i : Instr} {s t : State} (hi : mayFault i = false) (hk : ∀ x, i ≠ .ldVxK x)
    (h : exec i s = .next t) : t.out = s.out := by
  cases i
  case ldVxK x => exact absurd rfl (hk x)
  case rnd => cases h; rw [State.setReg_out, afterRand_eq]; rfl
  case ret | call | drw | skp | sknp | ldF | ldB | storeRegs | loadRegs => cases hi
  all_goals cases h; rfl

/-- Only R311's raisers leave the halted state of a fault. -/
theorem mayFault_of_exec_faulted {i : Instr} {s : State} {f : Fault} (hk : ∀ x, i ≠ .ldVxK x)
    (h : exec i s = .next (faulted f s)) : mayFault i = true := by
  by_contra hi
  simpa using exec_out_of_not_mayFault (by simpa using hi) hk h

theorem status_mem_writtenParts {c : Config} {i : Instr} : .status ∈ writtenParts c i ↔ ∃ x, i = .ldVxK x := by
  cases i <;> simp [writtenParts]

theorem out_mem_writtenParts {c : Config} {i : Instr} : .out ∈ writtenParts c i ↔ ∃ x, i = .ldVxK x := by
  cases i <;> simp [writtenParts]

/-- A look of the key wait makes no call, and leaves the core waiting, halted by a quit, or running (46_keys.md R253). -/
theorem awaitKey_out_status (x : Reg) (s : State) : (awaitKey x s).out = s.out ∧
    ((awaitKey x s).status = .running ∨ (awaitKey x s).status = s.status ∨
      (awaitKey x s).status = .haltedNormal .capabilityExit) := by
  rcases awaitKey_cases x s with ⟨-, e⟩ | ⟨-, e⟩ | ⟨k, -, e⟩ <;> rw [e]
  · exact ⟨rfl, .inr (.inl rfl)⟩
  · exact ⟨rfl, .inr (.inr rfl)⟩
  · exact ⟨rfl, .inl rfl⟩

/-- Settles O33: LD Vx, K by the look it takes, every other instruction by its frame or its fault. -/
theorem everyInstructionExecutes : Obligations.EveryInstructionExecutes := by
  intro i s
  obtain ⟨t, ht⟩ := exec_next i s
  refine ⟨t, ht, ?_⟩
  by_cases hk : ∃ x, i = .ldVxK x
  · obtain ⟨x, rfl⟩ := hk
    cases ht
    exact .inr (.inr ⟨x, rfl, awaitKey_out_status x _⟩)
  · have hne : ∀ x, i ≠ .ldVxK x := not_exists.mp hk
    rcases exec_frame ht with ⟨f, rfl⟩ | hF
    · exact .inl ⟨mayFault_of_exec_faulted hne ht, f, rfl, rfl⟩
    · exact .inr (.inl ⟨hF.status (mt status_mem_writtenParts.mp hk), hF.out (mt out_mem_writtenParts.mp hk), hne⟩)

/-! ## The step -/

theorem cycle_of_decode_ok {s : State} {i : Instr} (h : s.pc.toNat ≤ 0xFFE) (hd : decode (wordAtPc s) = .ok i) :
    cycle s = exec i (advancePc s) := by
  rcases cycle_cases s with ⟨hlt, -⟩ | ⟨-, hn, -⟩ | ⟨-, j, hj, e⟩
  · omega
  · exact absurd hd (hn i)
  · rw [hd] at hj; cases hj; exact e

/-- Settles O41: the key sample before the cycle leaves PC and the word there as they were. -/
theorem stepRunsTheDecodedInstruction : Obligations.StepRunsTheDecodedInstruction := by
  intro s i hs hpc hd
  have hc : cycle (scanInputs s) = exec i (advancePc (scanInputs s)) :=
    cycle_of_decode_ok (by rwa [scanInputs_pc]) (by rwa [wordAtPc_scanInputs])
  exact ⟨by rw [step_iteration hs, hc], toNat_wordOfBytes _ _⟩

end Sys2Proof.Machine
end

section
/-! SUPPORT. The screen instructions (40_screen.md R130 to R136). A draw is one fold of `togglePixel` over the sprite's
pixels, which are pairwise distinct, so it is the exclusive or of the screen and the sprite. -/

namespace Sys2Proof.Machine

/-! ## Encodings -/

/-- An encoding by its number: the decoder reads a well-formed instruction back from its word (30_encoding.md R97). -/
theorem encodedAs_of_toNat_encode {i : Instr} {w : Nat} (hi : i.wellFormed = true) (hw : (encode i).toNat = w) :
    EncodedAs i w := by
  intro v hv
  obtain rfl : v = encode i := BitVec.eq_of_toNat_eq (hv.trans hw.symm)
  exact ⟨decode_encode hi, rfl⟩

theorem toNat_encode_drw (x y : Reg) {n : Nat} (hn : n < 16) :
    (encode (.drw x y n)).toNat = 0xD000 + 256 * x.val + 16 * y.val + n := by
  rw [encode, toNat_formatXy, BitVec.toNat_ofNat, Nat.mod_eq_of_lt hn, Nat.mul_comm x.val, Nat.mul_comm y.val]
  rfl

/-! ## CLS -/

/-- Settles O6: by the rules of the two fields it sets. -/
theorem clsClearsTheScreen : Obligations.ClsClearsTheScreen :=
  ⟨encodedAs_of_toNat_encode rfl rfl, fun s => ⟨(s.setFb blankScreen).setRedraw true, rfl, pixel_blankScreen, rfl,
    ((FrameExcept.refl _ _ _ s).setFb _ (by simp)).setRedraw _ (by simp)⟩⟩

/-! ## The other instructions -/

theorem frameBuffer_ext {f g : FrameBuffer} (h : ∀ x y, pixel f x y = pixel g x y) : f = g :=
  Vector.ext fun x hx => Vector.ext fun y hy => h ⟨x, hx⟩ ⟨y, hy⟩

theorem fb_mem_writtenParts {c : Config} {i : Instr} :
    .fb ∈ writtenParts c i ↔ i = .cls ∨ ∃ x y n, i = .drw x y n := by
  cases i <;> simp [writtenParts]

theorem redraw_mem_writtenParts {c : Config} {i : Instr} :
    .redraw ∈ writtenParts c i ↔ i = .cls ∨ ∃ x y n, i = .drw x y n := by
  cases i <;> simp [writtenParts]

/-- Settles O37: neither part is in another instruction's row of `writtenParts`. -/
theorem onlyClsAndDrwTouchTheScreen : Obligations.OnlyClsAndDrwTouchTheScreen := by
  intro i s t h _ ht hcls hdrw
  have hF := exec_frame_of_not_faulted h ht
  have hne : ¬ (i = .cls ∨ ∃ x y n, i = .drw x y n) := by
    rintro (e | ⟨x, y, n, e⟩)
    exacts [hcls e, hdrw x y n e]
  exact ⟨frameBuffer_ext (hF.fb (mt fb_mem_writtenParts.mp hne)), hF.redraw (mt redraw_mem_writtenParts.mp hne)⟩

/-! ## Toggling a list of pixels -/

/-- What a 1 bit of a sprite does at its pixel `c` (R132): toggle it, and collide when it was lit. -/
def togglePixel (p : FrameBuffer × Bool) (c : Fin 64 × Fin 32) : FrameBuffer × Bool :=
  (setPixel p.1 c.1 c.2 (!pixel p.1 c.1 c.2), p.2 || pixel p.1 c.1 c.2)

theorem pixel_togglePixel (p : FrameBuffer × Bool) (c d : Fin 64 × Fin 32) :
    pixel (togglePixel p c).1 d.1 d.2 = (pixel p.1 d.1 d.2 ^^ decide (d = c)) := by
  rw [togglePixel, pixel_setPixel]
  by_cases h : d = c
  · simp [h]
  · simp [h, ← Prod.ext_iff]

theorem pixel_foldl_togglePixel {l : List (Fin 64 × Fin 32)} (hl : l.Nodup) (p : FrameBuffer × Bool)
    (d : Fin 64 × Fin 32) :
    pixel (l.foldl togglePixel p).1 d.1 d.2 = (pixel p.1 d.1 d.2 ^^ decide (d ∈ l)) := by
  induction l generalizing p with
  | nil => simp
  | cons c l ih =>
    obtain ⟨hc, hl⟩ := List.nodup_cons.mp hl
    rw [List.foldl_cons, ih hl, pixel_togglePixel]
    by_cases h : d = c
    · simp [h, hc]
    · simp [h]

/-- A fold of toggles over distinct pixels collides when one of them was lit before the fold. -/
theorem collision_foldl_togglePixel {l : List (Fin 64 × Fin 32)} (hl : l.Nodup) (p : FrameBuffer × Bool) :
    (l.foldl togglePixel p).2 = true ↔ p.2 = true ∨ ∃ c ∈ l, pixel p.1 c.1 c.2 = true := by
  induction l generalizing p with
  | nil => simp
  | cons c l ih =>
    obtain ⟨hc, hl⟩ := List.nodup_cons.mp hl
    have hrest : ∀ d ∈ l, pixel (togglePixel p c).1 d.1 d.2 = pixel p.1 d.1 d.2 := fun d hd => by
      have hne : d ≠ c := fun e => hc (e ▸ hd)
      simp [pixel_togglePixel, hne]
    rw [List.foldl_cons, ih hl, List.exists_mem_cons_iff, ← or_assoc]
    refine or_congr (by simp [togglePixel]) (exists_congr fun d => and_congr_right fun hd => ?_)
    rw [hrest d hd]

/-! ## The pixels of a sprite -/

/-- The places (r, c) of the 1 bits of the `n` rows at I, row by row. -/
def spriteBits (s : State) (n : Nat) : List (Nat × Nat) :=
  (List.range n ×ˢ List.range 8).filter fun b => (s.byteAt (s.i.toNat + b.1)).getLsbD (7 - b.2)

/-- The pixel of place (r, c) of a sprite drawn at (xs, ys) (R133). -/
def spritePixel (xs ys : Byte) (b : Nat × Nat) : Fin 64 × Fin 32 := (spriteColumn xs b.2, spriteRow ys b.1)

/-- The pixels under the 1 bits of a sprite drawn at (xs, ys). -/
def spritePixels (s : State) (xs ys : Byte) (n : Nat) : List (Fin 64 × Fin 32) :=
  (spriteBits s n).map (spritePixel xs ys)

theorem mem_spriteBits {s : State} {n : Nat} {b : Nat × Nat} : b ∈ spriteBits s n ↔
    b.1 < n ∧ b.2 < 8 ∧ (s.byteAt (s.i.toNat + b.1)).getLsbD (7 - b.2) = true := by
  obtain ⟨r, c⟩ := b
  simp [spriteBits, List.mem_product, and_assoc]

theorem mem_spritePixels {s : State} {x y : Reg} {n : Nat} {d : Fin 64 × Fin 32} :
    d ∈ spritePixels s (s.reg x) (s.reg y) n ↔ spriteCovers s x y n d.1 d.2 := by
  have hpix (b : Nat × Nat) : spritePixel (s.reg x) (s.reg y) b = d ↔
      d.1.val = ((s.reg x).toNat + b.2) % 64 ∧ d.2.val = ((s.reg y).toNat + b.1) % 32 := by
    simp [spritePixel, spriteColumn, spriteRow, Prod.ext_iff, Fin.ext_iff, eq_comm]
  simp only [spritePixels, List.mem_map, mem_spriteBits, hpix, Prod.exists, spriteCovers, and_assoc]

/-- Fewer than 32 rows of eight columns fold onto no pixel twice. -/
theorem spritePixels_nodup (s : State) (xs ys : Byte) {n : Nat} (hn : n < 16) : (spritePixels s xs ys n).Nodup := by
  refine List.Nodup.map_on ?_ ((List.nodup_range.product List.nodup_range).filter _)
  intro b hb d hd h
  obtain ⟨hb1, hb2, -⟩ := mem_spriteBits.mp hb
  obtain ⟨hd1, hd2, -⟩ := mem_spriteBits.mp hd
  simp only [spritePixel, spriteColumn, spriteRow, Prod.mk.injEq, Fin.ext_iff, Fin.val_ofNat] at h
  obtain ⟨hx, hy⟩ := h
  exact Prod.ext (by omega) (by omega)

/-! ## The draw -/

/-- A row is the fold of toggles over its 1 bits, columns left to right. -/
theorem drawRow_eq_foldl (xs ys : Byte) (r : Nat) (row : Byte) (p : FrameBuffer × Bool) :
    drawRow xs ys r row p = (((List.range 8).filter fun c => row.getLsbD (7 - c)).map
      fun c => spritePixel xs ys (r, c)).foldl togglePixel p := by
  rw [List.foldl_map, List.foldl_filter]
  rfl

/-- The rows of a sprite are the fold of toggles over all its pixels. -/
theorem foldl_drawRow_eq_foldl (s : State) (xs ys : Byte) (n : Nat) (p : FrameBuffer × Bool) :
    (List.range n).foldl (fun p r => drawRow xs ys r (s.byteAt (s.i.toNat + r)) p) p =
      (spritePixels s xs ys n).foldl togglePixel p := by
  simp only [drawRow_eq_foldl, spritePixels, spriteBits, SProd.sprod, List.product, List.filter_flatMap,
    List.map_flatMap, List.foldl_flatMap, List.filter_map, List.map_map]
  rfl

/-- The frame buffer after DRW Vx, Vy, n with its rows in Memory, and whether a lit pixel was unlit. -/
def drawn (s : State) (x y : Reg) (n : Nat) : FrameBuffer × Bool :=
  (spritePixels s (s.reg x) (s.reg y) n).foldl togglePixel (s.fb, false)

/-- The state after DRW Vx, Vy, n with its rows in Memory (R132, R135). -/
def afterDraw (s : State) (x y : Reg) (n : Nat) : State :=
  (((s.setReg flagReg 0).setFb (drawn s x y n).1).setReg flagReg (flagByte (drawn s x y n).2)).setRedraw true

theorem exec_drw_of_rows_in_memory {x y : Reg} {n : Nat} {s : State} (h : ∀ r < n, s.i.toNat + r ≤ 0xFFF) :
    exec (.drw x y n) s = .next (afterDraw s x y n) := by
  have hrows : drawRows (s.setReg flagReg 0) (s.reg x) (s.reg y) (List.range n) (s.fb, false) = .ok (drawn s x y n) :=
    (drawRows_eq_ok (s := s.setReg flagReg 0) fun r hr => h r (List.mem_range.mp hr)).trans
      (congrArg _ (foldl_drawRow_eq_foldl s _ _ n _))
  simp only [exec, execDrw, hrows]
  rfl

theorem afterDraw_frame (s : State) (x y : Reg) (n : Nat) :
    FrameExcept [.fb, .redraw] [0xF] [] s (afterDraw s x y n) :=
  ((((FrameExcept.refl _ _ _ s).setReg _ (by simp [flagReg])).setFb _ (by simp)).setReg _ (by simp [flagReg])).setRedraw _
    (by simp)

/-- The exclusive or of the screen and the sprite. -/
theorem pixel_afterDraw (s : State) (x y : Reg) {n : Nat} (hn : n < 16) (p : Fin 64) (q : Fin 32) :
    pixel (afterDraw s x y n).fb p q = true ↔ ¬ (pixel s.fb p q = true ↔ spriteCovers s x y n p q) := by
  have h : pixel (afterDraw s x y n).fb p q = _ :=
    pixel_foldl_togglePixel (spritePixels_nodup s (s.reg x) (s.reg y) hn) (s.fb, false) (p, q)
  rw [h, ← mem_spritePixels (d := (p, q)), Bool.xor_iff_ne, ne_eq, Bool.eq_iff_iff, decide_eq_true_iff]

theorem flagByte_eq_one {b : Bool} : flagByte b = 1 ↔ b = true := by cases b <;> decide

theorem flagByte_zero_or_one (b : Bool) : flagByte b = 0 ∨ flagByte b = 1 := by cases b <;> decide

theorem reg_flag_afterDraw (s : State) (x y : Reg) (n : Nat) :
    (afterDraw s x y n).reg 0xF = flagByte (drawn s x y n).2 := State.reg_setReg_same _ flagReg _

theorem reg_flag_afterDraw_zero_or_one (s : State) (x y : Reg) (n : Nat) :
    (afterDraw s x y n).reg 0xF = 0 ∨ (afterDraw s x y n).reg 0xF = 1 :=
  reg_flag_afterDraw s x y n ▸ flagByte_zero_or_one _

theorem reg_flag_afterDraw_eq_one (s : State) (x y : Reg) {n : Nat} (hn : n < 16) :
    (afterDraw s x y n).reg 0xF = 1 ↔ ∃ p q, spriteCovers s x y n p q ∧ pixel s.fb p q = true := by
  rw [reg_flag_afterDraw, flagByte_eq_one, drawn,
    collision_foldl_togglePixel (spritePixels_nodup s (s.reg x) (s.reg y) hn)]
  simp [mem_spritePixels]

/-! ## A row outside Memory -/

theorem drawRows_first_outside {s : State} {xs ys : Byte} {r : Nat} {post : List Nat} (hr : 0xFFF < s.i.toNat + r)
    {pre : List Nat} (hpre : ∀ k ∈ pre, s.i.toNat + k ≤ 0xFFF) (p : FrameBuffer × Bool) :
    drawRows s xs ys (pre ++ r :: post) p = .error (.memoryOutOfBounds (s.i.toNat + r) (s.pc - 2)) := by
  induction pre generalizing p with
  | nil =>
    have hread : memRead s (effAddr s r) = .error _ := memRead_eq_error.mpr ⟨hr, rfl⟩
    simp only [List.nil_append, drawRows, hread]
    rfl
  | cons k pre ih =>
    have hread : memRead s (effAddr s k) = .ok _ := memRead_eq_ok.mpr ⟨hpre k (by simp), rfl⟩
    simp only [List.cons_append, drawRows, hread]
    exact ih (fun j hj => hpre j (by simp [hj])) _

theorem exec_drw_of_row_outside {x y : Reg} {n r : Nat} {s : State} (hrn : r < n) (hr : 0xFFF < s.i.toNat + r)
    (hfirst : ∀ k < r, s.i.toNat + k ≤ 0xFFF) :
    exec (.drw x y n) s = raise (.memoryOutOfBounds (s.i.toNat + r) (s.pc - 2)) s := by
  obtain ⟨m, rfl⟩ : ∃ m, n = r + (m + 1) := ⟨n - r - 1, by omega⟩
  have hrows := drawRows_first_outside (s := s.setReg flagReg 0) (xs := s.reg x) (ys := s.reg y)
    (post := ((List.range m).map Nat.succ).map (r + ·)) hr (pre := List.range r)
    (fun k hk => hfirst k (List.mem_range.mp hk)) (s.fb, false)
  simp only [exec, execDrw, List.range_add, List.range_succ_eq_map, List.map_cons, Nat.add_zero, hrows]
  rfl

/-- Settles O7: `afterDraw` with the rows in Memory, and the fault of the first row outside. -/
theorem drwTogglesTheSprite : Obligations.DrwTogglesTheSprite := by
  intro x y n s hn
  refine ⟨encodedAs_of_toNat_encode (by simp [Instr.wellFormed, hn]) (toNat_encode_drw x y hn), fun h => ?_,
    fun r hrn hr hfirst => ?_⟩
  · exact ⟨afterDraw s x y n, exec_drw_of_rows_in_memory h, pixel_afterDraw s x y hn,
      reg_flag_afterDraw_eq_one s x y hn, reg_flag_afterDraw_zero_or_one s x y n, rfl, afterDraw_frame s x y n⟩
  · rw [exec_drw_of_row_outside hrn hr hfirst]
    exact faultsWith_raise _ s

/-! ## Drawing twice -/

theorem byte_ne_zero_iff {b : Byte} : b ≠ 0 ↔ ∃ c < 8, b.getLsbD (7 - c) = true := by
  constructor
  · intro h
    by_contra hc
    refine h (BitVec.eq_of_getLsbD_eq fun j hj => ?_)
    have hbit : ¬ b.getLsbD (7 - (7 - j)) = true := fun hb => hc ⟨7 - j, by omega, hb⟩
    rw [show 7 - (7 - j) = j by omega] at hbit
    simpa using hbit
  · rintro ⟨c, -, hb⟩ rfl
    simp at hb

/-- A sprite covers some pixel when one of its rows has a 1 bit. -/
theorem exists_spriteCovers_iff {s : State} {x y : Reg} {n : Nat} :
    (∃ p q, spriteCovers s x y n p q) ↔ ∃ r < n, s.byteAt (s.i.toNat + r) ≠ 0 := by
  simp only [byte_ne_zero_iff]
  constructor
  · rintro ⟨p, q, r, c, hr, hc, hb, -⟩
    exact ⟨r, hr, c, hc, hb⟩
  · rintro ⟨r, hr, c, hc, hb⟩
    exact ⟨spriteColumn (s.reg x) c, spriteRow (s.reg y) r, r, c, hr, hc, hb, rfl, rfl⟩

/-- A draw keeps its own sprite and coordinates when neither coordinate is VF. -/
theorem spriteCovers_afterDraw {s : State} {x y : Reg} (hx : x ≠ 0xF) (hy : y ≠ 0xF) (n : Nat) (p : Fin 64)
    (q : Fin 32) : spriteCovers (afterDraw s x y n) x y n p q ↔ spriteCovers s x y n p q := by
  have hF := afterDraw_frame s x y n
  have hbytes (a : Nat) : (afterDraw s x y n).byteAt a = s.byteAt a := hF.bytes a (by simp)
  simp only [spriteCovers, hF.regs x (by simpa using hx), hF.regs y (by simpa using hy), hF.i (by simp), hbytes]

/-- Settles O8: the exclusive or with the same sprite twice; on a blank screen the first draw leaves the sprite itself
lit. -/
theorem drawingTwiceErases : Obligations.DrawingTwiceErases := by
  intro x y n s hn hx hy hrows
  have hcovers := spriteCovers_afterDraw (s := s) hx hy n
  have hi : (afterDraw s x y n).i = s.i := (afterDraw_frame s x y n).i (by simp)
  refine ⟨_, _, exec_drw_of_rows_in_memory hrows, exec_drw_of_rows_in_memory (hi ▸ hrows), fun p q => ?_,
    fun hblank => ?_⟩
  · rw [Bool.eq_iff_iff, pixel_afterDraw _ x y hn, pixel_afterDraw s x y hn, hcovers]
    tauto
  · have hlit (p : Fin 64) (q : Fin 32) :
        pixel (afterDraw s x y n).fb p q = true ↔ spriteCovers s x y n p q := by
      simp [pixel_afterDraw s x y hn, hblank]
    constructor
    · refine (reg_flag_afterDraw_zero_or_one s x y n).resolve_right fun h1 => ?_
      obtain ⟨p, q, -, hp⟩ := (reg_flag_afterDraw_eq_one s x y hn).mp h1
      simp [hblank] at hp
    · rw [reg_flag_afterDraw_eq_one _ x y hn, ← exists_spriteCovers_iff (x := x) (y := y)]
      simp only [hcovers, hlit, and_self]

end Sys2Proof.Machine
end

section
/-! SUPPORT. Control transfer (41_flow.md R150 to R154): one equation for each way CALL and RET can end, from which the
statements and the balance of a CALL and its RET (90_conflicts.md C9) follow. -/

namespace Sys2Proof.Machine

/-! ## Targets -/

/-- An address field is the value it holds (R150): zero extension to 16 bits loses nothing. -/
theorem toNat_zext12 (a : Addr12) : (zext12 a).toNat = a.toNat := BitVec.toNat_setWidth_of_le (by decide)

theorem toNat_zext8 (b : Byte) : (zext8 b).toNat = b.toNat := BitVec.toNat_setWidth_of_le (by decide)

theorem jumpOffsetBase_index {s : State} (h : s.cfg.jumpBase = .index) (nnn : Addr12) : jumpOffsetBase s nnn = s.i := by
  rw [jumpOffsetBase, h]

theorem jumpOffsetBase_immediate {s : State} (h : s.cfg.jumpBase = .immediate) (nnn : Addr12) :
    jumpOffsetBase s nnn = zext12 nnn := by
  rw [jumpOffsetBase, h]

/-! ## The two ends of CALL and of RET -/

theorem exec_call_of_not_full {s : State} (h : s.stack.length ≠ s.cfg.stackDepth) (nnn : Addr12) :
    exec (.call nnn) s = .next ((s.setStack (s.stack ++ [s.pc])).setPc (zext12 nnn)) := by
  rw [exec, execCall, push_eq_ok.mpr ⟨h, rfl⟩]

theorem exec_call_of_full {s : State} (h : s.stack.length = s.cfg.stackDepth) (nnn : Addr12) :
    exec (.call nnn) s = raise (.stackOverflow (s.pc - 2)) s := by
  rw [exec, execCall, push_eq_error.mpr ⟨h, rfl⟩]

theorem exec_ret_of_concat {s : State} {rest : List Word} {w : Word} (h : s.stack = rest ++ [w]) :
    exec .ret s = .next ((s.setStack rest).setPc w) := by
  rw [exec, execRet, pop_eq_ok.mpr ⟨rest, h, rfl⟩]

theorem exec_ret_of_empty {s : State} (h : s.stack = []) : exec .ret s = raise (.stackUnderflow (s.pc - 2)) s := by
  rw [exec, execRet, pop_eq_error.mpr ⟨h, rfl⟩]

/-- CALL and RET change no more than the stack and PC. -/
theorem frameExcept_setStack_setPc (s : State) (l : List Word) (w : Word) :
    FrameExcept [.pc, .stack] [] [] s ((s.setStack l).setPc w) :=
  ((FrameExcept.refl _ _ _ s).setStack l (by simp)).setPc w (by simp)

/-- A jump changes no more than PC. -/
theorem frameExcept_setPc (s : State) (w : Word) : FrameExcept [.pc] [] [] s (s.setPc w) :=
  (FrameExcept.refl _ _ _ s).setPc w (by simp)

/-! ## The statements -/

/-- Settles O9: the two ends of RET. -/
theorem retPops : Obligations.RetPops := by
  refine ⟨encodedAs_of_toNat_encode rfl rfl, fun s => ⟨fun rest w h => ?_, fun h => ?_⟩⟩
  · exact ⟨_, exec_ret_of_concat h, rfl, rfl, frameExcept_setStack_setPc s rest w⟩
  · rw [exec_ret_of_empty h]
    exact faultsWith_raise _ s

/-- Settles O10: by the rule of the one field it sets. -/
theorem jpJumps : Obligations.JpJumps := fun nnn s =>
  ⟨encodedAs_of_toNat_encode rfl (toNat_formatNnn 0x1 nnn), s.setPc (zext12 nnn), rfl, toNat_zext12 nnn,
    frameExcept_setPc s _⟩

/-- Settles O11: the two ends of CALL. -/
theorem callPushes : Obligations.CallPushes := by
  refine fun nnn s => ⟨encodedAs_of_toNat_encode rfl (toNat_formatNnn 0x2 nnn), fun h => ?_, fun h => ?_⟩
  · exact ⟨_, exec_call_of_not_full h nnn, toNat_zext12 nnn, rfl, frameExcept_setStack_setPc s _ _⟩
  · rw [exec_call_of_full h]
    exact faultsWith_raise _ s

/-- Settles O12: the sum modulo 2^16 over each value of the base. -/
theorem jpV0AddsTheOffset : Obligations.JpV0AddsTheOffset := by
  refine fun nnn s => ⟨encodedAs_of_toNat_encode rfl (toNat_formatNnn 0xB nnn),
    s.setPc (jumpOffsetBase s nnn + zext8 (s.reg 0)), rfl, frameExcept_setPc s _, fun h => ?_, fun h => ?_⟩
  · rw [State.setPc_pc, jumpOffsetBase_index h, BitVec.toNat_add, toNat_zext8]
  · rw [State.setPc_pc, jumpOffsetBase_immediate h, BitVec.toNat_add, toNat_zext12, toNat_zext8]

/-- Settles O13: the entry CALL appends is the one RET removes; the fetch between them changes only PC. -/
theorem callThenRetBalances : Obligations.CallThenRetBalances := fun nnn _ h =>
  ⟨_, _, exec_call_of_not_full h nnn, exec_ret_of_concat rfl, rfl, rfl⟩

end Sys2Proof.Machine
end

section
/-! SUPPORT. The compare-and-skip instructions (42_skip.md R170 to R174). Each is `skipIf` of a Boolean comparison of two
bytes, so one lemma says what all four do, from the proposition that the Boolean decides. -/

namespace Sys2Proof.Machine

/-! ## Encodings by format -/

/-- Format XNN by its number (30_encoding.md R93). -/
theorem encodedAs_of_encode_eq_formatXnn {i : Instr} (op : BitVec 4) {x : Reg} {nn : Byte} (hi : i.wellFormed = true)
    (he : encode i = formatXnn op x nn) : EncodedAs i (op.toNat * 4096 + 256 * x.val + nn.toNat) :=
  encodedAs_of_toNat_encode hi (by rw [he, toNat_formatXnn, Nat.mul_comm x.val])

/-- Format XY by its number (30_encoding.md R93). -/
theorem encodedAs_of_encode_eq_formatXy {i : Instr} (op sel : BitVec 4) {x y : Reg} (hi : i.wellFormed = true)
    (he : encode i = formatXy op x y sel) : EncodedAs i (op.toNat * 4096 + 256 * x.val + 16 * y.val + sel.toNat) :=
  encodedAs_of_toNat_encode hi (by rw [he, toNat_formatXy, Nat.mul_comm x.val, Nat.mul_comm y.val])

/-! ## The skip law -/

theorem toNat_skipIf_pc (c : Bool) (s : State) :
    (skipIf c s).pc.toNat = if c = true then (s.pc.toNat + 2) % 65536 else s.pc.toNat := by
  rw [skipIf_pc, apply_ite BitVec.toNat, BitVec.toNat_add]
  rfl

/-- An instruction that is `skipIf` of a Boolean moves PC by the proposition it decides, and changes no more than PC. -/
theorem exists_next_of_exec_eq_skipIf {i : Instr} {s : State} {c : Bool} {p : Prop} [Decidable p]
    (h : exec i s = .next (skipIf c s)) (hc : c = true ↔ p) :
    ∃ t, exec i s = .next t ∧ FrameExcept [.pc] [] [] s t ∧
      t.pc.toNat = if p then (s.pc.toNat + 2) % 65536 else s.pc.toNat :=
  ⟨_, h, frameExcept_setPc s _, by simp only [toNat_skipIf_pc, hc]⟩

theorem beq_iff_toNat_eq {a b : Byte} : (a == b) = true ↔ a.toNat = b.toNat := beq_iff_eq.trans BitVec.toNat_inj.symm

theorem bne_iff_toNat_ne {a b : Byte} : (a != b) = true ↔ a.toNat ≠ b.toNat :=
  bne_iff_ne.trans BitVec.toNat_inj.symm.not

/-- Settles O14: the skip law at the comparison each of the four makes, on the unsigned values of its bytes. -/
theorem skipsCompare : Obligations.SkipsCompare := fun _ _ _ _ =>
  ⟨encodedAs_of_encode_eq_formatXnn 0x3 rfl rfl, encodedAs_of_encode_eq_formatXnn 0x4 rfl rfl,
    encodedAs_of_encode_eq_formatXy 0x5 0x0 rfl rfl, encodedAs_of_encode_eq_formatXy 0x9 0x0 rfl rfl,
    exists_next_of_exec_eq_skipIf rfl beq_iff_toNat_eq, exists_next_of_exec_eq_skipIf rfl bne_iff_toNat_ne,
    exists_next_of_exec_eq_skipIf rfl beq_iff_toNat_eq, exists_next_of_exec_eq_skipIf rfl bne_iff_toNat_ne⟩

end Sys2Proof.Machine
end

section
/-! SUPPORT. Register arithmetic and logic (43_alu.md R191 to R202): what each of the two write orders of R197 leaves in Vx
and in VF, and the flags and results as numbers. -/

namespace Sys2Proof.Machine

/-! ## Encodings -/

/-- A row of the group 0x8 by its number (30_encoding.md R93). -/
theorem encodedAs_of_encode_eq_formatXy_8 {i : Instr} (sel : BitVec 4) {x y : Reg} (hi : i.wellFormed = true)
    (he : encode i = formatXy 0x8 x y sel) : EncodedAs i (0x8000 + sel.toNat + 256 * x.val + 16 * y.val) :=
  encodedAs_of_toNat_encode hi (by rw [he, toNat_formatXy, show (0x8 : BitVec 4).toNat = 8 from rfl]; omega)

/-! ## Register writes -/

/-- An instruction that writes one register changes no more than it. -/
theorem frameExcept_setReg (s : State) (x : Reg) (b : Byte) : FrameExcept [] [x] [] s (s.setReg x b) :=
  (FrameExcept.refl _ _ _ s).setReg b (by simp)

theorem frameExcept_setResultThenFlag (s : State) (x : Reg) (r : Byte) (f : Bool) :
    FrameExcept [] [x, 0xF] [] s (setResultThenFlag s x r f) :=
  (FrameExcept.refl _ _ _ s).setResultThenFlag r f (by simp) (by simp [flagReg])

theorem frameExcept_setFlagThenResult (s : State) (x : Reg) (r : Byte) (f : Bool) :
    FrameExcept [] [x, 0xF] [] s (setFlagThenResult s x r f) :=
  (FrameExcept.refl _ _ _ s).setFlagThenResult r f (by simp) (by simp [flagReg])

theorem reg_setResultThenFlag {x : Reg} (hx : x ≠ 0xF) (s : State) (r : Byte) (f : Bool) :
    (setResultThenFlag s x r f).reg x = r :=
  (State.reg_setReg_ne _ _ hx).trans (State.reg_setReg_same s x r)

/-- VF is written last, so this holds also for x = 0xF (R197). -/
theorem reg_flag_setResultThenFlag (s : State) (x : Reg) (r : Byte) (f : Bool) :
    (setResultThenFlag s x r f).reg 0xF = flagByte f :=
  State.reg_setReg_same _ flagReg _

/-- Vx is written last, so this holds also for x = 0xF (R197). -/
theorem reg_setFlagThenResult (s : State) (x : Reg) (r : Byte) (f : Bool) : (setFlagThenResult s x r f).reg x = r :=
  State.reg_setReg_same _ x r

theorem reg_flag_setFlagThenResult {x : Reg} (hx : x ≠ 0xF) (s : State) (r : Byte) (f : Bool) :
    (setFlagThenResult s x r f).reg 0xF = flagByte f :=
  (State.reg_setReg_ne _ _ hx.symm).trans (State.reg_setReg_same s flagReg _)

/-! ## Flags and results as numbers -/

theorem toNat_flagByte (b : Bool) : (flagByte b).toNat = b.toNat := by cases b <;> rfl

theorem toNat_flagByte_decide (p : Prop) [Decidable p] : (flagByte (decide p)).toNat = if p then 1 else 0 :=
  (toNat_flagByte _).trans (Bool.cond_decide p 1 0)

theorem toNat_flagByte_carryOut (a b : Byte) :
    (flagByte (carryOut a b)).toNat = if a.toNat + b.toNat > 255 then 1 else 0 := toNat_flagByte_decide _

theorem toNat_flagByte_noBorrow (a b : Byte) :
    (flagByte (noBorrow a b)).toNat = if a.toNat ≥ b.toNat then 1 else 0 := toNat_flagByte_decide _

theorem toNat_flagByte_shiftedOutRight (a : Byte) : (flagByte (shiftedOutRight a)).toNat = a.toNat % 2 := by
  rw [toNat_flagByte, shiftedOutRight, BitVec.getLsbD, Nat.toNat_testBit, pow_zero, Nat.div_one]

/-- Bit 7 is the highest of a byte, so the quotient by 128 is 0 or 1. -/
theorem toNat_flagByte_shiftedOutLeft (a : Byte) : (flagByte (shiftedOutLeft a)).toNat = a.toNat / 128 := by
  rw [toNat_flagByte, shiftedOutLeft, BitVec.getLsbD, Nat.toNat_testBit]
  exact Nat.mod_eq_of_lt (Nat.div_lt_of_lt_mul a.isLt)

/-- A difference of bytes wraps as the remainder of the signed difference (R199, R201). -/
theorem toNat_sub_eq_emod (a b : Byte) : ((a - b).toNat : Int) = (a.toNat - b.toNat : Int) % 256 := by
  have hb := b.isLt
  rw [BitVec.toNat_sub]
  omega

theorem toNat_ushiftRight_one (a : Byte) : (a >>> 1).toNat = a.toNat / 2 := by
  rw [BitVec.toNat_ushiftRight, Nat.shiftRight_one]

theorem toNat_shiftLeft_one (a : Byte) : (a <<< 1).toNat = a.toNat * 2 % 256 := by
  rw [BitVec.toNat_shiftLeft, Nat.shiftLeft_eq, pow_one]

/-! ## The statements -/

/-- Settles O18: one register write each. -/
theorem immediateLoadAndAdd : Obligations.ImmediateLoadAndAdd := by
  refine fun x nn s => ⟨encodedAs_of_encode_eq_formatXnn 0x6 rfl rfl, encodedAs_of_encode_eq_formatXnn 0x7 rfl rfl,
    ⟨_, rfl, State.reg_setReg_same s x nn, frameExcept_setReg s x _⟩, ⟨_, rfl, ?_, frameExcept_setReg s x _⟩⟩
  rw [State.reg_setReg_same, BitVec.toNat_add]

/-- Settles O19: one register write each, and the bits of the byte written. -/
theorem copyAndLogic : Obligations.CopyAndLogic := by
  refine fun x y s => ⟨encodedAs_of_encode_eq_formatXy_8 0x0 rfl rfl, encodedAs_of_encode_eq_formatXy_8 0x1 rfl rfl,
    encodedAs_of_encode_eq_formatXy_8 0x2 rfl rfl, encodedAs_of_encode_eq_formatXy_8 0x3 rfl rfl,
    ⟨_, rfl, State.reg_setReg_same s x _, frameExcept_setReg s x _⟩,
    ⟨_, rfl, frameExcept_setReg s x _, fun b _ => ?_⟩, ⟨_, rfl, frameExcept_setReg s x _, fun b _ => ?_⟩,
    ⟨_, rfl, frameExcept_setReg s x _, fun b _ => ?_⟩⟩
  · rw [State.reg_setReg_same, BitVec.getLsbD_or]
  · rw [State.reg_setReg_same, BitVec.getLsbD_and]
  · rw [State.reg_setReg_same, BitVec.getLsbD_xor]

/-- Settles O20: the result is written to Vx, then the flag to VF. -/
theorem addSubtractWithFlag : Obligations.AddSubtractWithFlag := by
  refine fun x y s => ⟨encodedAs_of_encode_eq_formatXy_8 0x4 rfl rfl, encodedAs_of_encode_eq_formatXy_8 0x5 rfl rfl,
    encodedAs_of_encode_eq_formatXy_8 0x7 rfl rfl,
    ⟨_, rfl, frameExcept_setResultThenFlag s x _ _, fun hx => ?_, ?_⟩,
    ⟨_, rfl, frameExcept_setResultThenFlag s x _ _, fun hx => ?_, ?_⟩,
    ⟨_, rfl, frameExcept_setResultThenFlag s x _ _, fun hx => ?_, ?_⟩⟩
  · rw [reg_setResultThenFlag hx, BitVec.toNat_add]
  · rw [reg_flag_setResultThenFlag, toNat_flagByte_carryOut]
  · rw [reg_setResultThenFlag hx, toNat_sub_eq_emod]
  · rw [reg_flag_setResultThenFlag, toNat_flagByte_noBorrow]
  · rw [reg_setResultThenFlag hx, toNat_sub_eq_emod]
  · rw [reg_flag_setResultThenFlag, toNat_flagByte_noBorrow]

/-- Settles O21: the flag is written to VF, then the result to Vx. -/
theorem shiftsByOne : Obligations.ShiftsByOne := by
  refine fun x y s => ⟨encodedAs_of_encode_eq_formatXy_8 0x6 rfl rfl, encodedAs_of_encode_eq_formatXy_8 0xE rfl rfl,
    ⟨_, rfl, frameExcept_setFlagThenResult s x _ _, ?_, fun hx => ?_⟩,
    ⟨_, rfl, frameExcept_setFlagThenResult s x _ _, ?_, fun hx => ?_⟩⟩
  · rw [reg_setFlagThenResult, toNat_ushiftRight_one]
  · rw [reg_flag_setFlagThenResult hx, toNat_flagByte_shiftedOutRight]
  · rw [reg_setFlagThenResult, toNat_shiftLeft_one]
  · rw [reg_flag_setFlagThenResult hx, toNat_flagByte_shiftedOutLeft]

/-- Settles O22: the clauses of `addSubtractWithFlag` and `shiftsByOne` that hold for every x, at x = 0xF. -/
theorem flagWriteOrder : Obligations.FlagWriteOrder := by
  intro y s
  obtain ⟨-, -, -, ⟨t₁, h₁, -, -, hadd⟩, ⟨t₂, h₂, -, -, hsub⟩, ⟨t₃, h₃, -, -, hsubn⟩⟩ := addSubtractWithFlag 0xF y s
  obtain ⟨-, -, ⟨t₄, h₄, -, hshr, -⟩, ⟨t₅, h₅, -, hshl, -⟩⟩ := shiftsByOne 0xF y s
  exact ⟨⟨t₁, h₁, hadd⟩, ⟨t₂, h₂, hsub⟩, ⟨t₃, h₃, hsubn⟩, ⟨t₄, h₄, hshr⟩, ⟨t₅, h₅, hshl⟩⟩

end Sys2Proof.Machine
end

section
/-! SUPPORT. The index register (44_index.md R221 to R223): one equation for each way LD F, Vx can end, and the value an
address has under the bounds of R6. -/

namespace Sys2Proof.Machine

/-! ## Encodings -/

/-- Format X by its number (30_encoding.md R93). -/
theorem encodedAs_of_encode_eq_formatX {i : Instr} (op : BitVec 4) (sel : Byte) {x : Reg} (hi : i.wellFormed = true)
    (he : encode i = formatX op x sel) : EncodedAs i (op.toNat * 4096 + sel.toNat + 256 * x.val) :=
  encodedAs_of_toNat_encode hi (by rw [he, toNat_formatX, Nat.mul_comm x.val, Nat.add_right_comm])

/-! ## The glyph of a digit -/

theorem isHexDigit_eq_true {b : Byte} : isHexDigit b = true ↔ b.toNat ≤ 0xF := decide_eq_true_iff

theorem isHexDigit_eq_false {b : Byte} : isHexDigit b = false ↔ 0xF < b.toNat := decide_eq_false_iff_not.trans Nat.not_le

/-- Under the bounds of R6 the glyphs stand below LOAD_ADDR, so the address of a digit's glyph does not wrap (R72). -/
theorem toNat_glyphAddr {c : Config} (hc : c.wf = true) {d : Byte} (hd : d.toNat ≤ 0xF) :
    (glyphAddr c d).toNat = c.fontBase + 5 * d.toNat := by
  simp only [Config.wf, Bool.and_eq_true, decide_eq_true_eq] at hc
  obtain ⟨⟨hfont, -⟩, -⟩ := hc
  rw [glyphAddr, BitVec.toNat_ofNat, Nat.mod_eq_of_lt (by omega)]

/-! ## The ends of the index instructions -/

/-- An index instruction that no fault ends changes no more than I. -/
theorem frameExcept_setI (s : State) (w : Word) : FrameExcept [.i] [] [] s (s.setI w) :=
  (FrameExcept.refl _ _ _ s).setI w (by simp)

theorem exec_ldF_of_digit {x : Reg} {s : State} (h : (s.reg x).toNat ≤ 0xF) :
    exec (.ldF x) s = .next (s.setI (glyphAddr s.cfg (s.reg x))) := by
  rw [exec, execLdF, isHexDigit_eq_true.mpr h]

theorem exec_ldF_of_not_digit {x : Reg} {s : State} (h : 0xF < (s.reg x).toNat) :
    exec (.ldF x) s = raise (.fontDigitOutOfRange (s.reg x) (s.pc - 2)) s := by
  rw [exec, execLdF, isHexDigit_eq_false.mpr h, State.insnAddr]

/-! ## The statements -/

/-- Settles O23: one write of I each; the word addition is the sum modulo 2^16. -/
theorem indexLoadAndAdd : Obligations.IndexLoadAndAdd := by
  refine fun nnn x s => ⟨encodedAs_of_toNat_encode rfl (toNat_formatNnn 0xA nnn),
    encodedAs_of_encode_eq_formatX 0xF 0x1E rfl rfl, ⟨_, rfl, toNat_zext12 nnn, frameExcept_setI s _⟩,
    ⟨_, rfl, ?_, frameExcept_setI s _⟩⟩
  rw [State.setI_i, BitVec.toNat_add, toNat_zext8]

/-- Settles O24: the two ends of LD F, Vx. -/
theorem fontLookup : Obligations.FontLookup := by
  refine fun x s hc => ⟨encodedAs_of_encode_eq_formatX 0xF 0x29 rfl rfl, fun h => ?_, fun h => ?_⟩
  · exact ⟨_, exec_ldF_of_digit h, toNat_glyphAddr hc h, frameExcept_setI s _⟩
  · rw [exec_ldF_of_not_digit h]
    exact faultsWith_raise _ s

end Sys2Proof.Machine
end

section
/-! SUPPORT. The random byte (45_random.md R240, R241): what one draw answers and leaves when the host has a byte ready. -/

namespace Sys2Proof.Machine

theorem randByte_of_ready {s : State} {q : Byte} {rest : List Byte} (h : s.host.rands = q :: rest) : randByte s = q := by
  rw [randByte, h]

theorem afterRand_of_ready {s : State} {q : Byte} {rest : List Byte} (h : s.host.rands = q :: rest) :
    afterRand s = s.setHost { s.host with rands := rest } := by
  rw [afterRand, h]

/-- RND changes no more than its register and the record of the host, in either case of the draw. -/
theorem frameExcept_afterRand_setReg (s : State) (x : Reg) (b : Byte) :
    FrameExcept [.host] [x] [] s ((afterRand s).setReg x b) :=
  ((FrameExcept.refl _ _ _ s).afterRand (by simp)).setReg b (by simp)

/-- Settles O25: the byte is `randByte s` in every state, and a ready byte fixes it and the record after the draw. -/
theorem randomByteMasked : Obligations.RandomByteMasked := by
  refine fun x nn s => ⟨encodedAs_of_encode_eq_formatXnn 0xC rfl rfl, (afterRand s).setReg x (randByte s &&& nn), randByte s,
    rfl, State.reg_setReg_same _ x _, frameExcept_afterRand_setReg s x _, fun q rest h => ⟨randByte_of_ready h, ?_, ?_⟩⟩
  · rw [State.setReg_host, afterRand_of_ready h, State.setHost_host]
  · rw [State.setReg_draws, afterRand_of_ready h, State.setHost_draws]

end Sys2Proof.Machine
end

section
/-! SUPPORT. The key instructions (46_keys.md R251 to R253): one equation for each way SKP and SKNP can end, and one for each
answer a look of the key wait can find. -/

namespace Sys2Proof.Machine

/-! ## The ends of SKP and of SKNP -/

theorem exec_skp_of_key {x : Reg} {s : State} (h : (s.reg x).toNat ≤ 0xF) :
    exec (.skp x) s = .next (skipIf (isKeyDown s (s.reg x).toNat) s) := by
  rw [exec, execSkp, isHexDigit_eq_true.mpr h]

theorem exec_skp_of_not_key {x : Reg} {s : State} (h : 0xF < (s.reg x).toNat) :
    exec (.skp x) s = raise (.keyIndexOutOfRange (s.reg x) (s.pc - 2)) s := by
  rw [exec, execSkp, isHexDigit_eq_false.mpr h, State.insnAddr]

theorem exec_sknp_of_key {x : Reg} {s : State} (h : (s.reg x).toNat ≤ 0xF) :
    exec (.sknp x) s = .next (skipIf (!isKeyDown s (s.reg x).toNat) s) := by
  rw [exec, execSknp, isHexDigit_eq_true.mpr h]

theorem exec_sknp_of_not_key {x : Reg} {s : State} (h : 0xF < (s.reg x).toNat) :
    exec (.sknp x) s = raise (.keyIndexOutOfRange (s.reg x) (s.pc - 2)) s := by
  rw [exec, execSknp, isHexDigit_eq_false.mpr h, State.insnAddr]

/-- Settles O15: the skip law at the sampled bit of the key, or at its negation, and the fault of a value that names no key. -/
theorem keySkips : Obligations.KeySkips := by
  refine fun x s => ⟨encodedAs_of_encode_eq_formatX 0xE 0x9E rfl rfl, encodedAs_of_encode_eq_formatX 0xE 0xA1 rfl rfl,
    fun h => ⟨⟨_, exec_skp_of_key h, frameExcept_setPc s _, skipIf_pc _ s⟩,
      ⟨_, exec_sknp_of_key h, frameExcept_setPc s _, ?_⟩⟩, fun h => ⟨?_, ?_⟩⟩
  · simp only [skipIf_pc, Bool.not_eq_true', isKeyDown]
  · rw [exec_skp_of_not_key h]
    exact faultsWith_raise _ s
  · rw [exec_sknp_of_not_key h]
    exact faultsWith_raise _ s

/-! ## A look of the key wait -/

theorem awaitKey_of_key {s : State} {k : Key} {rest : List (Option KeyAnswer)}
    (h : s.host.answers = some (.key k) :: rest) (x : Reg) :
    awaitKey x s =
      ((s.setHost { s.host with answers := rest }).setReg x (BitVec.ofNat 8 k.val)).setStatus .running := by
  rw [awaitKey, hostAnswer_cons h, dropAnswer_cons h]

theorem awaitKey_of_quit {s : State} {rest : List (Option KeyAnswer)} (h : s.host.answers = some .quit :: rest)
    (x : Reg) :
    awaitKey x s = (s.setHost { s.host with answers := rest }).setStatus (.haltedNormal .capabilityExit) := by
  rw [awaitKey, hostAnswer_cons h, dropAnswer_cons h]

theorem awaitKey_of_no_answer_yet {s : State} {rest : List (Option KeyAnswer)} (h : s.host.answers = none :: rest)
    (x : Reg) : awaitKey x s = s.setHost { s.host with answers := rest } := by
  rw [awaitKey, hostAnswer_cons h, dropAnswer_cons h]

/-- A host that never answers leaves the waiting core as it is (R349). -/
theorem awaitKey_of_no_answer {s : State} (h : s.host.answers = []) (x : Reg) : awaitKey x s = s := by
  rw [awaitKey, hostAnswer_nil h, dropAnswer_nil h]

/-- A key is one of sixteen, so the byte of its number is that number. -/
theorem toNat_ofNat_key (k : Key) : (BitVec.ofNat 8 k.val).toNat = k.val :=
  Nat.mod_eq_of_lt (k.isLt.trans (by decide))

/-! ## LD Vx, K -/

/-- The state in which LD Vx, K looks for the host's answer: waiting, the key requested (R253). -/
def keyRequested (x : Reg) (s : State) : State := (s.setStatus (.waitingKey x)).emit [.keyWaitReq x]

theorem exec_ldVxK (x : Reg) (s : State) : exec (.ldVxK x) s = .next (awaitKey x (keyRequested x s)) := rfl

theorem frameExcept_keyRequested {ps : List Part} (hs : .status ∈ ps) (ho : .out ∈ ps) (rs : List Reg) (x : Reg)
    (s : State) : FrameExcept ps rs [] s (keyRequested x s) :=
  ((FrameExcept.refl ps rs [] s).setStatus _ hs).emit _ ho

/-- Settles O16: the look LD Vx, K takes, by what it finds. The key is the one answer that writes a register. -/
theorem keyWait : Obligations.KeyWait := by
  intro x s
  have hframe (rs : List Reg) : FrameExcept [.status, .host, .out] rs [] s (keyRequested x s) :=
    frameExcept_keyRequested (by simp) (by simp) rs x s
  simp only [exec_ldVxK]
  refine ⟨encodedAs_of_encode_eq_formatX 0xF 0x0A rfl rfl, fun k rest h => ?key, fun rest h => ?quit,
    fun rest h => ?notYet, fun h => ?never⟩
  case key =>
    refine ⟨_, congrArg _ (awaitKey_of_key (s := keyRequested x s) h x), ?_, rfl, rfl, rfl, rfl,
      (((hframe [x]).setHost _ (by simp)).setReg _ (by simp)).setStatus _ (by simp)⟩
    rw [State.reg_setStatus, State.reg_setReg_same, toNat_ofNat_key]
  case quit =>
    exact ⟨_, congrArg _ (awaitKey_of_quit (s := keyRequested x s) h x), rfl, rfl, rfl, rfl,
      ((hframe []).setHost _ (by simp)).setStatus _ (by simp)⟩
  case notYet =>
    exact ⟨_, congrArg _ (awaitKey_of_no_answer_yet (s := keyRequested x s) h x), rfl, rfl, rfl, rfl,
      (hframe []).setHost _ (by simp)⟩
  case never =>
    exact ⟨_, congrArg _ (awaitKey_of_no_answer (s := keyRequested x s) h x), rfl, rfl,
      frameExcept_keyRequested (by simp) (by simp) [] x s⟩

end Sys2Proof.Machine
end

section
/-! SUPPORT. The timer transfers (47_timers.md R271 to R273): each is one write of its destination. -/

namespace Sys2Proof.Machine

/-- LD DT, Vx changes no more than DT. -/
theorem frameExcept_setDt (s : State) (b : Byte) : FrameExcept [.dt] [] [] s (s.setDt b) :=
  (FrameExcept.refl _ _ _ s).setDt b (by simp)

/-- LD ST, Vx changes no more than ST. -/
theorem frameExcept_setSt (s : State) (b : Byte) : FrameExcept [.st] [] [] s (s.setSt b) :=
  (FrameExcept.refl _ _ _ s).setSt b (by simp)

/-- Settles O26: one write of Vx, of DT and of ST. -/
theorem timerTransfers : Obligations.TimerTransfers := by
  refine fun x s => ⟨encodedAs_of_encode_eq_formatX 0xF 0x07 rfl rfl, encodedAs_of_encode_eq_formatX 0xF 0x15 rfl rfl,
    encodedAs_of_encode_eq_formatX 0xF 0x18 rfl rfl, ?vxFromDt, ?dtFromVx, ?stFromVx⟩
  case vxFromDt => exact ⟨s.setReg x s.dt, rfl, State.reg_setReg_same s x s.dt, frameExcept_setReg s x _⟩
  case dtFromVx => exact ⟨s.setDt (s.reg x), rfl, State.setDt_dt s _, frameExcept_setDt s _⟩
  case stFromVx => exact ⟨s.setSt (s.reg x), rfl, State.setSt_st s _, frameExcept_setSt s _⟩

end Sys2Proof.Machine
end

section
/-! SUPPORT. The memory operations (48_memory_ops.md R290 to R296): one equation for each way an operation can end, the bytes
each stores in the order of its addresses, and what moving I past the registers leaves unchanged. -/

namespace Sys2Proof.Machine

/-! ## The ends of the memory operations -/

section
variable {x : Reg} {s t : State} {f : Fault}

theorem exec_ldB_of_ok (h : memWriteAll s (bcdStores x s) = .ok t) : exec (.ldB x) s = .next t := by
  rw [exec, execLdB, h, conclude]

theorem exec_ldB_of_error (h : memWriteAll s (bcdStores x s) = .error f) : exec (.ldB x) s = raise f s := by
  rw [exec, execLdB, h, conclude]

theorem exec_storeRegs_of_ok (h : memWriteAll s (blockStores x s) = .ok t) :
    exec (.storeRegs x) s = .next (afterBlock x t) := by
  rw [exec, execStoreRegs, h]

theorem exec_storeRegs_of_error (h : memWriteAll s (blockStores x s) = .error f) :
    exec (.storeRegs x) s = raise f s := by
  rw [exec, execStoreRegs, h]

theorem exec_loadRegs_of_ok (h : loadEach s (regsUpTo x) = .ok t) : exec (.loadRegs x) s = .next (afterBlock x t) := by
  rw [exec, execLoadRegs, h]

theorem exec_loadRegs_of_error (h : loadEach s (regsUpTo x) = .error f) : exec (.loadRegs x) s = raise f s := by
  rw [exec, execLoadRegs, h]

end

/-! ## Decimal digits -/

theorem toNat_hundreds (b : Byte) : (hundreds b).toNat = b.toNat / 100 := BitVec.toNat_udiv

theorem toNat_tens (b : Byte) : (tens b).toNat = b.toNat / 10 % 10 := by
  rw [tens, BitVec.toNat_umod, BitVec.toNat_udiv]
  rfl

theorem toNat_units (b : Byte) : (units b).toNat = b.toNat % 10 := BitVec.toNat_umod

/-! ## LD B, Vx -/

theorem map_fst_bcdStores (x : Reg) (s : State) :
    (bcdStores x s).map Prod.fst = [s.i.toNat, s.i.toNat + 1, s.i.toNat + 2] := rfl

/-- The digits' addresses are pairwise distinct: an effective address does not wrap (R290). -/
theorem bcdStores_addrs_nodup (x : Reg) (s : State) : ((bcdStores x s).map Prod.fst).Nodup := by
  simp [map_fst_bcdStores]

/-- The three digits are written in rising order of their addresses, so the first address that cannot be stored to is where
LD B faults. -/
theorem memWriteAll_bcdStores_eq_error {x : Reg} {s : State} {k : Nat} (hk : k < 3)
    (hbad : ¬ Storable s.cfg (s.i.toNat + k)) (hfirst : ∀ j < k, Storable s.cfg (s.i.toNat + j)) :
    memWriteAll s (bcdStores x s) = .error (storeFault (s.i.toNat + k) (s.pc - 2)) := by
  obtain rfl | rfl | rfl : k = 0 ∨ k = 1 ∨ k = 2 := by omega
  · exact memWriteAll_error_of_first (pre := []) (by simp) hbad
  · have h0 := hfirst 0 (by omega)
    exact memWriteAll_error_of_first (pre := [(effAddr s 0, hundreds (s.reg x))]) (by simpa [effAddr] using h0) hbad
  · have h0 := hfirst 0 (by omega)
    have h1 := hfirst 1 (by omega)
    exact memWriteAll_error_of_first (pre := [(effAddr s 0, hundreds (s.reg x)), (effAddr s 1, tens (s.reg x))])
      (by simpa [effAddr] using And.intro h0 h1) hbad

/-- Settles O27: the three digits stored, or the fault of the first address. -/
theorem bcdStore : Obligations.BcdStore := by
  refine fun x s hw => ⟨encodedAs_of_encode_eq_formatX 0xF 0x33 rfl rfl, fun h => ?_, fun k hk hbad hfirst => ?_⟩
  · have haddrs : ∀ e ∈ bcdStores x s, Storable s.cfg e.1 := by
      simpa [bcdStores, effAddr] using And.intro (h 0 (by omega)) (And.intro (h 1 (by omega)) (h 2 (by omega)))
    obtain ⟨t, ht⟩ := memWriteAll_ok_of_storable haddrs
    have hdigits := memWriteAll_stores hw (bcdStores_addrs_nodup x s) ht
    refine ⟨t, exec_ldB_of_ok ht, ?_, ?_, ?_, frame_of_memWriteAll ht⟩
    · exact (congrArg _ (hdigits (effAddr s 0, hundreds (s.reg x)) (by simp [bcdStores]))).trans (toNat_hundreds _)
    · exact (congrArg _ (hdigits (effAddr s 1, tens (s.reg x)) (by simp [bcdStores]))).trans (toNat_tens _)
    · exact (congrArg _ (hdigits (effAddr s 2, units (s.reg x)) (by simp [bcdStores]))).trans (toNat_units _)
  · rw [exec_ldB_of_error (memWriteAll_bcdStores_eq_error hk hbad hfirst)]
    exact faultsWith_raise _ s

/-! ## I after a block store or load -/

@[simp] theorem byteAt_afterBlock (x : Reg) (s : State) (a : Nat) : (afterBlock x s).byteAt a = s.byteAt a := by
  rcases afterBlock_cases x s with e | e <;> rw [e]; rfl

@[simp] theorem reg_afterBlock (x r : Reg) (s : State) : (afterBlock x s).reg r = s.reg r := by
  rcases afterBlock_cases x s with e | e <;> rw [e]; rfl

/-- I moves past the x + 1 registers, modulo 2^16, exactly under LOADSTORE_INCREMENTS_I (R294, R296). -/
theorem toNat_afterBlock_i (x : Reg) (s : State) : (afterBlock x s).i.toNat =
    if s.cfg.loadStoreIncrementsI = true then (s.i.toNat + x.val + 1) % 65536 else s.i.toNat := by
  rw [afterBlock]
  cases s.cfg.loadStoreIncrementsI
  · rfl
  · have hx : x.val < 16 := x.isLt
    simp only [State.setI_i, BitVec.toNat_add, BitVec.toNat_ofNat, if_true]
    omega

/-! ## The registers of a block, in rising order -/

theorem regsUpTo_rise (x : Reg) : (regsUpTo x).Pairwise (· < ·) := by revert x; decide

theorem map_val_regsUpTo (x : Reg) : (regsUpTo x).map Fin.val = List.range (x.val + 1) := by revert x; decide

/-- The registers of a block before one of them are the lower ones. -/
theorem exists_regsUpTo_eq_append {x r : Reg} (h : r ≤ x) :
    ∃ pre post, regsUpTo x = pre ++ r :: post ∧ ∀ q ∈ pre, q < r := by
  obtain ⟨pre, post, hsplit⟩ := List.append_of_mem (mem_regsUpTo.mpr h)
  have hrise := regsUpTo_rise x
  rw [hsplit, List.pairwise_append] at hrise
  obtain ⟨-, -, hlt⟩ := hrise
  exact ⟨pre, post, hsplit, fun q hq => hlt q hq r (by simp)⟩

/-! ## LD [I], Vx -/

theorem map_fst_blockStores (x : Reg) (s : State) :
    (blockStores x s).map Prod.fst = (List.range (x.val + 1)).map (s.i.toNat + ·) := by
  rw [← map_val_regsUpTo, blockStores, List.map_map, List.map_map]
  rfl

/-- The addresses of a block are pairwise distinct: an effective address does not wrap (R290). -/
theorem blockStores_addrs_nodup (x : Reg) (s : State) : ((blockStores x s).map Prod.fst).Nodup := by
  rw [map_fst_blockStores]
  exact List.nodup_range.map fun _ _ => Nat.add_left_cancel

theorem mem_blockStores {x r : Reg} {s : State} (h : r ≤ x) : (effAddr s r.val, s.reg r) ∈ blockStores x s :=
  List.mem_map.mpr ⟨r, mem_regsUpTo.mpr h, rfl⟩

theorem memWriteAll_blockStores_eq_error {x r : Reg} {s : State} (hr : r ≤ x)
    (hbad : ¬ Storable s.cfg (s.i.toNat + r.val)) (hfirst : ∀ q : Reg, q < r → Storable s.cfg (s.i.toNat + q.val)) :
    memWriteAll s (blockStores x s) = .error (storeFault (s.i.toNat + r.val) (s.pc - 2)) := by
  obtain ⟨pre, post, hsplit, hpre⟩ := exists_regsUpTo_eq_append hr
  have hstorable : ∀ e ∈ pre.map fun q => (effAddr s q.val, s.reg q), Storable s.cfg e.1 := by
    intro e he
    obtain ⟨q, hq, rfl⟩ := List.mem_map.mp he
    exact hfirst q (hpre q hq)
  rw [blockStores, hsplit, List.map_append, List.map_cons]
  exact memWriteAll_error_of_first hstorable hbad

/-- Settles O28: the block stored and I moved, or the fault of the first address. -/
theorem blockStore : Obligations.BlockStore := by
  refine fun x s hw => ⟨encodedAs_of_encode_eq_formatX 0xF 0x55 rfl rfl, fun h => ?_, fun r hr hbad hfirst => ?_⟩
  · have haddrs : ∀ e ∈ blockStores x s, Storable s.cfg e.1 := by
      intro e he
      obtain ⟨r, hr, rfl⟩ := List.mem_map.mp he
      exact h r (mem_regsUpTo.mp hr)
    obtain ⟨t, ht⟩ := memWriteAll_ok_of_storable haddrs
    have hframe : FrameExcept [] [] ((blockStores x s).map Prod.fst) s t := frame_of_memWriteAll ht
    have hblock : FrameExcept [.i] [] ((blockStores x s).map Prod.fst) s t := frame_of_memWriteAll ht
    obtain ⟨-, -, hcfg⟩ := hframe.fixed
    refine ⟨afterBlock x t, exec_storeRegs_of_ok ht, fun r hr => ?_, ?_, ?_⟩
    · rw [byteAt_afterBlock]
      exact memWriteAll_stores hw (blockStores_addrs_nodup x s) ht _ (mem_blockStores hr)
    · rw [toNat_afterBlock_i, hcfg, hframe.i (by simp)]
    · rw [← map_fst_blockStores]
      exact hblock.afterBlock x (by simp)
  · rw [exec_storeRegs_of_error (memWriteAll_blockStores_eq_error hr hbad hfirst)]
    exact faultsWith_raise _ s

/-! ## LD Vx, [I] -/

theorem loadEach_regsUpTo_eq_error {x r : Reg} {s : State} (hr : r ≤ x) (hbad : 0xFFF < s.i.toNat + r.val)
    (hfirst : ∀ q : Reg, q < r → s.i.toNat + q.val ≤ 0xFFF) :
    loadEach s (regsUpTo x) = .error (.memoryOutOfBounds (s.i.toNat + r.val) (s.pc - 2)) := by
  obtain ⟨pre, post, hsplit, hpre⟩ := exists_regsUpTo_eq_append hr
  rw [hsplit]
  exact loadEach_error_of_first (fun q hq => hfirst q (hpre q hq)) hbad

/-- Settles O29: the block loaded and I moved, or the fault of the first address. -/
theorem blockLoad : Obligations.BlockLoad := by
  refine fun x s => ⟨encodedAs_of_encode_eq_formatX 0xF 0x65 rfl rfl, fun h => ?_, fun r hr hbad hfirst => ?_⟩
  · have hbounds : ∀ r ∈ regsUpTo x, s.i.toNat + r.val ≤ 0xFFF := by
      intro r hr
      have hrx : r.val ≤ x.val := mem_regsUpTo.mp hr
      omega
    obtain ⟨t, ht⟩ := loadEach_ok_of_bounds hbounds
    obtain ⟨-, -, hloaded, hothers⟩ := loadEach_eq_ok (regsUpTo_nodup x) ht
    have hframe : FrameExcept [] (regsUpTo x) [] s t := frame_of_loadEach ht
    have hblock : FrameExcept [.i] (regsUpTo x) [] s t := frame_of_loadEach ht
    obtain ⟨-, -, hcfg⟩ := hframe.fixed
    refine ⟨afterBlock x t, exec_loadRegs_of_ok ht, fun r hr => ?_, fun r hr => ?_, ?_, hblock.afterBlock x (by simp)⟩
    · rw [reg_afterBlock]
      exact hloaded r (mem_regsUpTo.mpr hr)
    · rw [reg_afterBlock]
      exact hothers r (mt mem_regsUpTo.mp (not_le.mpr hr))
    · rw [toNat_afterBlock_i, hcfg, hframe.i (by simp)]
  · rw [exec_loadRegs_of_error (loadEach_regsUpTo_eq_error hr hbad hfirst)]
    exact faultsWith_raise _ s

end Sys2Proof.Machine
end

section
/-! SUPPORT. Which instruction raises which fault (60_exceptions.md R311). A fault of `exec` is a raise in the state the
instruction executes in (`exec_eq_raise_of_status`), so each raiser is asked only what it can raise. -/

namespace Sys2Proof.Machine

/-! ## A fault is a raise -/

/-- A completed instruction ends no run with a fault. -/
theorem Completed.isFaulted {s t : State} (h : Completed s t) (hs : s.isFaulted = false) : t.isFaulted = false := by
  rcases h.status with e | e | ⟨x, e⟩ | e
  · rw [isFaulted_of_status e, hs]
  all_goals rw [State.isFaulted, e]

theorem exec_eq_raise_of_status {i : Instr} {s t : State} {f : Fault} (h : exec i s = .next t)
    (hs : s.isFaulted = false) (ht : t.status = .haltedFault f) : exec i s = raise f s := by
  rcases exec_cases h with ⟨g, rfl⟩ | hC
  · rw [faulted_status] at ht
    cases ht
    exact h
  · exact absurd ht (isFaulted_eq_false.mp (hC.isFaulted hs) f)

theorem raise_inj {f g : Fault} {s : State} (h : raise f s = raise g s) : f = g := by
  have hst := congrArg State.status (raise_eq_next.mp h)
  rw [faulted_status, faulted_status] at hst
  cases hst
  rfl

/-- A raise calls `stop_tone()`, so a next state with the calls made before is none. -/
theorem next_ne_raise {f : Fault} {s t : State} (h : t.out = s.out) : (.next t : Outcome) ≠ raise f s := by
  intro he
  rw [raise_eq_next.mp he.symm] at h
  simp at h

/-! ## What each raiser raises -/

section
variable {x y : Reg} {n : Nat} {nnn : Addr12} {s : State} {f : Fault}

theorem eq_stackUnderflow_of_exec_ret (h : exec .ret s = raise f s) : f = .stackUnderflow (s.pc - 2) := by
  rcases List.eq_nil_or_concat' s.stack with hs | ⟨rest, w, hs⟩
  · rw [exec_ret_of_empty hs] at h
    exact (raise_inj h).symm
  · rw [exec_ret_of_concat hs] at h
    exact absurd h (next_ne_raise rfl)

theorem eq_stackOverflow_of_exec_call (h : exec (.call nnn) s = raise f s) : f = .stackOverflow (s.pc - 2) := by
  by_cases hs : s.stack.length = s.cfg.stackDepth
  · rw [exec_call_of_full hs] at h
    exact (raise_inj h).symm
  · rw [exec_call_of_not_full hs] at h
    exact absurd h (next_ne_raise rfl)

theorem eq_fontDigitOutOfRange_of_exec_ldF (h : exec (.ldF x) s = raise f s) :
    f = .fontDigitOutOfRange (s.reg x) (s.pc - 2) := by
  rcases Nat.lt_or_ge 0xF (s.reg x).toNat with hd | hd
  · rw [exec_ldF_of_not_digit hd] at h
    exact (raise_inj h).symm
  · rw [exec_ldF_of_digit hd] at h
    exact absurd h (next_ne_raise rfl)

theorem eq_keyIndexOutOfRange_of_exec_skp (h : exec (.skp x) s = raise f s) :
    f = .keyIndexOutOfRange (s.reg x) (s.pc - 2) := by
  rcases Nat.lt_or_ge 0xF (s.reg x).toNat with hk | hk
  · rw [exec_skp_of_not_key hk] at h
    exact (raise_inj h).symm
  · rw [exec_skp_of_key hk] at h
    exact absurd h (next_ne_raise rfl)

theorem eq_keyIndexOutOfRange_of_exec_sknp (h : exec (.sknp x) s = raise f s) :
    f = .keyIndexOutOfRange (s.reg x) (s.pc - 2) := by
  rcases Nat.lt_or_ge 0xF (s.reg x).toNat with hk | hk
  · rw [exec_sknp_of_not_key hk] at h
    exact (raise_inj h).symm
  · rw [exec_sknp_of_key hk] at h
    exact absurd h (next_ne_raise rfl)

theorem exists_memoryOutOfBounds_of_exec_drw (h : exec (.drw x y n) s = raise f s) :
    ∃ a, f = .memoryOutOfBounds a (s.pc - 2) ∧ 0xFFF < a := by
  simp only [exec, execDrw] at h
  split at h
  · exact absurd h (next_ne_raise rfl)
  · rename_i g hg
    obtain ⟨-, r, -, -, -, hr, rfl⟩ := drawRows_eq_error hg
    exact ⟨_, (raise_inj h).symm, hr⟩

theorem exists_memoryOutOfBounds_of_exec_loadRegs (h : exec (.loadRegs x) s = raise f s) :
    ∃ a, f = .memoryOutOfBounds a (s.pc - 2) ∧ 0xFFF < a := by
  rcases hl : loadEach s (regsUpTo x) with g | t
  · rw [exec_loadRegs_of_error hl] at h
    obtain ⟨-, r, -, -, -, hr, rfl⟩ := loadEach_eq_error hl
    exact ⟨_, (raise_inj h).symm, hr⟩
  · rw [exec_loadRegs_of_ok hl] at h
    have hframe : FrameExcept [.i] (regsUpTo x) [] s (afterBlock x t) := (frame_of_loadEach hl).afterBlock x (by simp)
    exact absurd h (next_ne_raise (hframe.out (by simp)))

theorem exists_storeFault_of_memWriteAll {l : List (Nat × Byte)} (h : memWriteAll s l = .error f) :
    ∃ a, ¬ Storable s.cfg a ∧ f = storeFault a (s.pc - 2) := by
  obtain ⟨-, e, -, -, -, he, hf⟩ := memWriteAll_eq_error h
  exact ⟨e.1, he, hf⟩

theorem exists_storeFault_of_exec_ldB (h : exec (.ldB x) s = raise f s) :
    ∃ a, ¬ Storable s.cfg a ∧ f = storeFault a (s.pc - 2) := by
  rcases hl : memWriteAll s (bcdStores x s) with g | t
  · rw [exec_ldB_of_error hl] at h
    exact raise_inj h ▸ exists_storeFault_of_memWriteAll hl
  · rw [exec_ldB_of_ok hl] at h
    have hframe : FrameExcept [] [] _ s t := frame_of_memWriteAll hl
    exact absurd h (next_ne_raise (hframe.out (by simp)))

theorem exists_storeFault_of_exec_storeRegs (h : exec (.storeRegs x) s = raise f s) :
    ∃ a, ¬ Storable s.cfg a ∧ f = storeFault a (s.pc - 2) := by
  rcases hl : memWriteAll s (blockStores x s) with g | t
  · rw [exec_storeRegs_of_error hl] at h
    exact raise_inj h ▸ exists_storeFault_of_memWriteAll hl
  · rw [exec_storeRegs_of_ok hl] at h
    have hframe : FrameExcept [.i] [] _ s (afterBlock x t) := (frame_of_memWriteAll hl).afterBlock x (by simp)
    exact absurd h (next_ne_raise (hframe.out (by simp)))

end

/-- A store that does not complete is outside Memory, or in it and in the font (20_memory.md R67, R68). -/
theorem storeFault_cases {c : Config} {a : Nat} (h : ¬ Storable c a) (insn : Word) :
    (0xFFF < a ∧ storeFault a insn = .memoryOutOfBounds a insn) ∨
      (c.fontBase ≤ a ∧ a ≤ c.fontBase + 79 ∧ storeFault a insn = .fontWrite a insn) := by
  by_cases ha : a > 0xFFF
  · exact .inl ⟨ha, if_pos ha⟩
  · have hfont : c.fontBase ≤ a ∧ a ≤ c.fontBase + 79 := by
      by_contra hn
      exact h ⟨Nat.not_lt.mp ha, hn⟩
    exact .inr ⟨hfont.1, hfont.2, if_neg ha⟩

/-- An instruction that raises is one of R311's raisers. -/
theorem mayFault_of_exec_eq_raise {i : Instr} {s : State} {f : Fault} (h : exec i s = raise f s) :
    mayFault i = true := by
  refine mayFault_of_exec_faulted (f := f) ?_ h
  rintro x rfl
  have hraised : awaitKey x (keyRequested x s) = faulted f s := raise_eq_next.mp h.symm
  have hout : s.out ++ [.keyWaitReq x] = s.out ++ [.stopTone] :=
    (awaitKey_out_status x (keyRequested x s)).1.symm.trans (congrArg State.out hraised)
  simp at hout

/-- Settles O40: the fault of each raiser. -/
theorem faultsComeFromTheirInstructions : Obligations.FaultsComeFromTheirInstructions := by
  intro i s t f hexec hs ht
  have h := exec_eq_raise_of_status hexec hs ht
  have hi := mayFault_of_exec_eq_raise h
  cases i
  case ret => exact .inl ⟨eq_stackUnderflow_of_exec_ret h, rfl⟩
  case call nnn => exact .inr (.inl ⟨eq_stackOverflow_of_exec_call h, nnn, rfl⟩)
  case drw x y n =>
    obtain ⟨a, hf, ha⟩ := exists_memoryOutOfBounds_of_exec_drw h
    exact .inr (.inr (.inl ⟨a, hf, ha, .inl ⟨x, y, n, rfl⟩⟩))
  case loadRegs x =>
    obtain ⟨a, hf, ha⟩ := exists_memoryOutOfBounds_of_exec_loadRegs h
    exact .inr (.inr (.inl ⟨a, hf, ha, .inr (.inr (.inr ⟨x, rfl⟩))⟩))
  case ldB x =>
    obtain ⟨a, ha, rfl⟩ := exists_storeFault_of_exec_ldB h
    rcases storeFault_cases ha (s.pc - 2) with ⟨hout, hf⟩ | ⟨hlo, hhi, hf⟩
    · exact .inr (.inr (.inl ⟨a, hf, hout, .inr (.inl ⟨x, rfl⟩)⟩))
    · exact .inr (.inr (.inr (.inl ⟨a, hf, hlo, hhi, .inl ⟨x, rfl⟩⟩)))
  case storeRegs x =>
    obtain ⟨a, ha, rfl⟩ := exists_storeFault_of_exec_storeRegs h
    rcases storeFault_cases ha (s.pc - 2) with ⟨hout, hf⟩ | ⟨hlo, hhi, hf⟩
    · exact .inr (.inr (.inl ⟨a, hf, hout, .inr (.inr (.inl ⟨x, rfl⟩))⟩))
    · exact .inr (.inr (.inr (.inl ⟨a, hf, hlo, hhi, .inr ⟨x, rfl⟩⟩)))
  case ldF x => exact .inr (.inr (.inr (.inr (.inl ⟨x, eq_fontDigitOutOfRange_of_exec_ldF h, rfl⟩))))
  case skp x => exact .inr (.inr (.inr (.inr (.inr ⟨x, eq_keyIndexOutOfRange_of_exec_skp h, .inl rfl⟩))))
  case sknp x => exact .inr (.inr (.inr (.inr (.inr ⟨x, eq_keyIndexOutOfRange_of_exec_sknp h, .inr rfl⟩))))
  all_goals cases hi

end Sys2Proof.Machine
end

section
/-! SUPPORT. The end of an iteration (60_exceptions.md R330 to R336), field by field and as a frame, and the steps of a core that
the key wait (R337) or the debug hold (R338) suspends, by what their look for an answer finds. -/

namespace Sys2Proof.Machine

/-! ## The end of an iteration -/

section
variable {s : State} (hq : s.host.quitIn ≠ some 0)
include hq

theorem finishIteration_st : (finishIteration s).st = countOne s.st := by rw [finishIteration_fields hq]

theorem finishIteration_dt : (finishIteration s).dt = countOne s.dt := by rw [finishIteration_fields hq]

theorem finishIteration_redraw : (finishIteration s).redraw = false := by rw [finishIteration_fields hq]

theorem finishIteration_status : (finishIteration s).status = s.status := by rw [finishIteration_fields hq]

theorem finishIteration_host :
    (finishIteration s).host = { s.host with quitIn := s.host.quitIn.map (· - 1) } := by rw [finishIteration_fields hq]

theorem finishIteration_draws : (finishIteration s).draws = s.draws := by rw [finishIteration_fields hq]

theorem finishIteration_out : (finishIteration s).out = s.out ++ renderCalls s ++ toneCalls s := by
  rw [finishIteration_fields hq]

theorem toNat_finishIteration_st : (finishIteration s).st.toNat = s.st.toNat - 1 := by
  rw [finishIteration_st hq, toNat_countOne]

theorem toNat_finishIteration_dt : (finishIteration s).dt.toNat = s.dt.toNat - 1 := by
  rw [finishIteration_dt hq, toNat_countOne]

end

/-- What the end of an iteration may change when no quit ends it. -/
theorem FrameExcept.finishIteration {ps : List Part} {rs : List Reg} {bs : List Nat} {s t : State}
    (h : FrameExcept ps rs bs s t) (hq : t.host.quitIn ≠ some 0)
    (hps : ∀ p ∈ [Part.dt, .st, .redraw, .host, .out], p ∈ ps) : FrameExcept ps rs bs s (finishIteration t) := by
  rw [finishIteration_of_no_quit hq]
  have hpoll := h.setHost (afterQuitPoll t).host (hps _ (by simp))
  have hrender := (hpoll.emit (renderCalls t) (hps _ (by simp))).setRedraw false (hps _ (by simp))
  exact ((hrender.emit _ (hps _ (by simp))).setSt _ (hps _ (by simp))).setDt _ (hps _ (by simp))

/-- Settles O43: the fields and the frame of `finishIteration`. -/
theorem iterationRendersAndCountsDown : Obligations.IterationRendersAndCountsDown :=
  ⟨fun _ => afterCycle_running, fun s hq =>
    ⟨toNat_finishIteration_st hq, toNat_finishIteration_dt hq, finishIteration_redraw hq, finishIteration_host hq,
      finishIteration_draws hq, finishIteration_out hq, (FrameExcept.refl _ _ _ s).finishIteration hq (by simp)⟩⟩

/-- Settles O44: a quit sets STATUS alone, and an end without one leaves STATUS. -/
theorem quitPollEndsTheRun : Obligations.QuitPollEndsTheRun := by
  refine fun s => ⟨fun hq => ?_, finishIteration_status, afterCycle_running⟩
  rw [finishIteration_of_quit hq]
  exact ⟨rfl, (FrameExcept.refl _ _ _ s).setStatus _ (by simp)⟩

/-! ## A step of the key wait -/

/-- The state after the key wait's look has found key `k`, with `rest` of the host's answers left (46_keys.md R253). -/
def keyReceived (x : Reg) (k : Key) (rest : List (Option KeyAnswer)) (s : State) : State :=
  ((s.setHost { s.host with answers := rest }).setReg x (BitVec.ofNat 8 k.val)).setStatus .running

theorem toNat_reg_keyReceived (x : Reg) (k : Key) (rest : List (Option KeyAnswer)) (s : State) :
    ((keyReceived x k rest s).reg x).toNat = k.val := by
  rw [keyReceived, State.reg_setStatus, State.reg_setReg_same, toNat_ofNat_key]

theorem FrameExcept.keyReceived {ps : List Part} {rs : List Reg} {bs : List Nat} {s t : State}
    (h : FrameExcept ps rs bs s t) {x : Reg} (k : Key) (rest : List (Option KeyAnswer)) (hs : .status ∈ ps)
    (hh : .host ∈ ps) (hx : x ∈ rs) : FrameExcept ps rs bs s (keyReceived x k rest t) :=
  ((h.setHost _ hh).setReg _ hx).setStatus _ hs

section
variable {x : Reg} {s : State} {rest : List (Option KeyAnswer)} {k : Key} (hs : s.status = .waitingKey x)
include hs

theorem step_waiting_of_no_answer (h : s.host.answers = []) : step s = .next s := by
  rw [step_waiting hs, awaitKey_of_no_answer h, afterCycle_not_running (by simp [hs])]

theorem step_waiting_of_no_answer_yet (h : s.host.answers = none :: rest) :
    step s = .next (s.setHost { s.host with answers := rest }) := by
  rw [step_waiting hs, awaitKey_of_no_answer_yet h, afterCycle_not_running (by simp [hs])]

theorem step_waiting_of_quit (h : s.host.answers = some .quit :: rest) :
    step s = .next ((s.setHost { s.host with answers := rest }).setStatus (.haltedNormal .capabilityExit)) := by
  rw [step_waiting hs, awaitKey_of_quit h, afterCycle_not_running (by simp)]

theorem step_waiting_of_key (h : s.host.answers = some (.key k) :: rest) :
    step s = .next (afterCycle (keyReceived x k rest s)) := by
  rw [step_waiting hs, awaitKey_of_key h, keyReceived]

theorem step_waiting_of_key_hold (h : s.host.answers = some (.key k) :: rest) (hd : s.cfg.debugStep = true) :
    step s = .next ((keyReceived x k rest s).setHold true) := by
  rw [step_waiting_of_key hs h, afterCycle_running_hold (s := keyReceived x k rest s) rfl hd]

theorem step_waiting_of_key_finish (h : s.host.answers = some (.key k) :: rest) (hd : s.cfg.debugStep = false) :
    step s = .next (finishIteration (keyReceived x k rest s)) := by
  rw [step_waiting_of_key hs h, afterCycle_running (s := keyReceived x k rest s) rfl hd]

theorem step_waiting_of_key_quitRequested (h : s.host.answers = some (.key k) :: rest) (hd : s.cfg.debugStep = false)
    (hq : s.host.quitIn = some 0) :
    step s = .next ((keyReceived x k rest s).setStatus (.haltedNormal .quitRequested)) := by
  rw [step_waiting_of_key_finish hs h hd, finishIteration_of_quit (s := keyReceived x k rest s) hq]

end

/-- Settles O17: a step by what its look finds; a key leads to the hold or to the end of the iteration. -/
theorem keyWaitPausesTheTimers : Obligations.KeyWaitPausesTheTimers := by
  refine fun x s hs => ⟨step_waiting_of_no_answer hs, fun _ => step_waiting_of_no_answer_yet hs, fun rest h => ?quit,
    fun k rest h hd => ?hold, fun k rest h hd hq => ?quitRequested, fun k rest h hd hq => ?finish⟩
  case quit =>
    exact ⟨_, step_waiting_of_quit hs h, rfl, rfl, rfl,
      ((FrameExcept.refl _ _ _ s).setHost _ (by simp)).setStatus _ (by simp)⟩
  case hold =>
    exact ⟨_, step_waiting_of_key_hold hs h hd, toNat_reg_keyReceived x k rest s, rfl, rfl, rfl, rfl,
      (FrameExcept.refl _ _ _ (s.setHold true)).keyReceived k rest (by simp) (by simp) (by simp)⟩
  case quitRequested =>
    exact ⟨_, step_waiting_of_key_quitRequested hs h hd hq, toNat_reg_keyReceived x k rest s, rfl, rfl, rfl,
      ((FrameExcept.refl _ _ _ s).keyReceived k rest (by simp) (by simp) (by simp)).setStatus _ (by simp)⟩
  case finish =>
    have hframe := (FrameExcept.refl [.dt, .st, .redraw, .status, .host, .out] [x] [] s).keyReceived (x := x) k rest
      (by simp) (by simp) (by simp)
    have hvx : ((finishIteration (keyReceived x k rest s)).reg x).toNat = k.val := by
      rw [finishIteration_fields (s := keyReceived x k rest s) hq]
      exact toNat_reg_keyReceived x k rest s
    exact ⟨_, step_waiting_of_key_finish hs h hd, hvx, finishIteration_status hq, finishIteration_redraw hq,
      toNat_finishIteration_dt hq, toNat_finishIteration_st hq, finishIteration_out hq, finishIteration_host hq,
      finishIteration_draws hq, hframe.finishIteration hq (by simp)⟩

/-! ## Any number of looks -/

/-- Looks that find no answer yet use up their entries of the host's script and leave the core's state (R337, R349). -/
theorem reaches_of_looks_without_answer {x : Reg} {later : List (Option KeyAnswer)} (n : Nat) {s : State}
    (hs : s.status = .waitingKey x) (h : s.host.answers = List.replicate n none ++ later) :
    Reaches s (s.setHost { s.host with answers := later }) := by
  induction n generalizing s with
  | zero =>
    obtain rfl : s.host.answers = later := h
    exact .refl
  | succ n ih =>
    exact reaches_of_step (step_waiting_of_no_answer_yet hs h)
      (ih (s := s.setHost { s.host with answers := List.replicate n none ++ later }) hs rfl)

/-- Settles O57: the looks without an answer, then the one step that finds the key. -/
theorem keyAnswersComeAfterAnyDelay : Obligations.KeyAnswersComeAfterAnyDelay := by
  intro x n k rest s hs hd hq h
  obtain ⟨-, -, -, -, -, hkey⟩ :=
    keyWaitPausesTheTimers x (s.setHost { s.host with answers := some (.key k) :: rest }) hs
  obtain ⟨t, hstep, hvx, hstatus, hredraw, hdt, hst, hout, hhost, -, hframe⟩ := hkey k rest rfl hd hq
  exact ⟨t, .tail (reaches_of_looks_without_answer n hs h) hstep, hvx, hstatus, by rw [hhost], hredraw, hdt, hst, hout,
    { hframe with host := fun hn => absurd (by simp) hn }⟩

/-! ## A step of the debug hold -/

/-- The state that has left the debug hold, with `rest` of the host's answers left (60_exceptions.md R338). -/
def holdLeft (rest : List (Option KeyAnswer)) (s : State) : State :=
  (s.setHold false).setHost { s.host with answers := rest }

/-- The state after CONTINUE_KEY, in which the iteration goes on to its end (R338). -/
def registersPrinted (rest : List (Option KeyAnswer)) (s : State) : State :=
  (holdLeft rest s).emit [.printRegisters s.v s.i s.pc s.dt s.st]

theorem frameExcept_holdLeft {ps : List Part} (hh : .host ∈ ps) (rest : List (Option KeyAnswer)) (s : State) :
    FrameExcept ps [] [] (s.setHold false) (holdLeft rest s) := (FrameExcept.refl _ _ _ _).setHost _ hh

theorem frameExcept_registersPrinted {ps : List Part} (hh : .host ∈ ps) (ho : .out ∈ ps)
    (rest : List (Option KeyAnswer)) (s : State) : FrameExcept ps [] [] (s.setHold false) (registersPrinted rest s) :=
  (frameExcept_holdLeft hh rest s).emit _ ho

section
variable {s : State} {rest : List (Option KeyAnswer)} {k : Key} (hs : s.status = .running) (hh : s.hold = true)
include hs hh

theorem step_hold_of_no_answer (h : s.host.answers = []) : step s = .next s := by
  rw [step_hold hs hh, debugHold, hostAnswer_nil h, dropAnswer_nil h]

theorem step_hold_of_no_answer_yet (h : s.host.answers = none :: rest) :
    step s = .next (s.setHost { s.host with answers := rest }) := by
  rw [step_hold hs hh, debugHold, hostAnswer_cons h, dropAnswer_cons h]

theorem step_hold_of_other_key (h : s.host.answers = some (.key k) :: rest) (hk : k ≠ s.cfg.continueKey) :
    step s = .next (s.setHost { s.host with answers := rest }) := by
  simp only [step_hold hs hh, debugHold, hostAnswer_cons h, dropAnswer_cons h, hk, if_false]

theorem step_hold_of_quit (h : s.host.answers = some .quit :: rest) :
    step s = .next ((holdLeft rest s).setStatus (.haltedNormal .capabilityExit)) := by
  rw [step_hold hs hh, debugHold, hostAnswer_cons h, dropAnswer_cons h]
  rfl

theorem step_hold_of_continueKey (h : s.host.answers = some (.key s.cfg.continueKey) :: rest) :
    step s = .next (finishIteration (registersPrinted rest s)) := by
  simp only [step_hold hs hh, debugHold, hostAnswer_cons h, dropAnswer_cons h, if_true]
  rfl

theorem step_hold_of_quitRequested (h : s.host.answers = some (.key s.cfg.continueKey) :: rest)
    (hq : s.host.quitIn = some 0) :
    step s = .next ((registersPrinted rest s).setStatus (.haltedNormal .quitRequested)) := by
  rw [step_hold_of_continueKey hs hh h, finishIteration_of_quit (s := registersPrinted rest s) hq]

end

/-- Settles O45: a step by what its look finds; CONTINUE_KEY leads to the end of the iteration. -/
theorem debugHoldWaitsForItsKey : Obligations.DebugHoldWaitsForItsKey := by
  refine ⟨fun _ => afterCycle_running_hold, fun s hs hh => ⟨step_hold_of_no_answer hs hh,
    fun _ => step_hold_of_no_answer_yet hs hh, fun _ _ => step_hold_of_other_key hs hh, fun rest h => ?quit,
    fun rest h hq => ?quitRequested, fun rest h hq => ?finish⟩⟩
  case quit =>
    exact ⟨_, step_hold_of_quit hs hh h, rfl, rfl, rfl, rfl,
      (frameExcept_holdLeft (by simp) rest s).setStatus _ (by simp)⟩
  case quitRequested =>
    exact ⟨_, step_hold_of_quitRequested hs hh h hq, rfl, rfl, rfl, rfl, rfl,
      (frameExcept_registersPrinted (by simp) (by simp) rest s).setStatus _ (by simp)⟩
  case finish =>
    have hpoll : (registersPrinted rest s).host.quitIn ≠ some 0 := hq
    exact ⟨_, step_hold_of_continueKey hs hh h, (finishIteration_status hpoll).trans hs, finishIteration_hold _,
      finishIteration_redraw hpoll, toNat_finishIteration_dt hpoll, toNat_finishIteration_st hpoll,
      finishIteration_out hpoll, finishIteration_host hpoll, finishIteration_draws hpoll,
      (frameExcept_registersPrinted (by simp) (by simp) rest s).finishIteration hpoll (by simp)⟩

end Sys2Proof.Machine
end

section
/-! SUPPORT. Whole iterations (60_exceptions.md R312, R330, R343, 70_reset_and_hazards.md R376, R377): the calls a step makes,
said once (`step_fault_or_quiet`), and the step of an iteration from its instruction. -/

namespace Sys2Proof.Machine

/-! ## The tone -/

/-- No fault ends `t` if none had ended `s`, and `t` has called `stop_tone()` no more often than `s`. -/
structure Quiet (s t : State) : Prop where
  live : s.isFaulted = false → t.isFaulted = false
  stopTones : t.out.count .stopTone = s.out.count .stopTone

theorem Quiet.of_eq {s t : State} (hs : t.status = s.status) (ho : t.out = s.out) : Quiet s t where
  live := fun h => (isFaulted_of_status hs).trans h
  stopTones := by rw [ho]

theorem Quiet.refl (s : State) : Quiet s s := .of_eq rfl rfl

theorem Quiet.trans {s t u : State} (h : Quiet s t) (k : Quiet t u) : Quiet s u where
  live := fun hs => k.live (h.live hs)
  stopTones := k.stopTones.trans h.stopTones

theorem count_stopTone_renderCalls (s : State) : (renderCalls s).count .stopTone = 0 := by
  rw [renderCalls]; split <;> rfl

theorem count_stopTone_toneCalls (s : State) : (toneCalls s).count .stopTone = 0 := by
  rw [toneCalls]; split <;> rfl

theorem quiet_finishIteration (s : State) : Quiet s (finishIteration s) := by
  by_cases hq : s.host.quitIn = some 0
  · rw [finishIteration_of_quit hq]; exact ⟨fun _ => rfl, rfl⟩
  · exact ⟨fun h => (isFaulted_of_status (finishIteration_status hq)).trans h, by
      rw [finishIteration_out hq, List.count_append, List.count_append, count_stopTone_renderCalls,
        count_stopTone_toneCalls]; rfl⟩

theorem quiet_afterCycle (s : State) : Quiet s (afterCycle s) := by
  rcases afterCycle_cases s with e | ⟨-, e⟩ | e <;> rw [e]
  · exact .refl s
  · exact .of_eq rfl rfl
  · exact quiet_finishIteration s

theorem quiet_awaitKey (x : Reg) (s : State) : Quiet s (awaitKey x s) := by
  rcases awaitKey_cases x s with ⟨-, e⟩ | ⟨-, e⟩ | ⟨k, -, e⟩ <;> rw [e]
  · exact .of_eq rfl rfl
  · exact ⟨fun _ => rfl, rfl⟩
  · exact ⟨fun _ => rfl, rfl⟩

theorem quiet_debugHold (s : State) : Quiet s (debugHold s) := by
  rcases debugHold_cases s with ⟨-, e⟩ | ⟨-, e⟩ | ⟨k, -, -, e⟩ | ⟨-, e⟩ <;> rw [e]
  · exact .of_eq rfl rfl
  · exact ⟨fun _ => rfl, rfl⟩
  · exact .of_eq rfl rfl
  · have hprint : Quiet s (((dropAnswer s).setHold false).emit [.printRegisters s.v s.i s.pc s.dt s.st]) :=
      ⟨id, List.count_append.trans rfl⟩
    exact hprint.trans (quiet_finishIteration _)

theorem Completed.quiet {s t : State} (h : Completed s t) : Quiet s t := by
  refine ⟨h.isFaulted, ?_⟩
  rcases h.out with e | ⟨x, e⟩ <;> rw [e]
  exact List.count_append.trans rfl

theorem cycle_fault_or_quiet {s t : State} (h : cycle s = .next t) :
    (∃ f u, u.out = s.out ∧ t = faulted f u) ∨ Quiet s t := by
  rcases cycle_cases s with ⟨-, e⟩ | ⟨-, -, e⟩ | ⟨-, i, -, e⟩ <;> rw [e] at h
  · exact .inl ⟨_, s, rfl, raise_eq_next.mp h⟩
  · exact .inl ⟨_, advancePc s, rfl, raise_eq_next.mp h⟩
  · rcases exec_cases h with ⟨f, e⟩ | hC
    · exact .inl ⟨f, advancePc s, rfl, e⟩
    · exact .inr ⟨hC.quiet.live, hC.quiet.stopTones⟩

/-- A step ends in the halted state of a fault, raised before any other call, or calls no `stop_tone()`. -/
theorem step_fault_or_quiet {s t : State} (h : step s = .next t) :
    (∃ f u, u.out = s.out ∧ t = faulted f u) ∨ Quiet s t := by
  cases hs : s.status with
  | running =>
    cases hh : s.hold with
    | true => rw [step_hold hs hh] at h; cases h; exact .inr (quiet_debugHold s)
    | false =>
      rw [step_iteration ⟨hs, hh⟩] at h
      obtain ⟨v, hv, rfl⟩ := thenDo_eq_next.mp h
      have hscan : Quiet s (scanInputs s) := by rw [scanInputs_eq]; exact .of_eq rfl rfl
      rcases cycle_fault_or_quiet hv with ⟨f, u, hu, rfl⟩ | hQ
      · exact .inl ⟨f, u, hu.trans (scanInputs_out s), afterCycle_not_running (by simp)⟩
      · exact .inr ((hscan.trans hQ).trans (quiet_afterCycle v))
  | waitingKey x =>
    rw [step_waiting hs] at h; cases h
    exact .inr ((quiet_awaitKey x s).trans (quiet_afterCycle _))
  | haltedNormal r => rw [step_haltedNormal hs] at h; cases h; exact .inr (.refl s)
  | haltedFault f => rw [step_haltedFault hs] at h; cases h

/-- Settles O46: a step that is quiet ends in no fault, and one that is not ends in the halted state of its fault. -/
theorem faultsSilenceTheToneAndEndTheRun : Obligations.FaultsSilenceTheToneAndEndTheRun := by
  intro s t h
  rcases step_fault_or_quiet h with ⟨g, u, hu, rfl⟩ | hQ
  · refine ⟨fun f hf => ⟨by rw [faulted_out, hu], step_haltedFault hf⟩, fun hlive => ?_⟩
    simp at hlive
  · have hlive := hQ.live (isFaulted_of_step h)
    exact ⟨fun f hf => absurd hf (isFaulted_eq_false.mp hlive f), fun _ => hQ.stopTones⟩

/-! ## The state an instruction executes in -/

/-- The state in which the instruction of an iteration executes (30_encoding.md R110): the key sample taken, PC at A + 2. -/
def executing (s : State) : State := advancePc (scanInputs s)

/-- A step of an iteration is its instruction, then what follows a cycle. -/
theorem step_of_decode_ok {s : State} {i : Instr} (hs : s.atIteration) (hpc : s.pc.toNat ≤ 0xFFE)
    (hd : decode (wordAtPc s) = .ok i) : step s = thenDo (exec i (executing s)) afterCycle := by
  obtain ⟨hstep, -⟩ := stepRunsTheDecodedInstruction s i hs hpc hd
  exact hstep

/-- The key sample and the fetch change the sample, the host's record and PC. -/
theorem executing_eq (s : State) : executing s =
    (((s.setKeys (scanInputs s).keys).setHost (scanInputs s).host).setDraws (scanInputs s).draws).setPc (s.pc + 2) := by
  rw [executing, advancePc, scanInputs_eq]
  rfl

@[simp] theorem executing_status (s : State) : (executing s).status = s.status := by rw [executing_eq]; rfl
@[simp] theorem executing_cfg (s : State) : (executing s).cfg = s.cfg := by rw [executing_eq]; rfl
@[simp] theorem executing_dt (s : State) : (executing s).dt = s.dt := by rw [executing_eq]; rfl
@[simp] theorem executing_st (s : State) : (executing s).st = s.st := by rw [executing_eq]; rfl
@[simp] theorem reg_executing (s : State) (r : Reg) : (executing s).reg r = s.reg r := by rw [executing_eq]; rfl

/-- The host's next sample is the one latched, and is taken from its script (R343). -/
theorem executing_of_sample {s : State} {k : BitVec 16} {rest : List (BitVec 16)} (h : s.host.samples = k :: rest) :
    executing s = ((s.setKeys k).setHost { s.host with samples := rest }).setPc (s.pc + 2) := by
  rw [executing, scanInputs, h]
  rfl

/-! ## Key skips -/

/-- An iteration whose instruction is a skip, with no debug step and no quit: PC is A + 4 or A + 2, and the sample is
consumed. -/
theorem exists_step_of_exec_eq_skipIf {s : State} {i : Instr} {c : Bool} {k : BitVec 16} {rest : List (BitVec 16)}
    (hs : s.atIteration) (hpc : s.pc.toNat ≤ 0xFFE) (hd : s.cfg.debugStep = false) (hq : s.host.quitIn ≠ some 0)
    (hk : s.host.samples = k :: rest) (hi : decode (wordAtPc s) = .ok i)
    (he : exec i (executing s) = .next (skipIf c (executing s))) :
    ∃ t, step s = .next t ∧ t.status = .running ∧ t.keys = k ∧
      t.host = { s.host with samples := rest, quitIn := s.host.quitIn.map (· - 1) } ∧ t.draws = s.draws ∧
      t.pc = if c = true then s.pc + 4 else s.pc + 2 := by
  have hrun : (skipIf c (executing s)).status = .running := (executing_status s).trans hs.1
  have hdebug : (skipIf c (executing s)).cfg.debugStep = false := by rwa [skipIf, State.setPc_cfg, executing_cfg]
  refine ⟨finishIteration (skipIf c (executing s)), ?_, ?_⟩
  · rw [step_of_decode_ok hs hpc hi, he, thenDo, afterCycle_running hrun hdebug]
  · rw [executing_of_sample hk, finishIteration_fields (by exact hq)]
    exact ⟨hs.1, rfl, rfl, rfl, by cases c <;> simp [skipIf, BitVec.add_assoc]⟩

/-- Settles O48: the sample is in `keys` when the skip executes, and the skip reads its bit of key Vx. -/
theorem skipsUseTheIterationsSample : Obligations.SkipsUseTheIterationsSample := by
  intro s x k rest hs hpc hd hq hk hx
  have hdigit : ((executing s).reg x).toNat ≤ 0xF := by rwa [reg_executing]
  have hbit : isKeyDown (executing s) ((executing s).reg x).toNat = k.getLsbD (s.reg x).toNat := by
    rw [reg_executing, executing_of_sample hk]
    rfl
  refine ⟨fun hi => ?_, fun hi => ?_⟩
  · have he := exec_skp_of_key hdigit
    rw [hbit] at he
    exact exists_step_of_exec_eq_skipIf hs hpc hd hq hk hi he
  · have he := exec_sknp_of_key hdigit
    rw [hbit] at he
    obtain ⟨t, hstep, hstatus, hkeys, hhost, hdraws, htpc⟩ := exists_step_of_exec_eq_skipIf hs hpc hd hq hk hi he
    refine ⟨t, hstep, hstatus, hkeys, hhost, hdraws, htpc.trans ?_⟩
    cases k.getLsbD (s.reg x).toNat <;> rfl

/-! ## Timers -/

/-- An iteration that leaves the core running, with no debug step, is its instruction's next state taken to the iteration's
end by no quit. -/
theorem exists_exec_of_step_running {s t : State} {i : Instr} (hs : s.atIteration) (hpc : s.pc.toNat ≤ 0xFFE)
    (hi : decode (wordAtPc s) = .ok i) (hd : s.cfg.debugStep = false) (h : step s = .next t)
    (ht : t.status = .running) :
    ∃ u, exec i (executing s) = .next u ∧ u.isFaulted = false ∧ u.host.quitIn ≠ some 0 ∧ t = finishIteration u := by
  rw [step_of_decode_ok hs hpc hi] at h
  obtain ⟨u, hu, rfl⟩ := thenDo_eq_next.mp h
  have hrun : u.status = .running := by
    by_contra hn
    rw [afterCycle_not_running hn] at ht
    exact hn ht
  have hlive : u.isFaulted = false := by rw [State.isFaulted, hrun]
  have hdebug : u.cfg.debugStep = false := by
    rcases exec_cases hu with ⟨f, rfl⟩ | hC
    · simp at hlive
    · rwa [hC.cfg, executing_cfg]
  rw [afterCycle_running hrun hdebug] at ht ⊢
  refine ⟨u, hu, hlive, fun hq => ?_, rfl⟩
  rw [finishIteration_of_quit hq] at ht
  cases ht

/-- Settles O49: the countdown starts from what the instruction left, which its frame gives. -/
theorem timersCountIterations : Obligations.TimersCountIterations := by
  intro s t i hs hpc hi hd h ht
  obtain ⟨u, hu, hlive, hq, rfl⟩ := exists_exec_of_step_running hs hpc hi hd h ht
  have hframe := exec_frame_of_not_faulted hu hlive
  rw [toNat_finishIteration_dt hq, toNat_finishIteration_st hq]
  refine ⟨?_, fun hne => ?_, ?_, fun hne => ?_⟩
  · rintro x rfl
    cases hu
    rw [State.setDt_dt, reg_executing]
  · rw [hframe.dt (mt dt_mem_writtenParts.mp (not_exists.mpr hne)), executing_dt]
  · rintro x rfl
    cases hu
    rw [State.setSt_st, reg_executing]
  · rw [hframe.st (mt st_mem_writtenParts.mp (not_exists.mpr hne)), executing_st]

end Sys2Proof.Machine
end

section
/-! SUPPORT. Construction from a program image (70_reset_and_hazards.md R371, R372): the byte at an address by the three regions of
R371, and the state construction gives. -/

namespace Sys2Proof.Machine

/-! ## The three regions of Memory -/

section
variable {c : Config} {a : Nat}

theorem fontByte?_of_font (c : Config) (k : Fin 80) : fontByte? c (c.fontBase + k.val) = some c.font[k.val] := by
  simp [fontByte?]

theorem fontByte?_of_not_font (h : ¬ (c.fontBase ≤ a ∧ a ≤ c.fontBase + 79)) : fontByte? c a = none := by
  rw [fontByte?]
  split
  · exact Vector.getElem?_eq_none (by omega)
  · rfl

/-- Under the bounds of R6 the font ends below LOAD_ADDR. -/
theorem fontBase_add_le_of_wf (h : c.wf = true) : c.fontBase + 80 ≤ 0x200 := by
  simp only [Config.wf, Bool.and_eq_true, decide_eq_true_eq] at h
  obtain ⟨⟨hfont, -⟩, -⟩ := h
  exact hfont

theorem launchByte_of_font (c : Config) (p : Launch) (img : List Byte) (k : Fin 80) :
    launchByte c p img (c.fontBase + k.val) = c.font[k.val] := by
  rw [launchByte, fontByte?_of_font]

theorem launchByte_of_image (hc : c.wf = true) (p : Launch) {img : List Byte} {k : Nat} (hk : k < img.length) :
    launchByte c p img (0x200 + k) = img[k] := by
  have hfont := fontBase_add_le_of_wf hc
  have hload : loadAddr ≤ 0x200 + k := Nat.le_add_right _ _
  have hoffset : 0x200 + k - loadAddr = k := Nat.add_sub_cancel_left _ _
  rw [launchByte, fontByte?_of_not_font (by omega)]
  simp only [if_pos hload, hoffset, List.getElem?_eq_getElem hk, Option.getD_some]

theorem launchByte_of_rest (p : Launch) {img : List Byte} (hfont : ¬ (c.fontBase ≤ a ∧ a ≤ c.fontBase + 79))
    (himg : ¬ (0x200 ≤ a ∧ a < 0x200 + img.length)) : launchByte c p img a = p.memInit a := by
  rw [launchByte, fontByte?_of_not_font hfont]
  by_cases ha : loadAddr ≤ a
  · have hend : img.length ≤ a - loadAddr := by simp only [loadAddr] at ha ⊢; omega
    simp only [if_pos ha, List.getElem?_eq_none hend, Option.getD_none]
  · simp only [if_neg ha]

end

/-! ## The state construction gives -/

/-- The state at the start of a run from an image that is not too long (R371). -/
def launched (c : Config) (p : Launch) (host : HostScript) (img : List Byte) : State where
  v := p.v
  i := p.i
  pc := BitVec.ofNat 16 loadAddr
  dt := p.dt
  st := p.st
  stack := []
  mem := Memory.ofBytes (unlisted c) (launchByte c p img)
  fb := p.fb
  redraw := p.redraw
  status := .running
  keys := 0
  hold := false
  host := host
  out := []
  draws := 0
  cfg := c

section
variable (c : Config) (p : Launch) (host : HostScript) {img : List Byte}

theorem construct_of_le (h : img.length ≤ 3584) : construct c p host img = .next (launched c p host img) := by
  have hlen : ¬ img.length > maxImage := Nat.not_lt.mpr h
  rw [construct, if_neg hlen]
  rfl

theorem construct_of_gt (h : 3584 < img.length) : construct c p host img = .refused (.loadError img.length) := by
  have hlen : img.length > maxImage := h
  rw [construct, if_pos hlen]

theorem byteAt_launched (img : List Byte) {a : Nat} (ha : a ≤ 0xFFF) :
    (launched c p host img).byteAt a = launchByte c p img a := Memory.read_ofBytes _ ha

theorem byteAt_launched_of_image (hc : c.wf = true) (hlen : img.length ≤ 3584) {k : Nat} (hk : k < img.length) :
    (launched c p host img).byteAt (0x200 + k) = img[k] := by
  rw [byteAt_launched c p host img (by omega), launchByte_of_image hc p hk]

theorem byteAt_launched_of_font (hc : c.wf = true) (img : List Byte) (k : Fin 80) :
    (launched c p host img).byteAt (c.fontBase + k.val) = c.font[k.val] := by
  have hfont := fontBase_add_le_of_wf hc
  rw [byteAt_launched c p host img (by omega), launchByte_of_font]

theorem inv_launched (hc : c.wf = true) (img : List Byte) : Inv (launched c p host img) where
  params := hc
  memory := Memory.wf_ofBytes _
  stack := Nat.zero_le _
  font := fun _ => byteAt_launched_of_font c p host hc img
  hold := fun _ => rfl

end

/-! ## The statements -/

/-- Settles O53: the fields of `launched`, and its bytes by the three regions. -/
theorem constructionLoadsTheImage : Obligations.ConstructionLoadsTheImage := by
  refine fun c p host img hc hlen => ⟨launched c p host img, construct_of_le c p host hlen, rfl, rfl, rfl, rfl, rfl, rfl,
    rfl, rfl, rfl, rfl, rfl, byteAt_launched_of_font c p host hc img,
    fun k hk => byteAt_launched_of_image c p host hc hlen hk, fun a ha hfont himg => ?_, inv_launched c p host hc img⟩
  rw [byteAt_launched c p host img ha, launchByte_of_rest p hfont himg]

/-- Settles O54: the one length check of construction, and the image's bytes of `launched`. -/
theorem oversizedImagesAreRefused : Obligations.OversizedImagesAreRefused := fun c p host _ =>
  ⟨construct_of_gt c p host, fun hlen hc => ⟨_, construct_of_le c p host hlen, fun _ hk =>
    byteAt_launched_of_image c p host hc hlen hk⟩⟩

end Sys2Proof.Machine
end
